-- ==== Sys2Proof/Word.lean ====
section
/-! DEFINITION. The word types of the link codec block (30_encoding.md R90, R92, R107). -/

namespace Sys2Proof

/-- A byte, 8 bits (00_scope.md R10). -/
abbrev Byte := BitVec 8

/-- The datum of a storage word: 15 significant bits (30_encoding.md R92). -/
abbrev Word15 := BitVec 15

/-- A host command word `opc : arg` (30_encoding.md R107). -/
abbrev CmdWord := BitVec 16

/-- A millisecond timestamp of a datagram, u64 (30_encoding.md R102, 92_eei_decisions.md D21). -/
abbrev Stamp := BitVec 64

end Sys2Proof
end

