-- ==== Sys2Proof/Config.lean ====
section
/-! DEFINITION. What an implementation fixes: the constants and the OPEN parameters of 00_scope.md R9
(92_eei_decisions.md, "Open parameters in one place"), and the external HMAC core. -/

namespace Sys2Proof.Config

/-! ## Values the source fixes (R9) -/

/-- `WORD_BITS`: significant bits of a storage word. -/
def wordBits : Nat := 15

/-- `WORD_BYTES`: bytes of a storage word. -/
def wordBytes : Nat := 2

/-- `N_MAX`: the largest field width of one read or write. -/
def nMax : Nat := 32

/-- `STX`, the frame start marker. -/
def stx : Byte := 0x02#8

/-- `ETX`, the frame end marker. -/
def etx : Byte := 0x03#8

/-- `ESC`, the inline escape. -/
def esc : Byte := 0x04#8

/-- `ESC_OFFSET`. -/
def escOffset : Byte := 0x40#8

/-- `CRC_SEED`. -/
def crcSeed : BitVec 16 := 0xFFFF#16

/-- The bytes of a frame's checksum: two storage words. -/
def cksBytes : Nat := 4

/-- `DIGEST_BYTES`. -/
def digestBytes : Nat := 32

/-- `TS_BYTES`. -/
def tsBytes : Nat := 8

/-- `MIN_PACKET`: digest and timestamp. -/
def minPacket : Nat := 40

/-! ## OPEN parameters (R9), plain data -/

/-- `STX_IN_FRAME`: a start marker inside an open frame (D15). -/
inductive StxInFrame where
  | restart
  | literal
deriving DecidableEq, Repr

/-- `ETX_IN_IDLE`: an end marker outside a frame (D16). -/
inductive EtxInIdle where
  | passthrough
  | drop
deriving DecidableEq, Repr

/-- One entry of `SCHEMA`: a field's name, width and signedness (44_telemetry_delta.md R216). -/
structure Field where
  name   : String
  width  : Nat
  signed : Bool
deriving DecidableEq, Repr

/-- The seven names `FT_CODE` numbers: the six frame types and the invalid marker (30_encoding.md R99, R111). -/
inductive FrameType where
  | data
  | event
  | reply
  | tcode
  | obd
  | ptmsg
  | invalid
deriving DecidableEq, Repr

/-- `FT_CODE`: the 3-bit code of each name (D28). -/
structure FtCode where
  data    : BitVec 3
  event   : BitVec 3
  reply   : BitVec 3
  tcode   : BitVec 3
  obd     : BitVec 3
  ptmsg   : BitVec 3
  invalid : BitVec 3
deriving DecidableEq, Repr

/-- The OPEN parameters of R9 but for `HMAC`. `none` as a capacity is "unbounded".
`escOverrides` holds `ESC_DECODE` as data: the operands at which it differs from `(b - 64) mod 256` with
their values (assumption log 3). -/
structure Params where
  hasTd        : Bool
  hasRawMode   : Bool
  escOverrides : List (Byte × Byte)
  stxInFrame   : StxInFrame
  etxInIdle    : EtxInIdle
  frameMax     : Option Nat
  wbufMax      : Option Nat
  rwCap        : Option Nat
  pktMax       : Option Nat
  nAuth        : Nat
  schema       : List Field
  ftCode       : FtCode
deriving DecidableEq, Repr

/-- The example schema of 95_test_vectors.md, built from the only two fields the source names (D27). It is not
the real schema. DESIGN CHOICE (assumption log 2). -/
def exampleSchema : List Field :=
  [{ name := "hv_amps", width := 16, signed := true }, { name := "gear", width := 3, signed := false }]

/-- The example type codes of D28. DESIGN CHOICE (assumption log 2). -/
def exampleFtCode : FtCode :=
  { invalid := 0#3, data := 1#3, event := 2#3, reply := 3#3, tcode := 4#3, obd := 5#3, ptmsg := 6#3 }

/-- The defaults of R9 and of 92's table of open parameters. DESIGN CHOICE as the values at
`State.reset` (assumption log 1, log 2): no statement rests on them. -/
def Params.default : Params :=
  { hasTd := true, hasRawMode := true, escOverrides := [], stxInFrame := .restart,
    etxInIdle := .passthrough, frameMax := none, wbufMax := none, rwCap := none, pktMax := none,
    nAuth := 2, schema := exampleSchema, ftCode := exampleFtCode }

/-! ## The external core -/

/-- `HMAC(key, msg)`, the external HMAC-SHA256 core: some total function to 32 bytes, about which the block
assumes only that equal arguments give equal results (45_auth_transport.md R241, D23; assumption log 4). -/
opaque hmac : List Byte → List Byte → Vector Byte 32

end Sys2Proof.Config
end

