-- ==== Sys2Proof/Machine/State.lean ====
section
/-! DEFINITION. The state of the link codec block (10_state.md R20), the results and errors of its operations
(60_exceptions.md R271), and the state after reset (70_reset_and_hazards.md R301). -/

namespace Sys2Proof.Machine

/-! ## Unit RX (R21 to R23) -/

/-- `rx.state`; its codes are IDLE 0, FRAME 1, FRAME_ESC 2 (R20). -/
inductive RxState where
  /-- Outside any frame. -/
  | idle
  /-- A start marker has been seen and no end marker yet. -/
  | frame
  /-- Inside a frame, the previous byte was `ESC`. -/
  | frameEsc
deriving DecidableEq, Repr

/-- `rx.*`. -/
structure RxUnit where
  /-- `rx.state`. -/
  state : RxState
  /-- `rx.fbuf`, the literal bytes of the frame being received. -/
  fbuf  : List Byte
  /-- `rx.ovf`. -/
  ovf   : Bool
deriving DecidableEq, Repr

/-! ## Unit BC (R25 to R28) -/

/-- `rc.mode` (R27); PACKED 0, RAW 1. -/
inductive RcMode where
  | packed
  | raw
deriving DecidableEq, Repr

/-- `rc.*`, the read cursor and its buffers. -/
structure ReadCursor where
  /-- `rc.mode`. -/
  mode : RcMode
  /-- `rc.buf`. -/
  buf  : List Byte
  /-- `rc.w`, the word index. -/
  w    : Nat
  /-- `rc.o`, the bit offset, 0..14. -/
  o    : Fin 15
  /-- `rc.raw`. -/
  raw  : List Int
  /-- `rc.idx`. -/
  idx  : Nat
deriving DecidableEq, Repr

/-- `wc.*`, the write cursor and its buffer. -/
structure WriteCursor where
  /-- `wc.words`. -/
  words : List Word15
  /-- `wc.w`. -/
  w     : Nat
  /-- `wc.o`, 0..14. -/
  o     : Fin 15
deriving DecidableEq, Repr

/-! ## Unit TD (R33 to R36) -/

/-- A telemetry snapshot: one integer per field of `SCHEMA`, in its order (R33). -/
abbrev Snapshot := List Int

/-- `td.*`. -/
structure TdUnit where
  /-- `td.rx_prev`. -/
  rxPrev : Snapshot
  /-- `td.rx_seq`. -/
  rxSeq  : BitVec 4
  /-- `td.tx_prev`. -/
  txPrev : Snapshot
  /-- `td.tx_seq`. -/
  txSeq  : BitVec 4
deriving DecidableEq, Repr

/-! ## Results (00_scope.md R12, 60_exceptions.md R271) -/

/-- The errors of R271, with the values they carry. `schemaViolation` is returned by no operation (R276). -/
inductive LcbError where
  /-- Code 1; carries the frame's literal bytes, checksum bytes included. -/
  | frameChecksum (raw : List Byte)
  /-- Code 2; the expected and the received sequence number. -/
  | telemetryDesync (expected got : BitVec 4)
  /-- Code 3. -/
  | tooShort
  /-- Code 4. -/
  | badSignature
  /-- Code 5. -/
  | tooOld (ts : Stamp)
  /-- Code 6. -/
  | tooNew (ts : Stamp)
  /-- Code 7. -/
  | replayed (ts : Stamp)
  /-- Code 8; configuration time only. -/
  | schemaViolation
  /-- Code 9. -/
  | windowFull
  /-- Code 10: the operation or an operand has no meaning; no state changed (R279). -/
  | illegalOperand
deriving DecidableEq, Repr

/-- A frame event of RX (42_frame_rx.md R171). -/
inductive RxEvent where
  /-- A good frame: its content. -/
  | frame (content : List Byte)
  /-- `FrameChecksumError`: the literal bytes. -/
  | ckErr (raw : List Byte)
deriving DecidableEq, Repr

/-- `event` of `RX.FEED` (42_frame_rx.md R182). -/
inductive FeedEvent where
  | none
  | frame
  | ckErr
deriving DecidableEq, Repr

/-- The result of one operation (00_scope.md R8, R12; 30_encoding.md R108). -/
inductive Result where
  /-- Normal completion with no value. -/
  | ok
  /-- `BC.RD`. -/
  | unsigned (v : Nat)
  /-- `BC.RDS`. -/
  | signed (v : Int)
  /-- `CRC.GET`. -/
  | crc (c : BitVec 16)
  /-- `BC.WTAKE`, `TX.FRAME`, `AT.BUILD`. -/
  | bytes (bs : List Byte)
  /-- `RX.BYTE`, and one wire byte of the serial input. -/
  | rxByte (pt : Option Byte) (ev : Option RxEvent)
  /-- `RX.FEED`, and an escape pair of the serial input. -/
  | rxFeed (event : FeedEvent) (consumed : Nat) (passthrough data : List Byte)
  /-- `TD.DEC`. -/
  | snapshot (new : Snapshot) (consumedFull : Bool)
  /-- `AT.VERIFY`. -/
  | verified (ts : Stamp) (payload : List Byte)
  /-- An error result. -/
  | error (e : LcbError)
deriving DecidableEq, Repr

/-! ## The host's side: the model's own (assumption log 5, 7) -/

/-- The data ports that carry the operands of a command (30_encoding.md R107, R108). -/
structure Ports where
  /-- `bytes` of `BC.LOAD`, `RX.FEED`. -/
  bytes    : List Byte
  /-- `list` of `BC.LOADRAW`. -/
  list     : List Int
  /-- `value` of `BC.WR`. -/
  value    : Int
  /-- `payload` of `TX.FRAME`, `AT.BUILD`. -/
  payload  : List Byte
  /-- `snapshot` of `TD.ENC`. -/
  snapshot : Snapshot
  /-- `key` of `AT.*`. -/
  key      : List Byte
  /-- `window_ms` of `AT.VERIFY`. -/
  windowMs : Nat
  /-- `packet` of `AT.VERIFY`. -/
  packet   : List Byte
  /-- `now_ms` of `AT.BUILD`, `AT.VERIFY`. -/
  nowMs    : Nat
deriving DecidableEq, Repr

/-- Ports that carry nothing. DESIGN CHOICE as the value at reset (assumption log 7). -/
def Ports.empty : Ports :=
  { bytes := [], list := [], value := 0, payload := [], snapshot := [], key := [], windowMs := 0,
    packet := [], nowMs := 0 }

/-- What waits at the block's inputs: a command word with its operands, or serial bytes in arrival order. -/
inductive Input where
  | cmd (word : CmdWord) (ports : Ports)
  | wire (bytes : List Byte)
deriving DecidableEq, Repr

/-! ## The whole state -/

/-- The state of LCB: the elements of R20, then the model's own fields. -/
structure State where
  /-- `rx.*`. -/
  rx     : RxUnit
  /-- `crc.acc` (R24). -/
  crcAcc : BitVec 16
  /-- `rc.*`. -/
  rc     : ReadCursor
  /-- `wc.*`. -/
  wc     : WriteCursor
  /-- `at[i].win` for each instance `i`, ascending (R30). -/
  win    : List (List Stamp)
  /-- `td.*`; never touched without `HAS_TD` (assumption log 12). -/
  td     : TdUnit
  /-- The model's own: the OPEN parameters, which no step changes (assumption log 1). -/
  cfg    : Config.Params
  /-- The model's own: what the host has handed over and the block has not taken yet (assumption log 5). -/
  inputs : List Input
  /-- The model's own: the operands of the current command (assumption log 7). -/
  ports  : Ports
  /-- The model's own: the result of the last operation (assumption log 8). -/
  res    : Result
deriving DecidableEq, Repr

/-- Reset of RX (R301). -/
def RxUnit.reset : RxUnit := { state := .idle, fbuf := [], ovf := false }

/-- Reset of the read cursor (R301). -/
def ReadCursor.reset : ReadCursor :=
  { mode := .packed, buf := [], w := 0, o := 0, raw := [], idx := 0 }

/-- Reset of the write cursor (R301). -/
def WriteCursor.reset : WriteCursor := { words := [], w := 0, o := 0 }

/-- The snapshot with every field 0 (R301). -/
def zeroSnapshot (schema : List Config.Field) : Snapshot := schema.map fun _ => 0

/-- Reset of TD (R301). -/
def TdUnit.reset (schema : List Config.Field) : TdUnit :=
  { rxPrev := zeroSnapshot schema, rxSeq := 0#4, txPrev := zeroSnapshot schema, txSeq := 0#4 }

/-- The block after reset under given parameters (R301); nothing waits at its inputs (assumption log 5, 7, 8). -/
def State.resetWith (p : Config.Params) : State :=
  { rx := .reset, crcAcc := Config.crcSeed, rc := .reset, wc := .reset,
    win := List.replicate p.nAuth [], td := .reset p.schema, cfg := p, inputs := [],
    ports := .empty, res := .ok }

/-- The machine right after reset, under the default parameters (R301, R9; assumption log 1, 2). -/
def State.reset : State := State.resetWith Config.Params.default

/-! ## Stops -/

/-- The one condition the source reserves "process-fatal signaling" for (60_exceptions.md R272). -/
inductive Fault where
  /-- `SCHEMA` breaks its constraints (R225, R276). Raised by `configure` when the block is configured, by no
  step. Safe: the spec says the same. -/
  | schemaViolation
deriving DecidableEq, Repr

/-- What the model gives no meaning. -/
inductive Refusal where
  /-- An instruction without a meaning yet. Raised by no arm of `exec`. Safe. -/
  | notModelled (mnemonic : String)
  /-- A parameter outside its legal values (92_eei_decisions.md, table of open parameters). Raised by
  `configure`, by no step. Safe. -/
  | illegalParameter
deriving DecidableEq, Repr

end Sys2Proof.Machine
end

