-- ==== Sys2Proof/Machine/Operands.lean ====
section
/-! DEFINITION. Operand forms: what an operand's legal values are, and how the OPEN parameters are consulted
(00_scope.md R9, R11; 30_encoding.md R107, R110; 92_eei_decisions.md, table of open parameters). -/

namespace Sys2Proof.Machine

open Sys2Proof.Config (Params Field)

/-! ## Integers and bit patterns (R11) -/

/-- `trunc_N(x) = x mod 2^N`, the N-bit two's-complement pattern of any integer. -/
def trunc (n : Nat) (x : Int) : Nat := (x % 2 ^ n).toNat

/-- `sext_N(v)`: `v - 2^N` if bit N-1 is set, else `v`. -/
def sext (n v : Nat) : Int := if v.testBit (n - 1) then (v : Int) - 2 ^ n else v

/-- `be64(x)`: eight bytes, most significant first (30_encoding.md R103). -/
def be64 (x : Nat) : List Byte :=
  [BitVec.ofNat 8 (x >>> 56), BitVec.ofNat 8 (x >>> 48), BitVec.ofNat 8 (x >>> 40), BitVec.ofNat 8 (x >>> 32),
   BitVec.ofNat 8 (x >>> 24), BitVec.ofNat 8 (x >>> 16), BitVec.ofNat 8 (x >>> 8), BitVec.ofNat 8 x]

/-- `from_be64(b)`: the value of a byte sequence, most significant byte first (30_encoding.md R103). -/
def fromBe64 (b : List Byte) : Nat := b.foldl (fun acc x => acc * 256 + x.toNat) 0

/-! ## Legal operands -/

/-- The width `n` of `BC.RD`, `BC.RDS`, `BC.WR` is legal: 1 to 32 (40_bitcodec.md R133, D7). -/
def widthLegal (n : BitVec 6) : Bool := decide (1 ≤ n.toNat) && decide (n.toNat ≤ Config.nMax)

/-- The instance index names an instance (30_encoding.md R110). -/
def instanceLegal (p : Params) (i : Byte) : Bool := decide (i.toNat < p.nAuth)

/-- A size is within a capacity; `none` is unbounded (R9). -/
def withinCap (cap : Option Nat) (n : Nat) : Bool :=
  match cap with
  | none => true
  | some m => decide (n ≤ m)

/-- A field's value lies in the range of its width and signedness (10_state.md R33). -/
def fieldInRange (f : Field) (x : Int) : Bool :=
  if f.signed then decide (-(2 ^ (f.width - 1)) ≤ x) && decide (x < 2 ^ (f.width - 1))
  else decide (0 ≤ x) && decide (x < 2 ^ f.width)

/-- A snapshot of the schema: as many integers as fields, each in range (10_state.md R33; assumption log 13). -/
def snapshotLegal : List Field → Snapshot → Bool
  | [], [] => true
  | f :: fs, x :: xs => fieldInRange f x && snapshotLegal fs xs
  | _, _ => false

/-! ## Parameters -/

/-- `ESC_DECODE(e)`: `(e - 64) mod 256` but where the parameter says otherwise (42_frame_rx.md R178, D14;
assumption log 3). -/
def escDecode (p : Params) (e : Byte) : Byte :=
  (p.escOverrides.lookup e).getD (e - Config.escOffset)

/-- The code of a frame type (30_encoding.md R99, R111). -/
def ftCode (p : Params) : Config.FrameType → BitVec 3
  | .data => p.ftCode.data
  | .event => p.ftCode.event
  | .reply => p.ftCode.reply
  | .tcode => p.ftCode.tcode
  | .obd => p.ftCode.obd
  | .ptmsg => p.ftCode.ptmsg
  | .invalid => p.ftCode.invalid

/-- `SCHEMA` keeps its constraints: widths 1..32, names distinct (44_telemetry_delta.md R216, D27). -/
def schemaOk (schema : List Field) : Bool :=
  (schema.all fun f => decide (1 ≤ f.width) && decide (f.width ≤ 32)) &&
    decide ((schema.map fun f => f.name).Nodup)

/-- A finite capacity is at least `lo`. -/
def capAtLeast (lo : Nat) : Option Nat → Bool
  | none => true
  | some m => decide (lo ≤ m)

/-- `ESC_DECODE(v + 64) = v` for v in 0..4 (D14). -/
def escDecodeOk (p : Params) : Bool :=
  (List.range 5).all fun v => escDecode p (BitVec.ofNat 8 (v + 64)) == BitVec.ofNat 8 v

/-- `FT_CODE` is injective (D28). -/
def ftCodeOk (p : Params) : Bool :=
  decide ([p.ftCode.data, p.ftCode.event, p.ftCode.reply, p.ftCode.tcode, p.ftCode.obd, p.ftCode.ptmsg,
    p.ftCode.invalid].Nodup)

/-- The parameters other than `SCHEMA` have legal values (92_eei_decisions.md, table of open parameters). -/
def paramsLegal (p : Params) : Bool :=
  escDecodeOk p && capAtLeast 4 p.frameMax && capAtLeast 1 p.rwCap && decide (1 ≤ p.nAuth) &&
    ftCodeOk p && capAtLeast 40 p.pktMax

/-- Every parameter has a legal value. -/
def paramsOk (p : Params) : Bool := paramsLegal p && schemaOk p.schema

/-- Configuring the block: with an ill-formed `SCHEMA` the block refuses to exist (44_telemetry_delta.md R225, D27),
else it starts in its reset state (assumption log 15). -/
def configure (p : Params) : Host.Outcome State Fault Refusal :=
  if !schemaOk p.schema then .fault .schemaViolation
  else if !paramsLegal p then .refused .illegalParameter
  else .next (State.resetWith p)

end Sys2Proof.Machine
end

