-- ==== Sys2Proof/Machine/Ops.lean ====
section
/-! DEFINITION. The operations every unit shares: updating one unit, ending an operation (normally, with an error,
with a refusal), and the accesses to the private buffers (20_memory.md). -/

namespace Sys2Proof.Machine

open Sys2Proof.Config (Params)

/-- What a meaning answers. -/
abbrev Answer := Host.Outcome State Fault Refusal

/-! ## Updates of one unit -/

def State.setRx (s : State) (rx : RxUnit) : State := { s with rx := rx }
def State.setCrc (s : State) (c : BitVec 16) : State := { s with crcAcc := c }
def State.setRc (s : State) (rc : ReadCursor) : State := { s with rc := rc }
def State.setWc (s : State) (wc : WriteCursor) : State := { s with wc := wc }
def State.setTd (s : State) (td : TdUnit) : State := { s with td := td }
def State.setRes (s : State) (r : Result) : State := { s with res := r }
def State.setInputs (s : State) (q : List Input) : State := { s with inputs := q }
def State.setPorts (s : State) (p : Ports) : State := { s with ports := p }

/-- The replay window of instance `i` (10_state.md R30). -/
def State.winOf (s : State) (i : Nat) : List Stamp := s.win.getD i []

/-- Writing the replay window of instance `i`. -/
def State.setWin (s : State) (i : Nat) (w : List Stamp) : State := { s with win := s.win.set i w }

/-! ## Ending an operation (60_exceptions.md R272, R281)

The block's counterpart of taking an exception is an error result: nothing is vectored or saved, no mode changes,
and the next operation simply starts from the state left. -/

/-- Normal completion with result `r`. -/
def State.answer (s : State) (r : Result) : Answer := .next (s.setRes r)

/-- The operation ends with error result `e`; the state is what the rule has made it at that point (R12 `raise`). -/
def State.raise (s : State) (e : LcbError) : Answer := s.answer (.error e)

/-- Refusal: `IllegalOperand`, no state change (R12 `refuse`, R279; assumption log 9). -/
def State.refuse (s : State) : Answer := s.raise .illegalOperand

/-! ## Read buffer (20_memory.md R61, R62, R66) -/

/-- `MemRead(rc.buf, i, 1)`: 0x00 past the end (R66). -/
def readByte (buf : List Byte) (i : Nat) : Byte := buf.getD i 0#8

/-- `Word(buf, w)`: two bytes, low byte first, masked to 15 bits (R61). -/
def readWord (buf : List Byte) (w : Nat) : Word15 :=
  ((readByte buf (2 * w)).setWidth 16 ||| ((readByte buf (2 * w + 1)).setWidth 16 <<< 8)).setWidth 15

/-- The loop of `BC.RD n` (40_bitcodec.md R133): `got` bits of `v` are done, the cursor is at `(w, o)`. Every round
takes at least one bit, so `n` rounds suffice. -/
def rdLoop (buf : List Byte) (n : Nat) : (rounds got v w : Nat) → Fin 15 → Nat × Nat × Fin 15
  | 0, _, v, w, o => (v, w, o)
  | rounds + 1, got, v, w, o =>
    if got < n then
      let take := min (15 - o.val) (n - got)
      let v' := v ||| ((((readWord buf w).toNat >>> o.val) &&& (2 ^ take - 1)) <<< got)
      if h : o.val + take < 15 then rdLoop buf n rounds (got + take) v' w ⟨o.val + take, h⟩
      else rdLoop buf n rounds (got + take) v' (w + 1) 0
    else (v, w, o)

/-- `BC.RD n` in mode `PACKED` (40_bitcodec.md R133). -/
def ReadCursor.readPacked (rc : ReadCursor) (n : Nat) : Nat × ReadCursor :=
  let r := rdLoop rc.buf n n 0 0 rc.w rc.o
  (r.1, { rc with w := r.2.1, o := r.2.2 })

/-- `BC.RD n` in mode `RAW` (40_bitcodec.md R135). An element that does not fit `n` bits is reduced modulo `2^n`, as
R135 and D9 (92_eei_decisions.md) say; U16 (93_implementation_defined.md) has it returned as supplied. DEDUCED,
unsafe for such elements (log 24). -/
def ReadCursor.readRaw (rc : ReadCursor) (n : Nat) : Nat × ReadCursor :=
  (trunc n (rc.raw.getD rc.idx 0), { rc with idx := rc.idx + 1 })

/-- An unsigned read of `n` bits at the cursor, in whichever mode `rc.mode` selects. -/
def ReadCursor.read (rc : ReadCursor) (n : Nat) : Nat × ReadCursor :=
  match rc.mode with
  | .packed => rc.readPacked n
  | .raw => rc.readRaw n

/-- A signed read of `n` bits at the cursor (40_bitcodec.md R134). -/
def ReadCursor.readSigned (rc : ReadCursor) (n : Nat) : Int × ReadCursor :=
  let r := rc.read n
  (sext n r.1, r.2)

/-! ## Write buffer (20_memory.md R70) -/

/-- ORing bits into word `w` of the write buffer, creating it with value 0 if it is the next one
(40_bitcodec.md R137). -/
def orWord (words : List Word15) (w : Nat) (bits : Word15) : List Word15 :=
  (if w = words.length then words ++ [0#15] else words).modify w (· ||| bits)

/-- The loop of `BC.WR n value` (40_bitcodec.md R137): `put` bits of `v` are written. Every round writes at least one
bit, so `n` rounds suffice. -/
def wrLoop (n v : Nat) : (rounds put : Nat) → WriteCursor → WriteCursor
  | 0, _, wc => wc
  | rounds + 1, put, wc =>
    if put < n then
      let take := min (15 - wc.o.val) (n - put)
      let words := orWord wc.words wc.w (BitVec.ofNat 15 (((v >>> put) &&& (2 ^ take - 1)) <<< wc.o.val))
      if h : wc.o.val + take < 15 then wrLoop n v rounds (put + take) ⟨words, wc.w, ⟨wc.o.val + take, h⟩⟩
      else wrLoop n v rounds (put + take) ⟨words, wc.w + 1, 0⟩
    else wc

/-- Writing the low `n` bits of `value` at the write cursor (40_bitcodec.md R137). -/
def WriteCursor.write (wc : WriteCursor) (n : Nat) (value : Int) : WriteCursor :=
  wrLoop n (trunc n value) n 0 wc

/-- Writing fields one after the other. -/
def WriteCursor.writeAll (wc : WriteCursor) (fields : List (Nat × Int)) : WriteCursor :=
  fields.foldl (fun c f => c.write f.1 f.2) wc

/-- Bits already written. -/
def WriteCursor.bitPos (wc : WriteCursor) : Nat := 15 * wc.w + wc.o.val

/-- Writing `bits` more bits leaves the buffer within `WBUF_MAX` words (40_bitcodec.md R137; assumption log 19). -/
def WriteCursor.roomFor (p : Params) (wc : WriteCursor) (bits : Nat) : Bool :=
  withinCap p.wbufMax ((wc.bitPos + bits + 14) / 15)

/-- The two bytes of a storage word: `W & 0xFF`, `(W >> 8) & 0x7F` (20_memory.md R70, 30_encoding.md R92). -/
def wordBytesOf (w : Word15) : List Byte := [w.setWidth 8, (w >>> 8).setWidth 8]

/-- The byte image of the write buffer (20_memory.md R70). -/
def WriteCursor.image (wc : WriteCursor) : List Byte := wc.words.flatMap wordBytesOf

/-! ## Replay window (20_memory.md R72) -/

/-- Removing the longest prefix of entries below `bound`. -/
def pruneBelow (bound : Int) (w : List Stamp) : List Stamp :=
  w.dropWhile fun e => decide ((e.toNat : Int) < bound)

/-- Sorted insertion of a value not already present. -/
def insertSorted (ts : Stamp) : List Stamp → List Stamp
  | [] => [ts]
  | e :: w => if e.toNat < ts.toNat then e :: insertSorted ts w else ts :: e :: w

/-- The window is strictly ascending (45_auth_transport.md R251): the canonical form of a sorted set. -/
def ascending (w : List Stamp) : Bool := decide (w.Pairwise fun a b => a.toNat < b.toNat)

end Sys2Proof.Machine
end

