-- ==== Sys2Proof/Machine/At.lean ====
section
/-! DEFINITION. Unit AT, authenticated transport (45_auth_transport.md). -/

namespace Sys2Proof.Machine

/-- The packet `HMAC(key, ts || payload) || ts || payload` (R242, 30_encoding.md R102). -/
def packetOf (key payload : List Byte) (nowMs : Nat) : List Byte :=
  let msg := be64 nowMs ++ payload
  (Config.hmac key msg).toList ++ msg

/-- `AT.BUILD i key payload now_ms` (R242). -/
def execAtBuild (i : Byte) (s : State) : Answer :=
  if !instanceLegal s.cfg i || decide (2 ^ 64 ≤ s.ports.nowMs) ||
      !withinCap s.cfg.pktMax (Config.minPacket + s.ports.payload.length) then s.refuse
  else s.answer (.bytes (packetOf s.ports.key s.ports.payload s.ports.nowMs))

/-- The timestamp of a packet, bytes 32..39 (30_encoding.md R102). -/
def stampOf (packet : List Byte) : Stamp :=
  BitVec.ofNat 64 (fromBe64 ((packet.drop Config.digestBytes).take Config.tsBytes))

/-- `equal_ct(HMAC(key, packet[32:]), packet[0:32])` (R243 step 2, R245). -/
def signatureOk (key packet : List Byte) : Bool :=
  (Config.hmac key (packet.drop Config.digestBytes)).toList == packet.take Config.digestBytes

/-- `AT.VERIFY i key window_ms packet now_ms` (R243). The comparisons of times are in unbounded integers. -/
def execAtVerify (i : Byte) (s : State) : Answer :=
  let packet := s.ports.packet
  let lo : Int := (s.ports.nowMs : Int) - s.ports.windowMs
  let hi : Int := (s.ports.nowMs : Int) + s.ports.windowMs
  let ts := stampOf packet
  let win := s.winOf i.toNat
  let pruned := pruneBelow lo win
  if !instanceLegal s.cfg i || !withinCap s.cfg.pktMax packet.length then s.refuse
  else if packet.length < Config.minPacket then s.raise .tooShort
  else if !signatureOk s.ports.key packet then s.raise .badSignature
  else if (ts.toNat : Int) < lo then s.raise (.tooOld ts)
  else if hi < (ts.toNat : Int) then s.raise (.tooNew ts)
  else if ts ∈ win then s.raise (.replayed ts)
  else if !withinCap s.cfg.rwCap (pruned.length + 1) then s.raise .windowFull
  else
    (s.setWin i.toNat (insertSorted ts pruned)).answer
      (.verified ts (packet.drop Config.minPacket))

/-- `AT.RST i` (R253). -/
def execAtRst (i : Byte) (s : State) : Answer :=
  if !instanceLegal s.cfg i then s.refuse else (s.setWin i.toNat []).answer .ok

end Sys2Proof.Machine
end

