-- ==== Sys2Proof/Machine/Bc.lean ====
section
/-! DEFINITION. Unit BC, the bit codec (40_bitcodec.md). -/

namespace Sys2Proof.Machine

/-- `BC.LOAD bytes` (R131). -/
def execBcLoad (s : State) : Answer :=
  (s.setRc { s.rc with buf := s.ports.bytes, mode := .packed, w := 0, o := 0 }).answer .ok

/-- `BC.LOADRAW list` (R132). -/
def execBcLoadraw (s : State) : Answer :=
  if !s.cfg.hasRawMode then s.refuse
  else (s.setRc { s.rc with raw := s.ports.list, idx := 0, mode := .raw }).answer .ok

/-- `BC.RD n` (R133, R135). -/
def execBcRd (n : BitVec 6) (s : State) : Answer :=
  if !widthLegal n then s.refuse
  else
    let r := s.rc.read n.toNat
    (s.setRc r.2).answer (.unsigned r.1)

/-- `BC.RDS n` (R134, R135). -/
def execBcRds (n : BitVec 6) (s : State) : Answer :=
  if !widthLegal n then s.refuse
  else
    let r := s.rc.readSigned n.toNat
    (s.setRc r.2).answer (.signed r.1)

/-- `BC.WINIT` (R136). -/
def execBcWinit (s : State) : Answer := (s.setWc { words := [], w := 0, o := 0 }).answer .ok

/-- `BC.WR n value` (R137). -/
def execBcWr (n : BitVec 6) (s : State) : Answer :=
  if !widthLegal n then s.refuse
  else if !s.wc.roomFor s.cfg n.toNat then s.refuse
  else (s.setWc (s.wc.write n.toNat s.ports.value)).answer .ok

/-- `BC.WTAKE` (R138). -/
def execBcWtake (s : State) : Answer := s.answer (.bytes s.wc.image)

end Sys2Proof.Machine
end

