-- ==== Sys2Proof/Syntax.lean ====
section
/-! DEFINITION. The instructions: one constructor per row of spec/opcode_table.json. Operands that travel on the
data ports (30_encoding.md R107) are no part of an instruction; they stand in the machine's State. -/

namespace Sys2Proof

/-- The operation set of LCB: the five wire-byte classes (30_encoding.md R91), the escape pairs (R94, R95) and
the command words (R108). -/
inductive Instr where
  /-- Wire byte 0x02. -/
  | stx
  /-- Wire byte 0x03. -/
  | etx
  /-- Wire byte 0x04, alone. -/
  | esc
  /-- Wire byte 0x00 or 0x01: `x` is its bit 0. -/
  | ctl (x : BitVec 1)
  /-- Any other wire byte, 0x05..0xFF. -/
  | lit (b : Byte)
  /-- Escape pair 04 40. -/
  | ep0
  /-- Escape pair 04 41. -/
  | ep1
  /-- Escape pair 04 42. -/
  | ep2
  /-- Escape pair 04 43. -/
  | ep3
  /-- Escape pair 04 44. -/
  | ep4
  /-- Escape pair 04 `e` with `e` outside 0x40..0x44. -/
  | epx (e : Byte)
  /-- `BC.LOAD bytes` (R131). -/
  | bcLoad
  /-- `BC.LOADRAW list` (R132). -/
  | bcLoadraw
  /-- `BC.RD n` (R133, R135). -/
  | bcRd (n : BitVec 6)
  /-- `BC.RDS n` (R134, R135). -/
  | bcRds (n : BitVec 6)
  /-- `BC.WINIT` (R136). -/
  | bcWinit
  /-- `BC.WR n value` (R137). -/
  | bcWr (n : BitVec 6)
  /-- `BC.WTAKE` (R138). -/
  | bcWtake
  /-- `CRC.INIT` (R160). -/
  | crcInit
  /-- `CRC.UPD b` (R161). -/
  | crcUpd (b : Byte)
  /-- `CRC.GET` (R163). -/
  | crcGet
  /-- `RX.BYTE b` (R171). -/
  | rxByte (b : Byte)
  /-- `RX.FEED bytes` (R182). -/
  | rxFeed
  /-- `RX.RST` (R185). -/
  | rxRst
  /-- `TX.FRAME payload` (R203). -/
  | txFrame
  /-- `TD.DEC` (R217). -/
  | tdDec
  /-- `TD.ENC full snapshot` (R223). -/
  | tdEnc (full : Bool)
  /-- `TD.RST` (R226). -/
  | tdRst
  /-- `AT.BUILD i key payload now_ms` (R242). -/
  | atBuild (i : Byte)
  /-- `AT.VERIFY i key window_ms packet now_ms` (R243). -/
  | atVerify (i : Byte)
  /-- `AT.RST i` (R253). -/
  | atRst (i : Byte)
  /-- `SYS.RST` (R300). -/
  | sysRst
deriving DecidableEq, Repr

/-- What an instruction is fetched from: serial bytes (format `WB`, `EP`) or a command word (format `CMD`)
(30_encoding.md R90, R94, R107). -/
inductive Code where
  | wire (bytes : List Byte)
  | cmd (word : CmdWord)
deriving DecidableEq, Repr

end Sys2Proof
end

