-- ==== Sys2Proof/WellFormed.lean ====
section
/-! DEFINITION. Which terms of `Instr` have an encoding of their own row (30_encoding.md R91, R94, R95). The width
`n` of `BC.RD`, `BC.RDS`, `BC.WR` is encodable at every value of its 6 bits; the operation itself refuses 0 and
33..63 (40_bitcodec.md R133), so those are not ill-formed. -/

namespace Sys2Proof

/-- The bytes of class `LIT`: everything the classes `STX`, `ETX`, `ESC`, `CTL` do not match (R91). -/
def litByte (b : Byte) : Bool := decide (5 ≤ b.toNat)

/-- The operands of a canonical escape pair, 0x40..0x44 (R95). -/
def canonicalOperand (e : Byte) : Bool := decide (0x40 ≤ e.toNat) && decide (e.toNat ≤ 0x44)

/-- The term is the one its row's encoding stands for: `LIT` and `EPX` are the lower-priority rows and hold only
what the other rows leave. -/
def Instr.wellFormed : Instr → Bool
  | .lit b => litByte b
  | .epx e => !canonicalOperand e
  | .stx => true
  | .etx => true
  | .esc => true
  | .ctl _ => true
  | .ep0 => true
  | .ep1 => true
  | .ep2 => true
  | .ep3 => true
  | .ep4 => true
  | .bcLoad => true
  | .bcLoadraw => true
  | .bcRd _ => true
  | .bcRds _ => true
  | .bcWinit => true
  | .bcWr _ => true
  | .bcWtake => true
  | .crcInit => true
  | .crcUpd _ => true
  | .crcGet => true
  | .rxByte _ => true
  | .rxFeed => true
  | .rxRst => true
  | .txFrame => true
  | .tdDec => true
  | .tdEnc _ => true
  | .tdRst => true
  | .atBuild _ => true
  | .atVerify _ => true
  | .atRst _ => true
  | .sysRst => true

end Sys2Proof
end

