-- ==== Sys2Proof/Decode.lean ====
section
/-! DEFINITION. Reading an instruction from serial bytes or from a command word, and the encoder
(30_encoding.md R91, R94, R95, R107, R108, R110). -/

namespace Sys2Proof

/-- Why bits are no instruction (30_encoding.md R110). -/
inductive DecodeError where
  /-- The `opc` is not one of R108. -/
  | unknownOpcode
  /-- A must-be-zero bit of `arg` is set. -/
  | reservedArg
  /-- There is no serial byte to read. -/
  | noByte
deriving DecidableEq, Repr

/-! ## Serial bytes -/

/-- The five classes of wire bytes (30_encoding.md R91). -/
inductive WireClass where
  | stx
  | etx
  | esc
  | ctl
  | lit
deriving DecidableEq, Repr

/-- The class of a wire byte, by its value alone (30_encoding.md R91). -/
def wireClass (b : Byte) : WireClass :=
  if b = Config.stx then .stx
  else if b = Config.etx then .etx
  else if b = Config.esc then .esc
  else if b &&& 0xFE#8 = 0#8 then .ctl
  else .lit

/-- The instruction of one wire byte. -/
def classifyByte (b : Byte) : Instr :=
  match wireClass b with
  | .stx => .stx
  | .etx => .etx
  | .esc => .esc
  | .ctl => .ctl (b.setWidth 1)
  | .lit => .lit b

/-- The escape pair `ESC e` (30_encoding.md R94, R95). -/
def classifyPair (e : Byte) : Instr :=
  if e = 0x40#8 then .ep0
  else if e = 0x41#8 then .ep1
  else if e = 0x42#8 then .ep2
  else if e = 0x43#8 then .ep3
  else if e = 0x44#8 then .ep4
  else .epx e

/-- The next item of the serial input and what is left of it. Inside a frame `ESC` with a successor begins a
two-byte item, every other byte is a one-byte item; outside a frame every byte is a one-byte item
(30_encoding.md R94). -/
def decodeWire (inFrame : Bool) : List Byte → Option (Instr × List Byte)
  | [] => none
  | [b] => some (classifyByte b, [])
  | b :: e :: rest =>
    if inFrame && b == Config.esc then some (classifyPair e, rest)
    else some (classifyByte b, e :: rest)

/-! ## Command words -/

/-- `opc`, bits 15..8 (30_encoding.md R107). -/
def cmdOpc (w : CmdWord) : Byte := (w >>> 8).setWidth 8

/-- `arg`, bits 7..0 (30_encoding.md R107). -/
def cmdArg (w : CmdWord) : Byte := w.setWidth 8

/-- The operation takes no `arg`: it must be 0. -/
def noArg (arg : Byte) (i : Instr) : Except DecodeError Instr :=
  if arg = 0#8 then .ok i else .error .reservedArg

/-- `n` in `arg[5:0]`, `arg[7:6] = 0`. -/
def widthArg (arg : Byte) (f : BitVec 6 → Instr) : Except DecodeError Instr :=
  if arg >>> 6 = 0#8 then .ok (f (arg.setWidth 6)) else .error .reservedArg

/-- The `full` flag in `arg[0]`, `arg[7:1] = 0`. -/
def flagArg (arg : Byte) (f : Bool → Instr) : Except DecodeError Instr :=
  if arg >>> 1 = 0#8 then .ok (f (arg.getLsbD 0)) else .error .reservedArg

/-- The operation of a command word (30_encoding.md R108, R110). -/
def decodeCmd (w : CmdWord) : Except DecodeError Instr :=
  let arg := cmdArg w
  match (cmdOpc w).toNat with
  | 0x10 => noArg arg .bcLoad
  | 0x11 => noArg arg .bcLoadraw
  | 0x12 => widthArg arg .bcRd
  | 0x13 => widthArg arg .bcRds
  | 0x14 => noArg arg .bcWinit
  | 0x15 => widthArg arg .bcWr
  | 0x16 => noArg arg .bcWtake
  | 0x20 => noArg arg .crcInit
  | 0x21 => .ok (.crcUpd arg)
  | 0x22 => noArg arg .crcGet
  | 0x30 => .ok (.rxByte arg)
  | 0x31 => noArg arg .rxFeed
  | 0x32 => noArg arg .rxRst
  | 0x40 => noArg arg .txFrame
  | 0x50 => noArg arg .tdDec
  | 0x51 => flagArg arg .tdEnc
  | 0x52 => noArg arg .tdRst
  | 0x60 => .ok (.atBuild arg)
  | 0x61 => .ok (.atVerify arg)
  | 0x62 => .ok (.atRst arg)
  | 0xFF => noArg arg .sysRst
  | _ => .error .unknownOpcode

/-- Reading one instruction: what it is and the serial bytes left over. -/
def decode (inFrame : Bool) : Code → Except DecodeError (Instr × List Byte)
  | .wire bytes =>
    match decodeWire inFrame bytes with
    | some r => .ok r
    | none => .error .noByte
  | .cmd w =>
    match decodeCmd w with
    | .ok i => .ok (i, [])
    | .error e => .error e

/-! ## Encoder -/

/-- A command word from its two fields (30_encoding.md R107). -/
def cmdWord (opc arg : Byte) : CmdWord := (opc.setWidth 16 <<< 8) ||| arg.setWidth 16

/-- The code of an instruction (30_encoding.md R91, R95, R108). -/
def encode : Instr → Code
  | .stx => .wire [0x02#8]
  | .etx => .wire [0x03#8]
  | .esc => .wire [0x04#8]
  | .ctl x => .wire [x.setWidth 8]
  | .lit b => .wire [b]
  | .ep0 => .wire [0x04#8, 0x40#8]
  | .ep1 => .wire [0x04#8, 0x41#8]
  | .ep2 => .wire [0x04#8, 0x42#8]
  | .ep3 => .wire [0x04#8, 0x43#8]
  | .ep4 => .wire [0x04#8, 0x44#8]
  | .epx e => .wire [0x04#8, e]
  | .bcLoad => .cmd (cmdWord 0x10#8 0#8)
  | .bcLoadraw => .cmd (cmdWord 0x11#8 0#8)
  | .bcRd n => .cmd (cmdWord 0x12#8 (n.setWidth 8))
  | .bcRds n => .cmd (cmdWord 0x13#8 (n.setWidth 8))
  | .bcWinit => .cmd (cmdWord 0x14#8 0#8)
  | .bcWr n => .cmd (cmdWord 0x15#8 (n.setWidth 8))
  | .bcWtake => .cmd (cmdWord 0x16#8 0#8)
  | .crcInit => .cmd (cmdWord 0x20#8 0#8)
  | .crcUpd b => .cmd (cmdWord 0x21#8 b)
  | .crcGet => .cmd (cmdWord 0x22#8 0#8)
  | .rxByte b => .cmd (cmdWord 0x30#8 b)
  | .rxFeed => .cmd (cmdWord 0x31#8 0#8)
  | .rxRst => .cmd (cmdWord 0x32#8 0#8)
  | .txFrame => .cmd (cmdWord 0x40#8 0#8)
  | .tdDec => .cmd (cmdWord 0x50#8 0#8)
  | .tdEnc full => .cmd (cmdWord 0x51#8 (BitVec.ofBool full |>.setWidth 8))
  | .tdRst => .cmd (cmdWord 0x52#8 0#8)
  | .atBuild i => .cmd (cmdWord 0x60#8 i)
  | .atVerify i => .cmd (cmdWord 0x61#8 i)
  | .atRst i => .cmd (cmdWord 0x62#8 i)
  | .sysRst => .cmd (cmdWord 0xFF#8 0#8)

/-! ## Words as spec/opcode_table.json numbers them -/

/-- The code a table word stands for: 8-bit rows are one wire byte; of the 16-bit rows those with 0x04 in the upper
half are escape pairs, first wire byte in the upper half, and the others are command words (30_encoding.md,
opening). -/
def tableCode (nbits w : Nat) : Code :=
  if nbits ≤ 8 then .wire [BitVec.ofNat 8 w]
  else if (BitVec.ofNat 16 w) >>> 8 = 0x0004#16 then .wire [Config.esc, BitVec.ofNat 8 w]
  else .cmd (BitVec.ofNat 16 w)

/-- The instruction the decoder reads from a table word. Escape pairs are read inside a frame, where alone they
are recognised (30_encoding.md R94). -/
def decodeTableWord (nbits w : Nat) : Option Instr :=
  match decode true (tableCode nbits w) with
  | .ok (i, []) => some i
  | _ => none

end Sys2Proof
end

