-- ==== Sys2Proof/Machine/Crc.lean ====
section
/-! DEFINITION. Unit CRC (41_crc16.md). -/

namespace Sys2Proof.Machine

/-- The two lines for `x` of R161: 8 bits. -/
def crcMix (acc : BitVec 16) (b : Byte) : Byte :=
  let x := (acc >>> 8).setWidth 8 ^^^ b
  x ^^^ (x >>> 4)

/-- One step of the checksum (R161). -/
def crcStep (acc : BitVec 16) (b : Byte) : BitVec 16 :=
  let x := (crcMix acc b).setWidth 16
  (acc <<< 8) ^^^ (x <<< 12) ^^^ (x <<< 5) ^^^ x

/-- The pure function `crc16` (R162). -/
def crc16 (bytes : List Byte) : BitVec 16 := bytes.foldl crcStep Config.crcSeed

/-- `CRC.INIT` (R160). -/
def execCrcInit (s : State) : Answer := (s.setCrc Config.crcSeed).answer .ok

/-- `CRC.UPD b` (R161). -/
def execCrcUpd (b : Byte) (s : State) : Answer := (s.setCrc (crcStep s.crcAcc b)).answer .ok

/-- `CRC.GET` (R163). -/
def execCrcGet (s : State) : Answer := s.answer (.crc s.crcAcc)

end Sys2Proof.Machine
end

