-- ==== Sys2Proof/Machine/Rx.lean ====
section
/-! DEFINITION. Unit RX, the deframer (42_frame_rx.md): the wire-byte classes, the escape pairs, `RX.*`. -/

namespace Sys2Proof.Machine

open Sys2Proof.Config (Params)

/-! ## The byte step (R172) -/

/-- `append(x)` of R172. -/
def RxUnit.append (p : Params) (r : RxUnit) (x : Byte) : RxUnit :=
  if withinCap p.frameMax (r.fbuf.length + 1) then { r with fbuf := r.fbuf ++ [x] } else { r with ovf := true }

/-- `clear` of R172. -/
def RxUnit.clear (r : RxUnit) : RxUnit := { r with fbuf := [], ovf := false }

/-- `rx.state <- q`. -/
def RxUnit.goto (r : RxUnit) (q : RxState) : RxUnit := { r with state := q }

/-- The transmitted checksum in the last four literal bytes, 30 bits (R180). -/
def transmittedCks (f : List Byte) : Nat :=
  let cks := f.drop (f.length - Config.cksBytes)
  let a := (readWord cks 0).toNat
  let b := (readWord cks 1).toNat
  a ||| (b <<< 15)

/-- Validation at the closing `ETX` (R180). -/
def RxUnit.validate (r : RxUnit) : RxEvent :=
  if r.ovf || decide (r.fbuf.length < Config.cksBytes) then .ckErr r.fbuf
  else
    let content := r.fbuf.take (r.fbuf.length - Config.cksBytes)
    if transmittedCks r.fbuf = (crc16 content).toNat then .frame content else .ckErr r.fbuf

/-- The complete transition table of RX (R172): the next unit state, the passthrough byte, the frame event. -/
def rxTable (p : Params) (r : RxUnit) (c : WireClass) (b : Byte) : RxUnit × Option Byte × Option RxEvent :=
  match r.state with
  | .idle =>
    match c with
    | .stx => (r.clear.goto .frame, none, none)
    | .etx =>
      match p.etxInIdle with
      | .passthrough => (r, some b, none)
      | .drop => (r, none, none)
    | .esc => (r, some b, none)
    | .ctl => (r, some b, none)
    | .lit => (r, some b, none)
  | .frame =>
    match c with
    | .stx =>
      match p.stxInFrame with
      | .restart => (r.clear, none, none)
      | .literal => (r.append p b, none, none)
    | .etx => (r.clear.goto .idle, none, some r.validate)
    | .esc => (r.goto .frameEsc, none, none)
    | .ctl => (r.append p b, none, none)
    | .lit => (r.append p b, none, none)
  | .frameEsc => ((r.append p (escDecode p b)).goto .frame, none, none)

/-- `RX.BYTE b` on the unit (R171): classify, then act. -/
def rxByteStep (p : Params) (r : RxUnit) (b : Byte) : RxUnit × Option Byte × Option RxEvent :=
  rxTable p r (wireClass b) b

/-- `RX.FEED` on the unit (R182): `consumed` bytes are done, `pts` is the passthrough so far. -/
def feedLoop (p : Params) : RxUnit → List Byte → (consumed : Nat) → (pts : List Byte) → RxUnit × Result
  | r, [], consumed, pts => (r, .rxFeed .none consumed pts [])
  | r, b :: bs, consumed, pts =>
    let o := rxByteStep p r b
    let pts' := pts ++ o.2.1.toList
    match o.2.2 with
    | some (.frame c) => (o.1, .rxFeed .frame (consumed + 1) pts' c)
    | some (.ckErr raw) => (o.1, .rxFeed .ckErr (consumed + 1) pts' raw)
    | none => feedLoop p o.1 bs (consumed + 1) pts'

/-! ## Meanings -/

/-- One wire byte of a given class (R172). -/
def wireByte (c : WireClass) (b : Byte) (s : State) : Answer :=
  let o := rxTable s.cfg s.rx c b
  (s.setRx o.1).answer (.rxByte o.2.1 o.2.2)

/-- Two wire bytes `ESC e` taken as one item (30_encoding.md R94): what `RX.FEED` does with them
(assumption log 11). -/
def wirePair (e : Byte) (s : State) : Answer :=
  let o := feedLoop s.cfg s.rx [Config.esc, e] 0 []
  (s.setRx o.1).answer o.2

/-- Wire byte `STX` (R173, R176, R178). -/
def execStx (s : State) : Answer := wireByte .stx 0x02#8 s

/-- Wire byte `ETX` (R175, R178, R179, R180). -/
def execEtx (s : State) : Answer := wireByte .etx 0x03#8 s

/-- Wire byte `ESC` (R174, R178). -/
def execEsc (s : State) : Answer := wireByte .esc 0x04#8 s

/-- Wire byte of class `CTL`, 0x00 or 0x01 (R174, R177, R178). -/
def execCtl (x : BitVec 1) (s : State) : Answer := wireByte .ctl (x.setWidth 8) s

/-- Wire byte of class `LIT` (R174, R177, R178). -/
def execLit (b : Byte) (s : State) : Answer := wireByte .lit b s

/-- Escape pair 04 40 (30_encoding.md R95, R178). -/
def execEp0 (s : State) : Answer := wirePair 0x40#8 s

/-- Escape pair 04 41. -/
def execEp1 (s : State) : Answer := wirePair 0x41#8 s

/-- Escape pair 04 42. -/
def execEp2 (s : State) : Answer := wirePair 0x42#8 s

/-- Escape pair 04 43. -/
def execEp3 (s : State) : Answer := wirePair 0x43#8 s

/-- Escape pair 04 44. -/
def execEp4 (s : State) : Answer := wirePair 0x44#8 s

/-- A non-canonical escape pair 04 `e` (R178). -/
def execEpx (e : Byte) (s : State) : Answer := wirePair e s

/-- `RX.BYTE b` (R171). -/
def execRxByte (b : Byte) (s : State) : Answer := wireByte (wireClass b) b s

/-- `RX.FEED bytes` (R182). -/
def execRxFeed (s : State) : Answer :=
  let o := feedLoop s.cfg s.rx s.ports.bytes 0 []
  (s.setRx o.1).answer o.2

/-- `RX.RST` (R185). -/
def execRxRst (s : State) : Answer := (s.setRx { state := .idle, fbuf := [], ovf := false }).answer .ok

end Sys2Proof.Machine
end

