-- ==== Sys2Proof/Machine/Sys.lean ====
section
/-! DEFINITION. The reset operation (70_reset_and_hazards.md). -/

namespace Sys2Proof.Machine

/-- `SYS.RST` (R300, R301): every element of R20 to its reset value. The parameters are not state and stay, as does
what waits at the host's side (assumption log 17). -/
def execSysRst (s : State) : Answer :=
  .next { State.resetWith s.cfg with inputs := s.inputs, ports := s.ports, res := .ok }

end Sys2Proof.Machine
end

