-- ==== Sys2Proof/Machine/Td.lean ====
section
/-! DEFINITION. Unit TD, the telemetry delta codec (44_telemetry_delta.md). -/

namespace Sys2Proof.Machine

open Sys2Proof.Config (Params Field)

/-- A field's value at the cursor: `rds(width)` if signed, else `rd(width)` (R217). -/
def readValue (f : Field) (rc : ReadCursor) : Int × ReadCursor :=
  if f.signed then rc.readSigned f.width
  else
    let r := rc.read f.width
    ((r.1 : Int), r.2)

/-- The field loop of `TD.DEC` (R217): with `full` every field is read, else a presence bit decides between reading
it and carrying the previous value forward. -/
def decodeFields (full : Bool) : List Field → Snapshot → ReadCursor → Snapshot × ReadCursor
  | [], _, rc => ([], rc)
  | f :: fs, prev, rc =>
    let present := if full then (1, rc) else rc.read 1
    let v := if present.1 = 1 then readValue f present.2 else (prev.headD 0, present.2)
    let rest := decodeFields full fs prev.tail v.2
    (v.1 :: rest.1, rest.2)

/-- `TD.DEC` (R217 to R221). -/
def execTdDec (s : State) : Answer :=
  if !s.cfg.hasTd then s.refuse
  else
    let full := s.rc.read 1
    if full.1 = 0 then
      let seq := full.2.read 4
      if seq.1 ≠ s.td.rxSeq.toNat then
        (s.setRc seq.2).raise (.telemetryDesync s.td.rxSeq (BitVec.ofNat 4 seq.1))
      else
        let new := decodeFields false s.cfg.schema s.td.rxPrev seq.2
        ((s.setRc new.2).setTd { s.td with rxSeq := s.td.rxSeq + 1#4, rxPrev := new.1 }).answer
          (.snapshot new.1 false)
    else
      let new := decodeFields true s.cfg.schema s.td.rxPrev full.2
      ((s.setRc new.2).setTd { s.td with rxSeq := 0#4, rxPrev := new.1 }).answer (.snapshot new.1 true)

/-- The fields a full encode writes after its flag: every value (R223). -/
def fullFields : List Field → Snapshot → List (Nat × Int)
  | f :: fs, x :: xs => (f.width, x) :: fullFields fs xs
  | _, _ => []

/-- The fields an incremental encode writes after flag and sequence number: a presence bit each, and the value
where it changed (R223). -/
def deltaFields : List Field → Snapshot → Snapshot → List (Nat × Int)
  | f :: fs, x :: xs, prev =>
    (if x ≠ prev.headD 0 then [(1, 1), (f.width, x)] else [(1, 0)]) ++ deltaFields fs xs prev.tail
  | _, _, _ => []

/-- Everything `TD.ENC full snapshot` writes, in order (R223, format `DP` of 30_encoding.md R101). -/
def payloadFields (full : Bool) (schema : List Field) (new prev : Snapshot) (seq : BitVec 4) : List (Nat × Int) :=
  if full then (1, 1) :: fullFields schema new
  else (1, 0) :: (4, (seq.toNat : Int)) :: deltaFields schema new prev

/-- The number of bits fields take. -/
def bitsOf (fields : List (Nat × Int)) : Nat := (fields.map fun f => f.1).sum

/-- `TD.ENC full snapshot` (R223). -/
def execTdEnc (full : Bool) (s : State) : Answer :=
  let fields := payloadFields full s.cfg.schema s.ports.snapshot s.td.txPrev s.td.txSeq
  if !s.cfg.hasTd then s.refuse
  else if !snapshotLegal s.cfg.schema s.ports.snapshot then s.refuse
  else if !s.wc.roomFor s.cfg (bitsOf fields) then s.refuse
  else
    ((s.setWc (s.wc.writeAll fields)).setTd
      { s.td with txSeq := if full then 0#4 else s.td.txSeq + 1#4, txPrev := s.ports.snapshot }).answer .ok

/-- `TD.RST` (R226). -/
def execTdRst (s : State) : Answer :=
  if !s.cfg.hasTd then s.refuse
  else
    (s.setTd
      { rxPrev := zeroSnapshot s.cfg.schema, rxSeq := 0#4, txPrev := zeroSnapshot s.cfg.schema,
        txSeq := 0#4 }).answer .ok

end Sys2Proof.Machine
end

