-- ==== Sys2Proof/Machine/Tx.lean ====
section
/-! DEFINITION. Unit TX, the framer (43_frame_tx.md), with the pure functions `escape` and `unescape`. -/

namespace Sys2Proof.Machine

open Sys2Proof.Config (Params)

/-- The wire bytes of one literal byte (R201). -/
def escapeByte (b : Byte) : List Byte := if b.toNat ≤ 4 then [Config.esc, b + Config.escOffset] else [b]

/-- The pure function `escape` (R201). -/
def escape (bytes : List Byte) : List Byte := bytes.flatMap escapeByte

/-- The pure function `unescape` (R202). -/
def unescape (p : Params) : List Byte → List Byte
  | [] => []
  | [b] => if b = Config.esc then [] else [b]
  | b :: e :: rest => if b = Config.esc then escDecode p e :: unescape p rest else b :: unescape p (e :: rest)

/-- The four checksum bytes of a content (30_encoding.md R96). -/
def cksOf (content : List Byte) : List Byte :=
  let c := crc16 content
  let a := c &&& 0x7FFF#16
  let b := c >>> 15
  [a.setWidth 8, (a >>> 8).setWidth 8, b.setWidth 8, 0x00#8]

/-- The wire bytes of one frame (R203). -/
def frameBytes (payload : List Byte) : List Byte :=
  [Config.stx] ++ escape (payload ++ cksOf payload) ++ [Config.etx]

/-- `TX.FRAME payload` (R203). -/
def execTxFrame (s : State) : Answer :=
  if s.ports.payload.length % 2 = 1 then s.refuse else s.answer (.bytes (frameBytes s.ports.payload))

end Sys2Proof.Machine
end

