-- ==== Sys2Proof/Machine/Dispatch.lean ====
section
/-! DEFINITION. One arm per instruction: the meaning it calls. -/

namespace Sys2Proof.Machine

def exec (i : Instr) (s : State) : Host.Outcome State Fault Refusal :=
  match i with
  -- wire-byte classes, 30_encoding.md R91
  | .stx => Sys2Proof.Machine.execStx s
  | .etx => Sys2Proof.Machine.execEtx s
  | .esc => Sys2Proof.Machine.execEsc s
  | .ctl x => Sys2Proof.Machine.execCtl x s
  | .lit b => Sys2Proof.Machine.execLit b s
  -- escape pairs, R94 and R95
  | .ep0 => Sys2Proof.Machine.execEp0 s
  | .ep1 => Sys2Proof.Machine.execEp1 s
  | .ep2 => Sys2Proof.Machine.execEp2 s
  | .ep3 => Sys2Proof.Machine.execEp3 s
  | .ep4 => Sys2Proof.Machine.execEp4 s
  | .epx e => Sys2Proof.Machine.execEpx e s
  -- command words, R108
  | .bcLoad => Sys2Proof.Machine.execBcLoad s
  | .bcLoadraw => Sys2Proof.Machine.execBcLoadraw s
  | .bcRd n => Sys2Proof.Machine.execBcRd n s
  | .bcRds n => Sys2Proof.Machine.execBcRds n s
  | .bcWinit => Sys2Proof.Machine.execBcWinit s
  | .bcWr n => Sys2Proof.Machine.execBcWr n s
  | .bcWtake => Sys2Proof.Machine.execBcWtake s
  | .crcInit => Sys2Proof.Machine.execCrcInit s
  | .crcUpd b => Sys2Proof.Machine.execCrcUpd b s
  | .crcGet => Sys2Proof.Machine.execCrcGet s
  | .rxByte b => Sys2Proof.Machine.execRxByte b s
  | .rxFeed => Sys2Proof.Machine.execRxFeed s
  | .rxRst => Sys2Proof.Machine.execRxRst s
  | .txFrame => Sys2Proof.Machine.execTxFrame s
  | .tdDec => Sys2Proof.Machine.execTdDec s
  | .tdEnc full => Sys2Proof.Machine.execTdEnc full s
  | .tdRst => Sys2Proof.Machine.execTdRst s
  | .atBuild k => Sys2Proof.Machine.execAtBuild k s
  | .atVerify k => Sys2Proof.Machine.execAtVerify k s
  | .atRst k => Sys2Proof.Machine.execAtRst k s
  | .sysRst => Sys2Proof.Machine.execSysRst s

end Sys2Proof.Machine
end

