-- ==== Sys2Proof/Machine/Fetch.lean ====
section
/-! DEFINITION. How a step takes its next instruction from what waits at the inputs (00_scope.md R8, 20_memory.md R76,
30_encoding.md R94; assumption log 5, 6, 11). -/

namespace Sys2Proof.Machine

/-- What a step finds at the inputs. -/
inductive Fetched where
  /-- Nothing to do; the state goes on as given. -/
  | nothing (s : State)
  /-- An instruction, and the state with it taken from the inputs and its operands on the ports. -/
  | instr (i : Instr) (s : State)
  /-- A command word that is no instruction (30_encoding.md R110), taken from the inputs. -/
  | illegal (e : DecodeError) (s : State)
deriving DecidableEq, Repr

/-- The rest of a chunk goes back to the front of the inputs, unless it is empty. -/
def putBack (rest : List Byte) (q : List Input) : List Input :=
  match rest with
  | [] => q
  | b :: bs => .wire (b :: bs) :: q

/-- Taking the next item. A command word comes with its operands, which go on the ports; serial bytes are taken one
item at a time, an escape pair being one item only in state `FRAME` (30_encoding.md R94). -/
def fetch (s : State) : Fetched :=
  match s.inputs with
  | [] => .nothing s
  | .cmd w ports :: q =>
    let s' := (s.setInputs q).setPorts ports
    match decode false (.cmd w) with
    | .ok r => .instr r.1 s'
    | .error e => .illegal e s'
  | .wire bytes :: q =>
    match decode (s.rx.state == .frame) (.wire bytes) with
    | .ok r => .instr r.1 (s.setInputs (putBack r.2 q))
    | .error _ => .nothing (s.setInputs q)

/-- A code placed where the next step fetches. An escape pair is recognised only inside a frame (30_encoding.md R94),
so for one `rx.state` becomes `FRAME`. -/
def State.placeCode (s : State) : Code → State
  | .cmd w => s.setInputs (.cmd w s.ports :: s.inputs)
  | .wire (b :: e :: rest) =>
    (s.setInputs (.wire (b :: e :: rest) :: s.inputs)).setRx { s.rx with state := .frame }
  | .wire bytes => s.setInputs (.wire bytes :: s.inputs)

end Sys2Proof.Machine
end

