-- ==== Sys2Proof/Machine/Step.lean ====
section
/-! DEFINITION. One step of the machine: one operation of the host, or one item of the serial input. -/

namespace Sys2Proof.Machine

/-- One step (00_scope.md R8). With nothing to do the block stays as it is; a word that is no instruction ends with
`IllegalOperand` (30_encoding.md R110; assumption log 5, 10). -/
def step (s : State) : Host.Outcome State Fault Refusal :=
  match fetch s with
  | .nothing s' => .next s'
  | .instr i s' => exec i s'
  | .illegal _ s' => s'.refuse

/-- A table word placed where the next step fetches (assumption log 6). -/
def State.withFetchWord (s : State) (nbits w : Nat) : State := s.placeCode (tableCode nbits w)

end Sys2Proof.Machine
end

