-- ==== Sys2Proof/Machine/Flags.lean ====
section
/-! DEFINITION. The block has no flags and no condition codes (10_state.md R39): each operation returns its status in
its result. This file reads that status: the codes of 60_exceptions.md R271. -/

namespace Sys2Proof.Machine

/-- The code of an error (60_exceptions.md R271). -/
def LcbError.code : LcbError → Nat
  | .frameChecksum _ => 1
  | .telemetryDesync _ _ => 2
  | .tooShort => 3
  | .badSignature => 4
  | .tooOld _ => 5
  | .tooNew _ => 6
  | .replayed _ => 7
  | .schemaViolation => 8
  | .windowFull => 9
  | .illegalOperand => 10

/-- The error a result reports, if any. `CKERR` is the error result `FrameChecksumError`
(42_frame_rx.md R171, R182). -/
def Result.error? : Result → Option LcbError
  | .error e => some e
  | .rxByte _ (some (.ckErr raw)) => some (.frameChecksum raw)
  | .rxFeed .ckErr _ _ data => some (.frameChecksum data)
  | _ => none

/-- The status code of a result: 0 is `OK` (60_exceptions.md R271). -/
def Result.code (r : Result) : Nat :=
  match r.error? with
  | some e => e.code
  | none => 0

end Sys2Proof.Machine
end

