-- ==== Sys2Proof/Machine/Stream.lean ====
section
/-! DEFINITION. The buffers of BC seen as bit streams (20_memory.md R62, R63; 30_encoding.md R105). The meanings
themselves follow the word-by-word loops of R133 and R137; these are the spec's other description of the same
values, in which claims about them are stated. -/

namespace Sys2Proof.Machine

/-- Stream bit `k` of the read buffer: bit `k mod 15` of word `k div 15` (R62). -/
def streamBit (buf : List Byte) (k : Nat) : Bool := (readWord buf (k / 15)).getLsbD (k % 15)

/-- Stream bit `k` of the write buffer; 0 where no word has been created (R62). -/
def wordsBit (words : List Word15) (k : Nat) : Bool := (words.getD (k / 15) 0#15).getLsbD (k % 15)

/-- The sum of `bit j * 2^j` for `j < n` (R105). -/
def bitSum (bit : Nat → Bool) : Nat → Nat
  | 0 => 0
  | n + 1 => bitSum bit n + (bit n).toNat * 2 ^ n

/-- The value of the `n`-bit field at stream bit `k` of the read buffer (R105). -/
def fieldValue (buf : List Byte) (k n : Nat) : Nat := bitSum (fun j => streamBit buf (k + j)) n

/-- The position of the read cursor in the stream, `15 w + o` (10_state.md R25). -/
def ReadCursor.bitPos (rc : ReadCursor) : Nat := 15 * rc.w + rc.o.val

/-- The read cursor moved to stream bit `k`. -/
def ReadCursor.seek (rc : ReadCursor) (k : Nat) : ReadCursor := { rc with w := k / 15, o := Fin.ofNat 15 k }

end Sys2Proof.Machine
end

