-- ==== Sys2Proof/Machine/Program.lean ====
section
/-! DEFINITION. Sequences of operations and what is observed of them (00_scope.md R8), and the pseudo-operations of
30_encoding.md R113, each by its expansion. -/

namespace Sys2Proof.Machine

/-- One operation with the operands the host puts on the data ports. -/
abbrev Op := Instr × Ports

/-- An operation without port operands. -/
def Op.plain (i : Instr) : Op := (i, Ports.empty)

/-- The host issues one operation: its operands go on the ports and it runs to completion (R8). -/
def State.issue (s : State) (o : Op) : Answer := exec o.1 (s.setPorts o.2)

/-- The observation a claim is stated over: the sequence of operation results, and the state left (R8). -/
def observe : List Op → State → List Result × State
  | [], s => ([], s)
  | o :: os, s =>
    match s.issue o with
    | .next t => ((t.res :: (observe os t).1), (observe os t).2)
    | .fault _ => ([], s)
    | .refused _ => ([], s)

/-- An output of RX: a passthrough byte or a frame event (42_frame_rx.md R184). -/
inductive RxOutput where
  | passthrough (b : Byte)
  | event (e : RxEvent)
deriving DecidableEq, Repr

/-- The outputs one result reports, in the order of the input bytes that caused them (42_frame_rx.md R182, D34). -/
def Result.rxOutputs : Result → List RxOutput
  | .rxByte pt ev => pt.toList.map .passthrough ++ ev.toList.map .event
  | .rxFeed .none _ pts _ => pts.map .passthrough
  | .rxFeed .frame _ pts data => pts.map .passthrough ++ [.event (.frame data)]
  | .rxFeed .ckErr _ pts data => pts.map .passthrough ++ [.event (.ckErr data)]
  | _ => []

/-- The operation `RX.FEED bytes`. -/
def feedOp (bytes : List Byte) : Op := (.rxFeed, { Ports.empty with bytes := bytes })

/-- `consumed` of a result of `RX.FEED`. -/
def Result.consumed : Result → Nat
  | .rxFeed _ n _ _ => n
  | _ => 0

/-! ## Pseudo-operations (R113) -/

/-- `crc16 bytes`: `CRC.INIT`, `CRC.UPD b` for each byte, `CRC.GET`. -/
def crcOps (bytes : List Byte) : List Op :=
  [.plain .crcInit] ++ bytes.map (fun b => .plain (.crcUpd b)) ++ [.plain .crcGet]

/-- `HDR`: `BC.RD 30`, `BC.RD 3`. -/
def hdrOps : List Op := [.plain (.bcRd 30#6), .plain (.bcRd 3#6)]

/-- The operation `BC.WR n value`. -/
def writeOp (n : BitVec 6) (value : Int) : Op := (.bcWr n, { Ports.empty with value := value })

/-- `WHDR ms ftype`: `BC.WR 30 ms`, `BC.WR 3 ftype`. -/
def whdrOps (ms ftype : Int) : List Op := [writeOp 30#6 ms, writeOp 3#6 ftype]

/-- The operation `BC.LOAD bytes`. -/
def loadOp (bytes : List Byte) : Op := (.bcLoad, { Ports.empty with bytes := bytes })

/-- The operation `TX.FRAME payload`. -/
def frameOp (payload : List Byte) : Op := (.txFrame, { Ports.empty with payload := payload })

/-- The rounds of `FEEDALL`: `RX.FEED` on the unconsumed rest until it is empty. A round on a non-empty rest consumes
at least one byte. -/
def feedAllLoop : (rounds : Nat) → List Byte → State → List RxOutput × State
  | 0, _, s => ([], s)
  | rounds + 1, bytes, s =>
    match s.issue (feedOp bytes) with
    | .next t =>
      let rest := bytes.drop t.res.consumed
      if rest.isEmpty then (t.res.rxOutputs, t)
      else
        let r := feedAllLoop rounds rest t
        (t.res.rxOutputs ++ r.1, r.2)
    | .fault _ => ([], s)
    | .refused _ => ([], s)

/-- `FEEDALL bytes`: all passthrough bytes and all events in order. -/
def feedAll (bytes : List Byte) (s : State) : List RxOutput × State := feedAllLoop (bytes.length + 1) bytes s

/-- Feeding a byte sequence chunk by chunk (42_frame_rx.md R184). -/
def feedChunks : List (List Byte) → State → List RxOutput × State
  | [], s => ([], s)
  | c :: cs, s =>
    let r := feedAll c s
    let r' := feedChunks cs r.2
    (r.1 ++ r'.1, r'.2)

/-- The bytes a result carries. -/
def Result.bytesOf : Result → List Byte
  | .bytes bs => bs
  | _ => []

/-- `SENDFRAME`: `BC.WTAKE -> p`, `TX.FRAME p -> wire`. -/
def sendFrame (s : State) : List Result × State :=
  let r := observe [.plain .bcWtake] s
  let r' := observe [frameOp ((r.1.map Result.bytesOf).flatten)] r.2
  (r.1 ++ r'.1, r'.2)

/-- `RECVDATA` on a `FRAME` event with content `c`: `BC.LOAD c`, `HDR`, and `TD.DEC` if the type is `DATA`. -/
def recvData (c : List Byte) (s : State) : List Result × State :=
  let r := observe (loadOp c :: hdrOps) s
  if r.1.getLast? = some (.unsigned (ftCode s.cfg .data).toNat) then
    let r' := observe [.plain .tdDec] r.2
    (r.1 ++ r'.1, r'.2)
  else r

end Sys2Proof.Machine
end

