-- ==== Sys2Proof/Safety.lean ====
section
/-! DEFINITION. What a legal state is: the legal values of 10_state.md R20 with the invariants of R22, R23, R27, R28,
R30, R33, and what it means that the block answers. -/

namespace Sys2Proof.Machine

open Sys2Proof.Config (Params)

/-- The operation ends with a result: no stop (60_exceptions.md R272, R278). -/
def Answers (a : Answer) : Prop := ∃ t, a = .next t

/-- RX (R22, R23): the buffer is within `FRAME_MAX`; an overflow is recorded only when it is full; outside a frame
both are clear. -/
abbrev RxUnit.wf (p : Params) (r : RxUnit) : Prop :=
  withinCap p.frameMax r.fbuf.length = true ∧
  (r.ovf = true → p.frameMax = some r.fbuf.length) ∧
  (r.state = .idle → r.fbuf = [] ∧ r.ovf = false)

/-- The read cursor (R27): the raw list is there only with `HAS_RAW_MODE`. -/
abbrev ReadCursor.wf (p : Params) (rc : ReadCursor) : Prop :=
  p.hasRawMode = false → rc.mode = .packed ∧ rc.raw = [] ∧ rc.idx = 0

/-- The write cursor (R28): it stands at the end of the data, the bits of the last word not yet written are 0, and
the buffer is within `WBUF_MAX`. -/
abbrev WriteCursor.wf (p : Params) (wc : WriteCursor) : Prop :=
  (wc.o = 0 → wc.w = wc.words.length) ∧
  (wc.o ≠ 0 → wc.w + 1 = wc.words.length ∧ (wc.words.getD wc.w 0#15).toNat < 2 ^ wc.o.val) ∧
  withinCap p.wbufMax wc.words.length = true

/-- The replay windows (R30, 45_auth_transport.md R251): one per instance, strictly ascending, within `RW_CAP`. -/
abbrev winsWf (p : Params) (win : List (List Stamp)) : Prop :=
  win.length = p.nAuth ∧ ∀ w ∈ win, ascending w = true ∧ withinCap p.rwCap w.length = true

/-- TD (R33): both snapshots are snapshots of the schema; without `HAS_TD` nothing of it is ever written. -/
abbrev TdUnit.wf (p : Params) (td : TdUnit) : Prop :=
  snapshotLegal p.schema td.rxPrev = true ∧ snapshotLegal p.schema td.txPrev = true ∧
  (p.hasTd = false → td = TdUnit.reset p.schema)

/-- A legal state (R20). -/
abbrev State.wf (s : State) : Prop :=
  paramsOk s.cfg = true ∧ s.rx.wf s.cfg ∧ s.rc.wf s.cfg ∧ s.wc.wf s.cfg ∧ winsWf s.cfg s.win ∧ s.td.wf s.cfg

/-- Two states agree on every element of R20 and on the parameters: they differ at most in the model's own fields. -/
abbrev State.sameBlock (s t : State) : Prop :=
  s.rx = t.rx ∧ s.crcAcc = t.crcAcc ∧ s.rc = t.rc ∧ s.wc = t.wc ∧ s.win = t.win ∧ s.td = t.td ∧ s.cfg = t.cfg

end Sys2Proof.Machine
end

