-- ==== Sys2Proof/Certificates/Slice0/Obligations.lean ====
section
/-! DEFINITION. The statements for the provers. What a statement compares the model with is written here from the
spec's rules, not through the definitions the meanings use. -/

open Sys2Proof Sys2Proof.Machine

namespace Sys2Proof.Claims

/-! ## Vocabulary -/

/-- A field's range (10_state.md R33). -/
def InRange (width : Nat) (signed : Bool) (x : Int) : Prop :=
  if signed then -(2 ^ (width - 1)) ≤ x ∧ x < 2 ^ (width - 1) else 0 ≤ x ∧ x < 2 ^ width

/-- A snapshot of a schema (10_state.md R33). -/
def IsSnapshot (schema : List Config.Field) (x : Snapshot) : Prop :=
  x.length = schema.length ∧ ∀ fx ∈ schema.zip x, InRange fx.1.width fx.1.signed fx.2

/-- Writing `bits` more bits takes more than `WBUF_MAX` words (40_bitcodec.md R137). -/
def ExceedsWbuf (s : State) (bits : Nat) : Prop := ∃ m, s.cfg.wbufMax = some m ∧ 15 * m < s.wc.bitPos + bits

/-- A datagram of `n` bytes is longer than `PKT_MAX`. -/
def ExceedsPkt (s : State) (n : Nat) : Prop := ∃ m, s.cfg.pktMax = some m ∧ m < n

/-- The fields of a delta payload in wire order (30_encoding.md R101): flag, then for an incremental payload the
sequence number, then the schema's fields, each with its presence bit unless the payload is full. -/
def payloadOf (full : Bool) (s : State) (x : Snapshot) : List (Nat × Int) :=
  if full then (1, 1) :: (s.cfg.schema.zip x).map fun fx => (fx.1.width, fx.2)
  else (1, 0) :: (4, (s.td.txSeq.toNat : Int)) ::
    (s.cfg.schema.zip (x.zip s.td.txPrev)).flatMap fun fxp =>
      if fxp.2.1 = fxp.2.2 then [(1, 0)] else [(1, 1), (fxp.1.width, fxp.2.1)]

/-- Its length in bits. -/
def payloadBits (full : Bool) (s : State) (x : Snapshot) : Nat := ((payloadOf full s x).map fun f => f.1).sum

/-- The last column of 60_exceptions.md R277: when an operation is refused. -/
def Refused (i : Instr) (s : State) : Prop :=
  match i with
  | .bcLoadraw => s.cfg.hasRawMode = false
  | .bcRd n => n.toNat = 0 ∨ 32 < n.toNat
  | .bcRds n => n.toNat = 0 ∨ 32 < n.toNat
  | .bcWr n => n.toNat = 0 ∨ 32 < n.toNat ∨ ExceedsWbuf s n.toNat
  | .txFrame => s.ports.payload.length % 2 = 1
  | .tdDec => s.cfg.hasTd = false
  | .tdEnc full => s.cfg.hasTd = false ∨ ¬ IsSnapshot s.cfg.schema s.ports.snapshot ∨
      ExceedsWbuf s (payloadBits full s s.ports.snapshot)
  | .tdRst => s.cfg.hasTd = false
  | .atBuild i => s.cfg.nAuth ≤ i.toNat ∨ 2 ^ 64 ≤ s.ports.nowMs ∨ ExceedsPkt s (40 + s.ports.payload.length)
  | .atVerify i => s.cfg.nAuth ≤ i.toNat ∨ ExceedsPkt s s.ports.packet.length
  | .atRst i => s.cfg.nAuth ≤ i.toNat
  | _ => False

/-- The instruction hands serial bytes to RX. -/
def Receives (i : Instr) : Prop :=
  match i with
  | .stx => True
  | .etx => True
  | .esc => True
  | .ctl _ => True
  | .lit _ => True
  | .ep0 => True
  | .ep1 => True
  | .ep2 => True
  | .ep3 => True
  | .ep4 => True
  | .epx _ => True
  | .rxByte _ => True
  | .rxFeed => True
  | _ => False

/-- The instruction is an escape pair (30_encoding.md R94). -/
def IsPair (i : Instr) : Prop := i ∈ [Instr.ep0, .ep1, .ep2, .ep3, .ep4] ∨ ∃ e, i = .epx e

/-- Byte-at-a-time reception: the outputs of `RX.BYTE` on each byte in order, and the state left
(42_frame_rx.md R184). -/
def feedBytes (bytes : List Byte) (s : State) : List RxOutput × State :=
  let r := observe (bytes.map fun b => Op.plain (.rxByte b)) s
  (r.1.flatMap Result.rxOutputs, r.2)

/-- The passthrough bytes among outputs. -/
def passed (out : List RxOutput) : List Byte :=
  out.filterMap fun o => match o with
    | .passthrough b => some b
    | .event _ => none

/-- A field's value at stream bit `k` of the read buffer: its bits as a number, less `2^width` if the field is signed
and its top bit is set (40_bitcodec.md R134). -/
def valueAt (buf : List Byte) (width : Nat) (signed : Bool) (k : Nat) : Int :=
  if signed = true ∧ streamBit buf (k + width - 1) = true then (fieldValue buf k width : Int) - 2 ^ width
  else (fieldValue buf k width : Int)

/-- The schema's fields one after the other from stream bit `k` (30_encoding.md R101, full). -/
def fullAt (buf : List Byte) : List Config.Field → Nat → Snapshot
  | [], _ => []
  | f :: fs, k => valueAt buf f.width f.signed k :: fullAt buf fs (k + f.width)

/-- The schema's fields with presence bits from stream bit `k` (30_encoding.md R101, incremental): the snapshot and
the stream bit after the last one. -/
def deltaAt (buf : List Byte) : List Config.Field → Snapshot → Nat → Snapshot × Nat
  | [], _, k => ([], k)
  | f :: fs, prev, k =>
    if streamBit buf k = true then
      let r := deltaAt buf fs prev.tail (k + 1 + f.width)
      (valueAt buf f.width f.signed (k + 1) :: r.1, r.2)
    else
      let r := deltaAt buf fs prev.tail (k + 1)
      (prev.headD 0 :: r.1, r.2)

/-- A field's value in the raw list: element `k` modulo `2^width`, 0 past the end, in two's complement if the field is
signed (40_bitcodec.md R135). -/
def rawAt (list : List Int) (width : Nat) (signed : Bool) (k : Nat) : Int :=
  let v := list.getD k 0 % 2 ^ width
  if signed = true ∧ 2 ^ (width - 1) ≤ v then v - 2 ^ width else v

/-- The schema's fields one after the other from list element `k`, one element each (R101 full, R135). -/
def fullRaw (list : List Int) : List Config.Field → Nat → Snapshot
  | [], _ => []
  | f :: fs, k => rawAt list f.width f.signed k :: fullRaw list fs (k + 1)

/-- The schema's fields with presence bits from list element `k` (R101 incremental, R135): the snapshot and the element
after the last one. -/
def deltaRaw (list : List Int) : List Config.Field → Snapshot → Nat → Snapshot × Nat
  | [], _, k => ([], k)
  | f :: fs, prev, k =>
    if rawAt list 1 false k = 1 then
      let r := deltaRaw list fs prev.tail (k + 2)
      (rawAt list f.width f.signed (k + 1) :: r.1, r.2)
    else
      let r := deltaRaw list fs prev.tail (k + 1)
      (prev.headD 0 :: r.1, r.2)

/-- Each of these payloads, encoded one after the other from the encoder's snapshot `prev`, fits in an empty write
buffer (44_telemetry_delta.md R223). -/
def AllFit (s : State) : Snapshot → List (Bool × Snapshot) → Prop
  | _, [] => True
  | prev, y :: ys =>
    (∀ m, s.cfg.wbufMax = some m → payloadBits y.1 { s with td := { s.td with txPrev := prev } } y.2 ≤ 15 * m) ∧
      AllFit s y.2 ys

/-- The operation `TD.ENC full x`. -/
def encOp (full : Bool) (x : Snapshot) : Op := (.tdEnc full, { Ports.empty with snapshot := x })

/-- One payload sent and received: `BC.WINIT; TD.ENC full x; BC.WTAKE -> p; BC.LOAD p; TD.DEC`; the last result and
the state left. -/
def exchange (full : Bool) (x : Snapshot) (s : State) : Result × State :=
  let e := observe [.plain .bcWinit, encOp full x, .plain .bcWtake] s
  let d := observe [loadOp ((e.1.map Result.bytesOf).flatten), .plain .tdDec] e.2
  (d.1.getLast?.getD .ok, d.2)

/-- Payloads sent and received in order, without loss. -/
def exchanges : List (Bool × Snapshot) → State → List Result × State
  | [], s => ([], s)
  | x :: xs, s =>
    let r := exchange x.1 x.2 s
    let r' := exchanges xs r.2
    (r.1 :: r'.1, r'.2)

/-- Decoder and encoder hold the same sequence number and snapshot (44_telemetry_delta.md R229). -/
def LockStep (s : State) : Prop := s.td.rxSeq = s.td.txSeq ∧ s.td.rxPrev = s.td.txPrev

/-- A field written and read back: width, signedness, value (40_bitcodec.md R140). -/
structure BitField where
  n      : BitVec 6
  signed : Bool
  x      : Int

/-- Its width is 1..32 and its value in range. -/
def BitField.Ok (f : BitField) : Prop := 1 ≤ f.n.toNat ∧ f.n.toNat ≤ 32 ∧ InRange f.n.toNat f.signed f.x

/-- Reading it: `BC.RDS` if signed, else `BC.RD`. -/
def BitField.readOp (f : BitField) : Op := .plain (if f.signed then .bcRds f.n else .bcRd f.n)

/-- What reading it returns. -/
def BitField.result (f : BitField) : Result := if f.signed then .signed f.x else .unsigned f.x.toNat

/-- The timestamp of a packet, bytes 32..39, most significant first (30_encoding.md R102, R103). -/
def stampNat (packet : List Byte) : Nat := fromBe64 ((packet.drop 32).take 8)

/-- The packet's digest is the HMAC of what follows it (45_auth_transport.md R245). -/
def SignedBy (key packet : List Byte) : Prop := (Config.hmac key (packet.drop 32)).toList = packet.take 32

/-- `now_ms - window_ms` and `now_ms + window_ms` in unbounded integers (45_auth_transport.md R246). -/
def earliest (p : Ports) : Int := (p.nowMs : Int) - (p.windowMs : Int)
def latest (p : Ports) : Int := (p.nowMs : Int) + (p.windowMs : Int)

end Sys2Proof.Claims

open Sys2Proof.Claims

/-! ## Encodings -/

/-- R91, R94, R95, R107, R108: decoding an encoded well-formed instruction gives it back, with every operand at
every value its encoding admits. -/
def Obligations.EncodedInstructionDecodesToItself : Prop :=
  ∀ i : Instr, i.wellFormed = true → decode true (encode i) = .ok (i, [])

/-- R91, R94, R107, R110: whatever decodes is well-formed, and its encoding is exactly the bits read: no two
instructions share a code and no bit is ignored. -/
def Obligations.DecodedBitsAreTheEncoding : Prop :=
  ∀ (inFrame : Bool) (i : Instr) (rest : List Byte),
    (∀ w, decode inFrame (.cmd w) = .ok (i, rest) → i.wellFormed = true ∧ rest = [] ∧ encode i = .cmd w) ∧
    (∀ bs, decode inFrame (.wire bs) = .ok (i, rest) →
      i.wellFormed = true ∧ ∃ used, encode i = .wire used ∧ bs = used ++ rest)

/-- Words of 95_test_vectors.md section 7, the five classes of R91 and the pairs of R95. -/
def Obligations.WordsOfTheSpecDecode : Prop :=
  decodeTableWord 8 0x02 = some .stx ∧ decodeTableWord 8 0x03 = some .etx ∧ decodeTableWord 8 0x04 = some .esc ∧
  decodeTableWord 8 0x01 = some (.ctl 1#1) ∧ decodeTableWord 8 0x05 = some (.lit 5#8) ∧
  decodeTableWord 16 0x0443 = some .ep3 ∧ decodeTableWord 16 0x0405 = some (.epx 5#8) ∧
  decodeTableWord 16 0x121E = some (.bcRd 30#6) ∧ decodeTableWord 16 0x1310 = some (.bcRds 16#6) ∧
  decodeTableWord 16 0x2131 = some (.crcUpd 0x31#8) ∧ decodeTableWord 16 0x3002 = some (.rxByte 2#8) ∧
  decodeTableWord 16 0x4000 = some .txFrame ∧ decodeTableWord 16 0x5101 = some (.tdEnc true) ∧
  decodeTableWord 16 0x6101 = some (.atVerify 1#8) ∧ decodeTableWord 16 0xFF00 = some .sysRst ∧
  decodeTableWord 16 0x0000 = none ∧ decodeTableWord 16 0x1240 = none ∧ decodeTableWord 16 0x1401 = none ∧
  decodeTableWord 16 0x5102 = none

/-! ## Steps -/

/-- A step takes what waits first and runs exactly the instruction it decodes to. A command word runs with its
operands on the ports; serial bytes run one item at a time (R94); with nothing waiting, or an empty chunk, nothing
of the block changes. -/
def Obligations.StepRunsTheDecodedInstruction : Prop :=
  ∀ (s : State) (q : List Input),
    (∀ w p i, s.inputs = .cmd w p :: q → decodeCmd w = .ok i →
      step s = exec i { s with inputs := q, ports := p }) ∧
    (∀ bs i rest, s.inputs = .wire bs :: q → decodeWire (decide (s.rx.state = .frame)) bs = some (i, rest) →
      step s = exec i { s with inputs := if rest = [] then q else .wire rest :: q }) ∧
    (s.inputs = .wire [] :: q → step s = .next { s with inputs := q }) ∧
    (s.inputs = [] → step s = .next s)

/-- An instruction placed by `withFetchWord` is what the next step runs; for an escape pair, in state `FRAME`. The
model's own interface (assumption log 6). -/
def Obligations.PlacedWordIsWhatTheNextStepRuns : Prop :=
  ∀ (s : State) (nbits w : Nat) (i : Instr), decodeTableWord nbits w = some i →
    (¬ IsPair i → step (s.withFetchWord nbits w) = exec i s) ∧
    (IsPair i → step (s.withFetchWord nbits w) = exec i { s with rx := { s.rx with state := .frame } })

/-- R110: words without a meaning end with `IllegalOperand`, and nothing of the block changes. That the step takes the
word from the inputs and leaves its operands on the ports is the model's choice (assumption log 10, with 5 and 7). -/
def Obligations.ReservedWordsAreRefused : Prop :=
  ∀ (s : State) (w : CmdWord) (p : Ports) (q : List Input), s.inputs = .cmd w p :: q →
    (w.toNat / 256 ∉ [0x10, 0x11, 0x12, 0x13, 0x14, 0x15, 0x16, 0x20, 0x21, 0x22, 0x30, 0x31, 0x32, 0x40, 0x50,
        0x51, 0x52, 0x60, 0x61, 0x62, 0xFF] ∨
      (w.toNat / 256 ∈ [0x10, 0x11, 0x14, 0x16, 0x20, 0x22, 0x31, 0x32, 0x40, 0x50, 0x52, 0xFF] ∧
        w.toNat % 256 ≠ 0) ∨
      (w.toNat / 256 ∈ [0x12, 0x13, 0x15] ∧ (w.toNat % 256 = 0 ∨ 32 < w.toNat % 256)) ∨
      (w.toNat / 256 = 0x51 ∧ 1 < w.toNat % 256) ∨
      (w.toNat / 256 ∈ [0x60, 0x61, 0x62] ∧ s.cfg.nAuth ≤ w.toNat % 256) ∨
      (w.toNat / 256 ∈ [0x50, 0x51, 0x52] ∧ s.cfg.hasTd = false) ∨
      (w.toNat / 256 = 0x11 ∧ s.cfg.hasRawMode = false)) →
    step s = .next { s with inputs := q, ports := p, res := .error .illegalOperand }

/-- R272, R278: no operation terminates, hangs or blocks: every step from every state answers a next state. -/
def Obligations.EveryStepAnswers : Prop := ∀ s : State, ∃ t, step s = .next t

/-- R20's legal values with the invariants of R22, R23, R28, R30, R33 are kept by every step. -/
def Obligations.StepKeepsLegalState : Prop :=
  ∀ s t : State, s.wf → step s = .next t → t.wf

/-- The reset state is legal. -/
def Obligations.ResetStateIsLegal : Prop := State.reset.wf

/-- R301: the reset state is legal under every legal configuration; with an ill-formed schema the block refuses to
exist (R225). The form of the configuration step is the model's own (assumption log 15). -/
def Obligations.ConfiguredBlockStartsLegal : Prop :=
  ∀ p : Config.Params,
    (paramsOk p = true → configure p = .next (State.resetWith p) ∧ (State.resetWith p).wf) ∧
    (schemaOk p.schema = false → configure p = .fault .schemaViolation)

/-- R301: no step touches the parameters. -/
def Obligations.StepKeepsTheParameters : Prop :=
  ∀ s t : State, step s = .next t → t.cfg = s.cfg

/-- R20, columns "written by": each element of the state is changed by its writers only, a replay window only by the
operations that name its instance. That no operation, `SYS.RST` included, changes the inputs and the ports, and that the
parameters stand in the state, is the model's choice (assumption log 17, with 1, 5 and 7). -/
def Obligations.OnlyItsWritersChangeAnElement : Prop :=
  ∀ (i : Instr) (s t : State), exec i s = .next t →
    (t.rx ≠ s.rx → Receives i ∨ i ∈ [Instr.rxRst, .sysRst]) ∧
    (t.crcAcc ≠ s.crcAcc → (∃ b, i = .crcUpd b) ∨ i ∈ [Instr.crcInit, .sysRst]) ∧
    (t.rc.mode ≠ s.rc.mode → i ∈ [Instr.bcLoad, .bcLoadraw, .sysRst]) ∧
    (t.rc.buf ≠ s.rc.buf → i ∈ [Instr.bcLoad, .sysRst]) ∧
    (t.rc.w ≠ s.rc.w ∨ t.rc.o ≠ s.rc.o →
      (∃ n, i = .bcRd n) ∨ (∃ n, i = .bcRds n) ∨ i ∈ [Instr.bcLoad, .tdDec, .sysRst]) ∧
    (t.rc.raw ≠ s.rc.raw → i ∈ [Instr.bcLoadraw, .sysRst]) ∧
    (t.rc.idx ≠ s.rc.idx →
      (∃ n, i = .bcRd n) ∨ (∃ n, i = .bcRds n) ∨ i ∈ [Instr.bcLoadraw, .tdDec, .sysRst]) ∧
    (t.wc ≠ s.wc → (∃ n, i = .bcWr n) ∨ (∃ f, i = .tdEnc f) ∨ i ∈ [Instr.bcWinit, .sysRst]) ∧
    (∀ k : Nat, t.winOf k ≠ s.winOf k →
      (∃ b : Byte, b.toNat = k ∧ (i = .atVerify b ∨ i = .atRst b)) ∨ i = .sysRst) ∧
    (t.td.rxPrev ≠ s.td.rxPrev ∨ t.td.rxSeq ≠ s.td.rxSeq → i ∈ [Instr.tdDec, .tdRst, .sysRst]) ∧
    (t.td.txPrev ≠ s.td.txPrev ∨ t.td.txSeq ≠ s.td.txSeq →
      (∃ f, i = .tdEnc f) ∨ i ∈ [Instr.tdRst, .sysRst]) ∧
    t.cfg = s.cfg ∧ t.inputs = s.inputs ∧ t.ports = s.ports

/-- R277 (with R279): which operation can end in which error, and that it is refused exactly in the cases of the
table's last column, then changing nothing. A snapshot with a wrong number of fields counts as out of range
(assumption log 13). -/
def Obligations.ErrorsAndRefusalsByOperation : Prop :=
  ∀ (i : Instr) (s : State), s.wf →
    (Refused i s → exec i s = .next { s with res := .error .illegalOperand }) ∧
    (∀ t, exec i s = .next t →
      (t.res.code = 10 → Refused i s) ∧
      (t.res.code = 1 → Receives i) ∧
      (t.res.code = 2 → i = .tdDec) ∧
      (t.res.code ∈ [3, 4, 5, 6, 7, 9] → ∃ k, i = .atVerify k) ∧
      t.res.code ≠ 8 ∧ t.res.code ≤ 10)

/-! ## Unit BC -/

/-- R131: `BC.LOAD` makes the bytes the read buffer, in mode `PACKED`, cursor at (0, 0); the raw list stays. -/
def Obligations.LoadStartsAFreshRead : Prop :=
  decodeCmd 0x1000#16 = .ok .bcLoad ∧
  (∀ s : State, exec .bcLoad s = .next
    { s with rc := { mode := .packed, buf := s.ports.bytes, w := 0, o := 0, raw := s.rc.raw, idx := s.rc.idx }
             res := .ok }) ∧
  (∀ s : State, s.ports.bytes = [0x41#8, 0x40#8, 0x42#8, 0x42#8, 0x43#8, 0x43#8] →
    ∃ t, exec .bcLoad s = .next t ∧ (List.range 3).map (readWord t.rc.buf) = [0x4041#15, 0x4242#15, 0x4343#15])

/-- R132, R135: `BC.LOADRAW` starts raw mode; there every read takes the next list element, reduced modulo `2^n`,
0 past the end, and leaves the packed cursor alone. That an element which does not fit is reduced is the model's choice
of R135 and D9 over U16 (log 24). -/
def Obligations.RawReadsTakeListElements : Prop :=
  (∀ s : State, s.cfg.hasRawMode = true → exec .bcLoadraw s = .next
    { s with rc := { s.rc with raw := s.ports.list, idx := 0, mode := .raw }, res := .ok }) ∧
  (∀ (s : State) (n : BitVec 6), s.rc.mode = .raw → 1 ≤ n.toNat → n.toNat ≤ 32 →
    ∃ v : Nat, (v : Int) = (s.rc.raw.getD s.rc.idx 0) % 2 ^ n.toNat ∧
      exec (.bcRd n) s = .next { s with rc := { s.rc with idx := s.rc.idx + 1 }, res := .unsigned v } ∧
      exec (.bcRds n) s = .next { s with rc := { s.rc with idx := s.rc.idx + 1 }
                                         res := .signed (if 2 ^ (n.toNat - 1) ≤ v then (v : Int) - 2 ^ n.toNat
                                                         else v) })

/-- R133 (R62, R63, R66, R105): a packed read returns the sum of the `n` stream bits from the cursor on, below
`2^n`, and moves the cursor by exactly `n` bits. -/
def Obligations.ReadReturnsTheFieldAtTheCursor : Prop :=
  ∀ (s : State) (n : BitVec 6), s.rc.mode = .packed → 1 ≤ n.toNat → n.toNat ≤ 32 →
    exec (.bcRd n) s = .next { s with rc := s.rc.seek (s.rc.bitPos + n.toNat)
                                      res := .unsigned (fieldValue s.rc.buf s.rc.bitPos n.toNat) } ∧
    fieldValue s.rc.buf s.rc.bitPos n.toNat < 2 ^ n.toNat

/-- R134, R106: a signed packed read returns the same field in two's complement, between `-2^(n-1)` and
`2^(n-1) - 1`, with the same effect on the cursor. -/
def Obligations.SignedReadExtendsTheTopBit : Prop :=
  ∀ (s : State) (n : BitVec 6), s.rc.mode = .packed → 1 ≤ n.toNat → n.toNat ≤ 32 →
    exec (.bcRds n) s = .next { s with rc := s.rc.seek (s.rc.bitPos + n.toNat)
                                       res := .signed (valueAt s.rc.buf n.toNat true s.rc.bitPos) } ∧
    -(2 ^ (n.toNat - 1)) ≤ valueAt s.rc.buf n.toNat true s.rc.bitPos ∧
    valueAt s.rc.buf n.toNat true s.rc.bitPos < 2 ^ (n.toNat - 1)

/-- R66, R141: from the end of the buffer on every read is 0 and still moves the cursor. -/
def Obligations.ReadPastTheEndIsZero : Prop :=
  ∀ (s : State) (n : BitVec 6), s.rc.mode = .packed → 1 ≤ n.toNat → n.toNat ≤ 32 →
    15 * ((s.rc.buf.length + 1) / 2) ≤ s.rc.bitPos →
    exec (.bcRd n) s = .next { s with rc := s.rc.seek (s.rc.bitPos + n.toNat), res := .unsigned 0 } ∧
    exec (.bcRds n) s = .next { s with rc := s.rc.seek (s.rc.bitPos + n.toNat), res := .signed 0 }

/-- R136 and R137: `BC.WINIT` empties the write buffer; `BC.WR` appends the low `n` bits of the value at the write
cursor, keeps every earlier bit, moves the cursor by exactly `n` bits and changes nothing else. -/
def Obligations.WriteAppendsTheField : Prop :=
  (∀ s : State, exec .bcWinit s = .next { s with wc := { words := [], w := 0, o := 0 }, res := .ok }) ∧
  (∀ (s : State) (n : BitVec 6), s.wc.wf s.cfg → 1 ≤ n.toNat → n.toNat ≤ 32 → ¬ ExceedsWbuf s n.toNat →
    ∃ wc : WriteCursor, exec (.bcWr n) s = .next { s with wc := wc, res := .ok } ∧
      wc.wf s.cfg ∧ wc.bitPos = s.wc.bitPos + n.toNat ∧
      (∀ k, k < s.wc.bitPos → wordsBit wc.words k = wordsBit s.wc.words k) ∧
      (∀ j, j < n.toNat → wordsBit wc.words (s.wc.bitPos + j) = (s.ports.value % 2 ^ n.toNat).toNat.testBit j))

/-- R138, R70: `BC.WTAKE` returns two bytes for each word, low byte first, the high one below 0x80, and changes
nothing. -/
def Obligations.TakeGivesTheByteImage : Prop :=
  ∀ s : State, ∃ bytes : List Byte, exec .bcWtake s = .next { s with res := .bytes bytes } ∧
    bytes.length = 2 * s.wc.words.length ∧
    ∀ k, k < s.wc.words.length →
      (bytes.getD (2 * k) 0#8).toNat = (s.wc.words.getD k 0#15).toNat % 256 ∧
      (bytes.getD (2 * k + 1) 0#8).toNat = (s.wc.words.getD k 0#15).toNat / 256 ∧
      (bytes.getD (2 * k + 1) 0#8).toNat < 0x80

/-- R140, the mirror law, as the one sequence it is: any fields written after `BC.WINIT` and taken are then read back from
the loaded image, signed and unsigned, and every further read returns 0. -/
def Obligations.FieldsWrittenAreReadBack : Prop :=
  ∀ (s : State) (fields : List BitField) (more : List (BitVec 6)),
    (∀ f ∈ fields, f.Ok) → (∀ n ∈ more, 1 ≤ n.toNat ∧ n.toNat ≤ 32) →
    (∀ m, s.cfg.wbufMax = some m → (fields.map fun f => f.n.toNat).sum ≤ 15 * m) →
    ∃ (p : List Byte) (t : State),
      observe ([Op.plain .bcWinit] ++ fields.map (fun f => writeOp f.n f.x) ++ [Op.plain .bcWtake]) s =
        (List.replicate (fields.length + 1) Result.ok ++ [Result.bytes p], t) ∧
      (observe ([loadOp p] ++ fields.map BitField.readOp ++ more.map (fun n => Op.plain (.bcRd n))) t).1 =
        [Result.ok] ++ fields.map BitField.result ++ more.map (fun _ => Result.unsigned 0)

/-! ## Unit CRC -/

/-- R160: `CRC.INIT`. -/
def Obligations.CrcInitSetsTheSeed : Prop :=
  decodeCmd 0x2000#16 = .ok .crcInit ∧
  ∀ s : State, exec .crcInit s = .next { s with crcAcc := 0xFFFF#16, res := .ok }

/-- R161: `CRC.UPD` is the recurrence, computed on numbers, with its corner cases and its example. -/
def Obligations.CrcUpdIsTheRecurrence : Prop :=
  (∀ b : Byte, decodeCmd (BitVec.ofNat 16 (0x2100 + b.toNat)) = .ok (.crcUpd b)) ∧
  (∀ (s : State) (b : Byte) (x y : Nat),
    x = ((s.crcAcc.toNat >>> 8) ^^^ b.toNat) &&& 0xFF → y = x ^^^ (x >>> 4) →
    ∃ c : BitVec 16,
      c.toNat = ((s.crcAcc.toNat <<< 8) ^^^ (y <<< 12) ^^^ (y <<< 5) ^^^ y) &&& 0xFFFF ∧
      exec (.crcUpd b) s = .next { s with crcAcc := c, res := .ok }) ∧
  (∀ s : State, s.crcAcc = 0xFFFF#16 →
    exec (.crcUpd 0x00#8) s = .next { s with crcAcc := 0xE1F0#16, res := .ok } ∧
    exec (.crcUpd 0xFF#8) s = .next { s with crcAcc := 0xFF00#16, res := .ok } ∧
    exec (.crcUpd 0x31#8) s = .next { s with crcAcc := 0xC782#16, res := .ok })

/-- R162, R163, R113: `CRC.INIT`, one `CRC.UPD` per byte and `CRC.GET` compute the pure function `crc16`, which is
0xFFFF on the empty sequence and one step more for each byte, and leave its value in the accumulator. -/
def Obligations.CrcOperationsComputeTheFunction : Prop :=
  (∀ s : State, exec .crcGet s = .next { s with res := .crc s.crcAcc }) ∧
  ∀ (bytes : List Byte) (s : State),
    observe (crcOps bytes) s =
      (List.replicate (bytes.length + 1) .ok ++ [.crc (crc16 bytes)],
        { s with crcAcc := crc16 bytes, ports := Ports.empty, res := .crc (crc16 bytes) })

/-- R165, the error-detection property: changing one byte of a content, hence any one bit, changes its checksum. -/
def Obligations.OneChangedByteChangesTheChecksum : Prop :=
  ∀ (before after : List Byte) (b b' : Byte), b ≠ b' →
    crc16 (before ++ b :: after) ≠ crc16 (before ++ b' :: after)

/-! ## Unit RX -/

/-- R173, R174, R175: outside a frame `STX` opens one and every other byte passes through, `ETX` as `ETX_IN_IDLE`
says; as serial bytes and as operands of `RX.BYTE`. -/
def Obligations.BytesOutsideAFrame : Prop :=
  ∀ s : State, s.rx.state = .idle →
    (exec .stx s = .next { s with rx := { state := .frame, fbuf := [], ovf := false }, res := .rxByte none none } ∧
      exec (.rxByte 0x02#8) s = exec .stx s) ∧
    ((s.cfg.etxInIdle = .passthrough → exec .etx s = .next { s with res := .rxByte (some 0x03#8) none }) ∧
      (s.cfg.etxInIdle = .drop → exec .etx s = .next { s with res := .rxByte none none }) ∧
      exec (.rxByte 0x03#8) s = exec .etx s) ∧
    exec .esc s = .next { s with res := .rxByte (some 0x04#8) none } ∧
    exec (.ctl 0#1) s = .next { s with res := .rxByte (some 0x00#8) none } ∧
    exec (.ctl 1#1) s = .next { s with res := .rxByte (some 0x01#8) none } ∧
    (∀ b : Byte, 5 ≤ b.toNat → exec (.lit b) s = .next { s with res := .rxByte (some b) none }) ∧
    (∀ b : Byte, b ≠ 0x02#8 → b ≠ 0x03#8 →
      exec (.rxByte b) s = .next { s with res := .rxByte (some b) none })

/-- R176, R177, R178: inside a frame `CTL` and `LIT` bytes are content, `ESC` waits for its operand, `STX` restarts
the frame or is content as `STX_IN_FRAME` says; a byte that does not fit in `FRAME_MAX` is dropped and recorded
(R23). -/
def Obligations.BytesInsideAFrame : Prop :=
  ∀ s : State, s.rx.state = .frame →
    exec .esc s = .next { s with rx := { s.rx with state := .frameEsc }, res := .rxByte none none } ∧
    (s.cfg.stxInFrame = .restart →
      exec .stx s = .next { s with rx := { state := .frame, fbuf := [], ovf := false }, res := .rxByte none none }) ∧
    ((∀ m, s.cfg.frameMax = some m → s.rx.fbuf.length < m) →
      (s.cfg.stxInFrame = .literal →
        exec .stx s = .next { s with rx := { s.rx with fbuf := s.rx.fbuf ++ [0x02#8] }
                                     res := .rxByte none none }) ∧
      exec (.ctl 0#1) s = .next { s with rx := { s.rx with fbuf := s.rx.fbuf ++ [0x00#8] }
                                         res := .rxByte none none } ∧
      exec (.ctl 1#1) s = .next { s with rx := { s.rx with fbuf := s.rx.fbuf ++ [0x01#8] }
                                         res := .rxByte none none } ∧
      (∀ b : Byte, 5 ≤ b.toNat →
        exec (.lit b) s = .next { s with rx := { s.rx with fbuf := s.rx.fbuf ++ [b] }
                                         res := .rxByte none none })) ∧
    (∀ m, s.cfg.frameMax = some m → m ≤ s.rx.fbuf.length →
      (s.cfg.stxInFrame = .literal →
        exec .stx s = .next { s with rx := { s.rx with ovf := true }, res := .rxByte none none }) ∧
      (∀ x : BitVec 1, exec (.ctl x) s = .next { s with rx := { s.rx with ovf := true }, res := .rxByte none none }) ∧
      (∀ b : Byte, 5 ≤ b.toNat →
        exec (.lit b) s = .next { s with rx := { s.rx with ovf := true }, res := .rxByte none none })) ∧
    (∀ b : Byte, exec (.rxByte b) s = exec (classifyByte b) s)

/-- R178 and the last row of R172: after `ESC` every byte, markers and `ESC` included, is an operand, and the frame goes
on. With room one byte is appended: `(e - 64) mod 256` under the default `ESC_DECODE`, 0..4 for the canonical operands
under every legal one. With the buffer full the byte is dropped and recorded (R23). -/
def Obligations.EscapeOperandIsNeverAMarker : Prop :=
  ∀ (s : State) (b : Byte), s.rx.state = .frameEsc →
    ((∀ m, s.cfg.frameMax = some m → s.rx.fbuf.length < m) →
      ∃ x : Byte,
        (s.cfg.escOverrides = [] → (x.toNat : Int) = ((b.toNat : Int) - 64) % 256) ∧
        (escDecodeOk s.cfg = true → ∀ v, v < 5 → b.toNat = v + 64 → x.toNat = v) ∧
        exec (.rxByte b) s = .next { s with rx := { s.rx with state := .frame, fbuf := s.rx.fbuf ++ [x] }
                                            res := .rxByte none none }) ∧
    (∀ m, s.cfg.frameMax = some m → m ≤ s.rx.fbuf.length →
      exec (.rxByte b) s = .next { s with rx := { s.rx with state := .frame, ovf := true }
                                          res := .rxByte none none }) ∧
    exec (classifyByte b) s = exec (.rxByte b) s

/-- R179, R180: the closing `ETX` delivers the content if the two checksum words hold `crc16` of it in 30 bits, else
`FrameChecksumError` with all literal bytes, and in either case leaves RX idle and clear (R273). -/
def Obligations.ClosingEtxValidatesTheFrame : Prop :=
  ∀ s : State, s.rx.state = .frame →
    (s.rx.ovf = true ∨ s.rx.fbuf.length < 4 →
      exec .etx s = .next { s with rx := { state := .idle, fbuf := [], ovf := false }
                                   res := .rxByte none (some (.ckErr s.rx.fbuf)) }) ∧
    (∀ (content : List Byte) (a0 a1 b0 b1 : Byte), s.rx.ovf = false → s.rx.fbuf = content ++ [a0, a1, b0, b1] →
      ((a0.toNat + 256 * a1.toNat) % 32768 + 32768 * ((b0.toNat + 256 * b1.toNat) % 32768) = (crc16 content).toNat →
        exec .etx s = .next { s with rx := { state := .idle, fbuf := [], ovf := false }
                                     res := .rxByte none (some (.frame content)) }) ∧
      ((a0.toNat + 256 * a1.toNat) % 32768 + 32768 * ((b0.toNat + 256 * b1.toNat) % 32768) ≠ (crc16 content).toNat →
        exec .etx s = .next { s with rx := { state := .idle, fbuf := [], ovf := false }
                                     res := .rxByte none (some (.ckErr s.rx.fbuf)) }))

/-- R181 (a), R165: a frame that would be delivered is rejected if one byte of its content is another. -/
def Obligations.OneChangedContentByteIsRejected : Prop :=
  ∀ (s t t' : State) (before after cks : List Byte) (b b' : Byte),
    s.rx.state = .frame → s.rx.fbuf = before ++ b :: after ++ cks → cks.length = 4 → b ≠ b' →
    exec .etx s = .next t → t.res = .rxByte none (some (.frame (before ++ b :: after))) →
    exec .etx { s with rx := { s.rx with fbuf := before ++ b' :: after ++ cks } } = .next t' →
    t'.res = .rxByte none (some (.ckErr (before ++ b' :: after ++ cks)))

/-- R95, R178, R172: inside a frame with room the canonical pairs stand for 0x00..0x04 under every legal `ESC_DECODE`, and
any other pair for `(e - 64) mod 256` under the default one; with the buffer full their byte is dropped and recorded
(R23). -/
def Obligations.PairsStandForTheirLiteralByte : Prop :=
  ∀ s : State, s.rx.state = .frame →
    ((∀ m, s.cfg.frameMax = some m → s.rx.fbuf.length < m) →
      (escDecodeOk s.cfg = true →
        ∀ ik ∈ [(Instr.ep0, 0x00#8), (.ep1, 0x01#8), (.ep2, 0x02#8), (.ep3, 0x03#8), (.ep4, 0x04#8)],
          exec ik.1 s =
            .next { s with rx := { s.rx with fbuf := s.rx.fbuf ++ [ik.2] }, res := .rxFeed .none 2 [] [] }) ∧
      (∀ e : Byte, ∃ x : Byte,
        (s.cfg.escOverrides = [] → (x.toNat : Int) = ((e.toNat : Int) - 64) % 256) ∧
        exec (.epx e) s =
          .next { s with rx := { s.rx with fbuf := s.rx.fbuf ++ [x] }, res := .rxFeed .none 2 [] [] })) ∧
    (∀ m, s.cfg.frameMax = some m → m ≤ s.rx.fbuf.length → ∀ i : Instr, IsPair i →
      exec i s = .next { s with rx := { s.rx with ovf := true }, res := .rxFeed .none 2 [] [] })

/-- R94, R171, R182: in every state an escape pair does what its two bytes do one after the other. -/
def Obligations.PairIsItsTwoBytes : Prop :=
  ∀ (s : State) (e : Byte), ∃ t t1 t2 : State,
    exec (classifyPair e) s = .next t ∧ exec (.rxByte 0x04#8) s = .next t1 ∧ exec (.rxByte e) t1 = .next t2 ∧
    t = { t2 with res := t.res } ∧ t.res.rxOutputs = t1.res.rxOutputs ++ t2.res.rxOutputs

/-- R182: from every state `RX.FEED` completes. It processes a prefix of its bytes as `RX.BYTE` would and returns its
passthrough bytes and the event that ended it. Without an event it takes all bytes; with one, the event comes from the
last byte taken: the bytes before that one give passthrough bytes only. -/
def Obligations.FeedIsByteByByte : Prop :=
  ∀ s : State, ∃ (event : FeedEvent) (n : Nat) (pts data : List Byte) (rx : RxUnit),
    exec .rxFeed s = .next { s with rx := rx, res := .rxFeed event n pts data } ∧
    n ≤ s.ports.bytes.length ∧
    (feedBytes (s.ports.bytes.take n) s).1 = (Result.rxFeed event n pts data).rxOutputs ∧
    (feedBytes (s.ports.bytes.take n) s).2.rx = rx ∧
    (event = .none → n = s.ports.bytes.length ∧ data = []) ∧
    (event ≠ .none → 0 < n ∧
      ∀ o ∈ (feedBytes (s.ports.bytes.take (n - 1)) s).1, ∃ b : Byte, o = .passthrough b)

/-- R184, chunk-size independence: feeding a byte sequence in any partition gives the outputs and the state that
feeding it byte by byte gives. -/
def Obligations.ReceptionIsChunkIndependent : Prop :=
  ∀ (chunks : List (List Byte)) (s : State),
    (feedChunks chunks s).1 = (feedBytes chunks.flatten s).1 ∧
    (feedChunks chunks s).2.sameBlock (feedBytes chunks.flatten s).2

/-- R186: passthrough bytes come unmodified and in arrival order, never 0x02, and never 0x03 where `ETX_IN_IDLE` is
`DROP`. -/
def Obligations.PassthroughGuarantees : Prop :=
  ∀ (bytes : List Byte) (s : State),
    (passed (feedBytes bytes s).1).Sublist bytes ∧
    0x02#8 ∉ passed (feedBytes bytes s).1 ∧
    (s.cfg.etxInIdle = .drop → 0x03#8 ∉ passed (feedBytes bytes s).1)

/-- R76: nothing the host does through BC, CRC, TX, TD or AT changes how later serial bytes are interpreted. -/
def Obligations.OtherUnitsDoNotDisturbReception : Prop :=
  ∀ (ops : List Op) (bytes : List Byte) (s : State),
    (∀ o ∈ ops, ¬ Receives o.1 ∧ o.1 ∉ [Instr.rxRst, .sysRst]) →
    (feedAll bytes (observe ops s).2).1 = (feedAll bytes s).1 ∧
    (feedAll bytes (observe ops s).2).2.rx = (feedAll bytes s).2.rx

/-! ## Unit TX -/

/-- R203, R205, R93, R201: `TX.FRAME` emits one `STX`, a body with no byte 0x00..0x03, one `ETX`; the body unescapes
to the payload and its checksum words; its length is as R205 says; nothing of the block changes. -/
def Obligations.FrameHasTheWireShape : Prop :=
  ∀ s : State, s.ports.payload.length % 2 = 0 → escDecodeOk s.cfg = true →
    ∃ (body cks : List Byte), exec .txFrame s = .next { s with res := .bytes ([0x02#8] ++ body ++ [0x03#8]) } ∧
      (∀ x ∈ body, 3 < x.toNat) ∧
      unescape s.cfg body = s.ports.payload ++ cks ∧
      body.length = (s.ports.payload ++ cks).length + ((s.ports.payload ++ cks).filter fun x => x.toNat ≤ 4).length ∧
      cks.length = 4 ∧ cks.getD 3 0xFF#8 = 0x00#8 ∧ (cks.getD 2 0#8).toNat < 2 ∧ (cks.getD 1 0#8).toNat < 128 ∧
      (cks.getD 0 0#8).toNat + 256 * (cks.getD 1 0#8).toNat + 32768 * (cks.getD 2 0#8).toNat =
        (crc16 s.ports.payload).toNat

/-- R201, R202: `unescape` undoes `escape` under every legal `ESC_DECODE`; `escape` adds one byte for each byte 0..4
and leaves none in 0x00..0x03. -/
def Obligations.UnescapeUndoesEscape : Prop :=
  ∀ (p : Config.Params) (bytes : List Byte), escDecodeOk p = true →
    unescape p (escape bytes) = bytes ∧
    (escape bytes).length = bytes.length + (bytes.filter fun x => x.toNat ≤ 4).length ∧
    ∀ x ∈ escape bytes, 3 < x.toNat

/-- R204: the four checksum bytes of a frame are what `BC.WR 16 c` at a fresh buffer and `BC.WTAKE` produce. -/
def Obligations.ChecksumBytesAreASixteenBitField : Prop :=
  ∀ (s : State) (payload : List Byte), (∀ m, s.cfg.wbufMax = some m → 2 ≤ m) → payload.length % 2 = 0 →
    ∃ cks : List Byte,
      (observe [.plain .bcWinit, writeOp 16#6 ((crc16 payload).toNat : Int), .plain .bcWtake] s).1 =
        [.ok, .ok, .bytes cks] ∧
      (observe [frameOp payload] s).1 = [.bytes ([0x02#8] ++ escape (payload ++ cks) ++ [0x03#8])]

/-- R187, the frame round trip: a framed payload fed to an idle receiver in any partition gives no passthrough byte
and exactly one event, the payload, at the final `ETX`, under every value of the OPEN parameters that leaves room for
the frame. -/
def Obligations.FramedPayloadIsReceived : Prop :=
  ∀ (s : State) (payload : List Byte) (chunks : List (List Byte)) (wire : List Byte),
    s.wf → s.rx.state = .idle → payload.length % 2 = 0 →
    (∀ m, s.cfg.frameMax = some m → payload.length + 4 ≤ m) →
    (observe [frameOp payload] s).1 = [.bytes wire] → chunks.flatten = wire →
    (feedChunks chunks (observe [frameOp payload] s).2).1 = [.event (.frame payload)] ∧
    (feedChunks chunks (observe [frameOp payload] s).2).2.sameBlock s ∧
    (feedBytes wire.dropLast s).1 = []

/-! ## Unit TD -/

/-- R218, R215: a full frame is read field by field, accepted whatever the counter was, resets the counter and replaces
the previous snapshot; from the bit stream in mode `PACKED`, one list element a read in mode `RAW` (R135; log 24). -/
def Obligations.FullPayloadIsDecoded : Prop :=
  ∀ s : State, s.cfg.hasTd = true → schemaOk s.cfg.schema = true →
    (s.rc.mode = .packed → streamBit s.rc.buf s.rc.bitPos = true →
      exec .tdDec s = .next
        { s with rc := s.rc.seek (s.rc.bitPos + 1 + (s.cfg.schema.map fun f => f.width).sum)
                 td := { s.td with rxSeq := 0#4, rxPrev := fullAt s.rc.buf s.cfg.schema (s.rc.bitPos + 1) }
                 res := .snapshot (fullAt s.rc.buf s.cfg.schema (s.rc.bitPos + 1)) true }) ∧
    (s.rc.mode = .raw → rawAt s.rc.raw 1 false s.rc.idx = 1 →
      exec .tdDec s = .next
        { s with rc := { s.rc with idx := s.rc.idx + 1 + s.cfg.schema.length }
                 td := { s.td with rxSeq := 0#4, rxPrev := fullRaw s.rc.raw s.cfg.schema (s.rc.idx + 1) }
                 res := .snapshot (fullRaw s.rc.raw s.cfg.schema (s.rc.idx + 1)) true })

/-- R219, R215: an incremental frame that carries the expected number advances it by 1 modulo 16, reads the present
fields and carries the others forward; in mode `PACKED` and in mode `RAW` (R135; log 24). -/
def Obligations.IncrementalPayloadIsDecoded : Prop :=
  ∀ s : State, s.cfg.hasTd = true → schemaOk s.cfg.schema = true →
    ∃ seq : BitVec 4, seq.toNat = (s.td.rxSeq.toNat + 1) % 16 ∧
      (s.rc.mode = .packed → streamBit s.rc.buf s.rc.bitPos = false →
        fieldValue s.rc.buf (s.rc.bitPos + 1) 4 = s.td.rxSeq.toNat →
        exec .tdDec s = .next
          { s with rc := s.rc.seek (deltaAt s.rc.buf s.cfg.schema s.td.rxPrev (s.rc.bitPos + 5)).2
                   td := { s.td with
                           rxSeq := seq
                           rxPrev := (deltaAt s.rc.buf s.cfg.schema s.td.rxPrev (s.rc.bitPos + 5)).1 }
                   res := .snapshot (deltaAt s.rc.buf s.cfg.schema s.td.rxPrev (s.rc.bitPos + 5)).1 false }) ∧
      (s.rc.mode = .raw → rawAt s.rc.raw 1 false s.rc.idx = 0 →
        rawAt s.rc.raw 4 false (s.rc.idx + 1) = s.td.rxSeq.toNat →
        exec .tdDec s = .next
          { s with rc := { s.rc with idx := (deltaRaw s.rc.raw s.cfg.schema s.td.rxPrev (s.rc.idx + 2)).2 }
                   td := { s.td with
                           rxSeq := seq
                           rxPrev := (deltaRaw s.rc.raw s.cfg.schema s.td.rxPrev (s.rc.idx + 2)).1 }
                   res := .snapshot (deltaRaw s.rc.raw s.cfg.schema s.td.rxPrev (s.rc.idx + 2)).1 false })

/-- R220, R274, R215: an incremental frame with another number is a `TelemetryDesync` with both numbers; the decoder is
unchanged and only the 5 bits, in mode `RAW` the 2 list elements (R135; log 24), have been read. -/
def Obligations.DesyncLeavesTheDecoderUnchanged : Prop :=
  ∀ s : State, s.cfg.hasTd = true →
    (s.rc.mode = .packed → streamBit s.rc.buf s.rc.bitPos = false →
      fieldValue s.rc.buf (s.rc.bitPos + 1) 4 ≠ s.td.rxSeq.toNat →
      ∃ got : BitVec 4, got.toNat = fieldValue s.rc.buf (s.rc.bitPos + 1) 4 ∧
        exec .tdDec s = .next { s with rc := s.rc.seek (s.rc.bitPos + 5)
                                       res := .error (.telemetryDesync s.td.rxSeq got) }) ∧
    (s.rc.mode = .raw → rawAt s.rc.raw 1 false s.rc.idx = 0 →
      rawAt s.rc.raw 4 false (s.rc.idx + 1) ≠ s.td.rxSeq.toNat →
      ∃ got : BitVec 4, (got.toNat : Int) = rawAt s.rc.raw 4 false (s.rc.idx + 1) ∧
        exec .tdDec s = .next { s with rc := { s.rc with idx := s.rc.idx + 2 }
                                       res := .error (.telemetryDesync s.td.rxSeq got) })

/-- R223: `TD.ENC` appends exactly the fields of format `DP` (R101) as `BC.WR` would, and the encoder remembers the
snapshot and the next number. -/
def Obligations.EncodeWritesThePayload : Prop :=
  ∀ (s : State) (full : Bool), s.wf → ¬ Refused (.tdEnc full) s →
    ∃ seq : BitVec 4, seq.toNat = (if full then 0 else (s.td.txSeq.toNat + 1) % 16) ∧
      exec (.tdEnc full) s = .next
        { s with wc := (observe ((payloadOf full s s.ports.snapshot).map
                    fun f => writeOp (BitVec.ofNat 6 f.1) f.2) s).2.wc
                 td := { s.td with txSeq := seq, txPrev := s.ports.snapshot }
                 res := .ok }

/-- R227, the idempotence law: a snapshot sent full and then incrementally is received as it was sent; the second
payload is 5 + F zero bits, and both counters are then 1. Both payloads must fit in `WBUF_MAX` (R223). -/
def Obligations.ResentSnapshotChangesNoField : Prop :=
  ∀ (s : State) (x : Snapshot), s.wf → s.cfg.hasTd = true → IsSnapshot s.cfg.schema x →
    AllFit s s.td.txPrev [(true, x), (false, x)] →
    ∃ s1 s2 : State, exchange true x s = (.snapshot x true, s1) ∧ exchange false x s1 = (.snapshot x false, s2) ∧
      s1.td.rxSeq = 0#4 ∧ s1.td.txSeq = 0#4 ∧ s2.td.rxSeq = 1#4 ∧ s2.td.txSeq = 1#4 ∧
      s2.wc.bitPos = 5 + s.cfg.schema.length ∧ ∀ k, wordsBit s2.wc.words k = false

/-- R229, first sentence, the lock-step law: payloads sent from a full one on and received in order without loss are
all received as sent, and after them decoder and encoder agree. It holds of every such sequence, so after each
payload of one. Each payload must fit in `WBUF_MAX` (R223). -/
def Obligations.LosslessLinkStaysInLockStep : Prop :=
  ∀ (s : State) (x : Snapshot) (xs : List (Bool × Snapshot)), s.wf → s.cfg.hasTd = true →
    IsSnapshot s.cfg.schema x → (∀ y ∈ xs, IsSnapshot s.cfg.schema y.2) → AllFit s s.td.txPrev ((true, x) :: xs) →
    (exchanges ((true, x) :: xs) s).1 = ((true, x) :: xs).map (fun y => .snapshot y.2 y.1) ∧
    LockStep (exchanges ((true, x) :: xs) s).2

/-- R229, second sentence: after `k` lost incremental payloads the next one is rejected unless `k` is a multiple
of 16. Each payload must fit in `WBUF_MAX` (R223). -/
def Obligations.GapIsSeenUnlessAMultipleOfSixteen : Prop :=
  ∀ (s : State) (lost : List Snapshot) (x : Snapshot), s.wf → s.cfg.hasTd = true →
    LockStep s → (∀ y ∈ lost, IsSnapshot s.cfg.schema y) → IsSnapshot s.cfg.schema x →
    AllFit s s.td.txPrev ((lost ++ [x]).map fun y => (false, y)) →
    ((∃ a b, (exchange false x
        (observe (lost.flatMap fun y => [.plain .bcWinit, encOp false y]) s).2).1 =
          .error (.telemetryDesync a b)) ↔ lost.length % 16 ≠ 0)

/-! ## Unit AT -/

/-- R103: `be64` and `from_be64` are inverse; `from_be64` is the weighted sum. -/
def Obligations.BigEndianRoundTrip : Prop :=
  (∀ x, x < 2 ^ 64 → (be64 x).length = 8 ∧ fromBe64 (be64 x) = x ∧
    ∀ k, k < 8 → ((be64 x).getD k 0#8).toNat = x / 256 ^ (7 - k) % 256) ∧
  (∀ b : List Byte, b.length = 8 → be64 (fromBe64 b) = b ∧
    fromBe64 b = ((List.range 8).map fun k => (b.getD k 0#8).toNat * 256 ^ (7 - k)).sum)

/-- R242, R241, R102: `AT.BUILD` returns digest, timestamp and payload, and changes nothing. -/
def Obligations.BuildMakesASignedPacket : Prop :=
  ∀ (s : State) (i : Byte), ¬ Refused (.atBuild i) s →
    ∃ packet : List Byte, exec (.atBuild i) s = .next { s with res := .bytes packet } ∧
      packet.length = 40 + s.ports.payload.length ∧ SignedBy s.ports.key packet ∧
      stampNat packet = s.ports.nowMs ∧ packet.drop 40 = s.ports.payload

/-- R243, R249, R251: a signed, fresh, unseen packet is accepted; the window afterwards holds, strictly ascending, its
timestamp and exactly the old entries not below `now_ms - window_ms`. -/
def Obligations.FreshSignedPacketIsAccepted : Prop :=
  ∀ (s : State) (i : Byte) (ts : Stamp), s.wf → ¬ Refused (.atVerify i) s → 40 ≤ s.ports.packet.length →
    SignedBy s.ports.key s.ports.packet → ts.toNat = stampNat s.ports.packet →
    earliest s.ports ≤ ts.toNat → (ts.toNat : Int) ≤ latest s.ports → ts ∉ s.winOf i.toNat →
    (∀ m, s.cfg.rwCap = some m →
      ((s.winOf i.toNat).filter fun e => decide (earliest s.ports ≤ (e.toNat : Int))).length < m) →
    ∃ win : List Stamp,
      exec (.atVerify i) s = .next { s with win := s.win.set i.toNat win
                                            res := .verified ts (s.ports.packet.drop 40) } ∧
      win.Pairwise (fun a b => a.toNat < b.toNat) ∧
      ∀ e, e ∈ win ↔ e = ts ∨ (e ∈ s.winOf i.toNat ∧ earliest s.ports ≤ e.toNat)

/-- R243 to R248, R280: the checks in their order; the first that fails decides the error, and nothing else
changes. -/
def Obligations.FirstFailingCheckDecidesTheError : Prop :=
  ∀ (s : State) (i : Byte) (ts : Stamp), s.wf → ¬ Refused (.atVerify i) s →
    (s.ports.packet.length < 40 → exec (.atVerify i) s = .next { s with res := .error .tooShort }) ∧
    (40 ≤ s.ports.packet.length →
      (¬ SignedBy s.ports.key s.ports.packet →
        exec (.atVerify i) s = .next { s with res := .error .badSignature }) ∧
      (SignedBy s.ports.key s.ports.packet → ts.toNat = stampNat s.ports.packet →
        ((ts.toNat : Int) < earliest s.ports →
          exec (.atVerify i) s = .next { s with res := .error (.tooOld ts) }) ∧
        (earliest s.ports ≤ (ts.toNat : Int) → latest s.ports < (ts.toNat : Int) →
          exec (.atVerify i) s = .next { s with res := .error (.tooNew ts) }) ∧
        (earliest s.ports ≤ (ts.toNat : Int) → (ts.toNat : Int) ≤ latest s.ports →
          (ts ∈ s.winOf i.toNat → exec (.atVerify i) s = .next { s with res := .error (.replayed ts) }) ∧
          (ts ∉ s.winOf i.toNat → ∀ m, s.cfg.rwCap = some m →
            m ≤ ((s.winOf i.toNat).filter fun e => decide (earliest s.ports ≤ (e.toNat : Int))).length →
            exec (.atVerify i) s = .next { s with res := .error .windowFull }))))

/-- R250: an `AT.VERIFY` that does not succeed changes nothing but the result. -/
def Obligations.FailedVerifyLeavesNoTrace : Prop :=
  ∀ (s t : State) (i : Byte), exec (.atVerify i) s = .next t → (∀ ts payload, t.res ≠ .verified ts payload) →
    t = { s with res := t.res }

/-- R252: what `AT.BUILD` made verifies at the same time under every window width, if its timestamp is not in the
window. -/
def Obligations.BuiltPacketVerifies : Prop :=
  ∀ (s t : State) (i : Byte) (packet : List Byte) (ts : Stamp) (windowMs : Nat),
    s.wf → exec (.atBuild i) s = .next t → t.res = .bytes packet → ts.toNat = s.ports.nowMs →
    s.cfg.rwCap = none → ts ∉ s.winOf i.toNat →
    ∃ win : List Stamp, ts ∈ win ∧
      exec (.atVerify i) { t with ports := { t.ports with packet := packet, windowMs := windowMs } } =
        .next { s with win := s.win.set i.toNat win
                       ports := { s.ports with packet := packet, windowMs := windowMs }
                       res := .verified ts s.ports.payload }

/-- R247: after a success, the identical call is `Replayed`, and so is every other signed packet that carries the same
timestamp while it is fresh. -/
def Obligations.SameTimestampIsReplayed : Prop :=
  ∀ (s t : State) (i : Byte) (ts : Stamp) (payload : List Byte), s.wf → exec (.atVerify i) s = .next t →
    t.res = .verified ts payload →
    exec (.atVerify i) t = .next { t with res := .error (.replayed ts) } ∧
    ∀ p : Ports, ¬ Refused (.atVerify i) { t with ports := p } → 40 ≤ p.packet.length → SignedBy p.key p.packet →
      stampNat p.packet = ts.toNat → earliest p ≤ ts.toNat → (ts.toNat : Int) ≤ latest p →
      exec (.atVerify i) { t with ports := p } = .next { t with ports := p, res := .error (.replayed ts) }

/-- R30, R286, R316: instances are independent: what `AT.VERIFY i` answers and leaves in its window depends on no
other window, and it changes no other. -/
def Obligations.InstancesAreIndependent : Prop :=
  ∀ (s s' t t' : State) (i : Byte), s.wf → s'.wf → s.cfg = s'.cfg → s.ports = s'.ports →
    s.winOf i.toNat = s'.winOf i.toNat → exec (.atVerify i) s = .next t → exec (.atVerify i) s' = .next t' →
    t.res = t'.res ∧ t.winOf i.toNat = t'.winOf i.toNat ∧ ∀ k, k ≠ i.toNat → t.winOf k = s.winOf k

/-- R254, the part that needs no assumption on HMAC: a built packet with any change in its digest is
`BadSignature`. -/
def Obligations.ChangedDigestIsBadSignature : Prop :=
  ∀ (s t : State) (i : Byte) (packet forged : List Byte) (windowMs nowMs : Nat),
    exec (.atBuild i) s = .next t → t.res = .bytes packet → forged.length = packet.length → forged ≠ packet →
    forged.drop 32 = packet.drop 32 →
    exec (.atVerify i) { t with ports := { s.ports with packet := forged, windowMs := windowMs, nowMs := nowMs } } =
      .next { s with ports := { s.ports with packet := forged, windowMs := windowMs, nowMs := nowMs }
                     res := .error .badSignature }

/-! ## Reset -/

/-- R185, R226, R253: `RX.RST`, `TD.RST` and `AT.RST i` reset their own unit or window and nothing else; without
`HAS_TD`, or with no such instance, the last two are refused. -/
def Obligations.UnitResetsResetTheirOwnUnit : Prop :=
  (decodeCmd 0x3200#16 = .ok .rxRst ∧ decodeCmd 0x5200#16 = .ok .tdRst ∧
    ∀ i : Byte, decodeCmd (BitVec.ofNat 16 (0x6200 + i.toNat)) = .ok (.atRst i)) ∧
  (∀ s : State, exec .rxRst s = .next { s with rx := { state := .idle, fbuf := [], ovf := false }, res := .ok }) ∧
  (∀ s : State,
    (s.cfg.hasTd = true → exec .tdRst s = .next
      { s with td := { rxPrev := List.replicate s.cfg.schema.length 0, rxSeq := 0#4
                       txPrev := List.replicate s.cfg.schema.length 0, txSeq := 0#4 }
               res := .ok }) ∧
    (s.cfg.hasTd = false → exec .tdRst s = .next { s with res := .error .illegalOperand })) ∧
  (∀ (s : State) (i : Byte),
    (i.toNat < s.cfg.nAuth → exec (.atRst i) s = .next { s with win := s.win.set i.toNat [], res := .ok }) ∧
    (s.cfg.nAuth ≤ i.toNat → exec (.atRst i) s = .next { s with res := .error .illegalOperand }))

/-- R300, R301: `SYS.RST` puts every element at its reset value, from every state. That it leaves the inputs and the ports
is the model's choice (assumption log 17). -/
def Obligations.SysResetSetsEveryElement : Prop :=
  decodeCmd 0xFF00#16 = .ok .sysRst ∧
  ∀ s : State, ∃ t : State, exec .sysRst s = .next t ∧ t.res = .ok ∧
    t.rx.state = .idle ∧ t.rx.fbuf = [] ∧ t.rx.ovf = false ∧ t.crcAcc = 0xFFFF#16 ∧
    t.rc.mode = .packed ∧ t.rc.buf = [] ∧ t.rc.raw = [] ∧ t.rc.w = 0 ∧ t.rc.o = 0 ∧ t.rc.idx = 0 ∧
    t.wc.words = [] ∧ t.wc.w = 0 ∧ t.wc.o = 0 ∧
    t.win.length = s.cfg.nAuth ∧ (∀ k, t.winOf k = []) ∧
    t.td.rxSeq = 0#4 ∧ t.td.txSeq = 0#4 ∧ t.td.rxPrev = List.replicate s.cfg.schema.length 0 ∧
    t.td.txPrev = List.replicate s.cfg.schema.length 0 ∧
    t.cfg = s.cfg ∧ t.inputs = s.inputs ∧ t.ports = s.ports

/-- R302: `SYS.RST` equals the unit resets issued together. -/
def Obligations.UnitResetsTogetherAreSysReset : Prop :=
  ∀ (s t : State), s.wf → s.cfg.hasTd = true → s.cfg.hasRawMode = true → s.cfg.nAuth ≤ 256 →
    exec .sysRst s = .next t →
    (observe ([Op.plain .rxRst, Op.plain .tdRst] ++
      (List.range s.cfg.nAuth).map (fun k => Op.plain (.atRst (BitVec.ofNat 8 k))) ++
      [Op.plain .crcInit, Op.plain .bcLoadraw, Op.plain .bcLoad, Op.plain .bcWinit]) s).2.sameBlock t

/-- R303: directly after reset a read returns 0 and moves the cursor, the write buffer is empty, the accumulator is
0xFFFF, and an empty payload is judged against sequence 0 and the zero snapshot. -/
def Obligations.FirstOperationsAfterReset : Prop :=
  ∀ (p : Config.Params) (n : BitVec 6), paramsOk p = true → 1 ≤ n.toNat → n.toNat ≤ 32 →
    (observe [.plain (.bcRd n)] (State.resetWith p)).1 = [.unsigned 0] ∧
    (observe [.plain (.bcRd n)] (State.resetWith p)).2.rc.bitPos = n.toNat ∧
    (observe [.plain .bcWtake, .plain .crcGet] (State.resetWith p)).1 = [.bytes [], .crc 0xFFFF#16] ∧
    (p.hasTd = true → (observe [.plain .tdDec] (State.resetWith p)).1 =
      [.snapshot (List.replicate p.schema.length 0) false])
end

