-- ==== Sys2Proof/Laws/Operands.lean ====
section
/-! SUPPORT. The operand forms: what each check and each conversion says, once. -/

namespace Sys2Proof.Machine

open Sys2Proof.Config (Params Field)

/-! ## Checks -/

theorem widthLegal_iff (n : BitVec 6) : widthLegal n = true ↔ 1 ≤ n.toNat ∧ n.toNat ≤ 32 := by
  simp only [widthLegal, Bool.and_eq_true, decide_eq_true_eq]; rfl

theorem widthLegal_false_iff (n : BitVec 6) : widthLegal n = false ↔ n.toNat = 0 ∨ 32 < n.toNat := by
  rw [← Bool.not_eq_true, widthLegal_iff]; omega

theorem instanceLegal_iff (p : Params) (i : Byte) : instanceLegal p i = true ↔ i.toNat < p.nAuth := by
  simp [instanceLegal]

theorem withinCap_iff (cap : Option Nat) (n : Nat) : withinCap cap n = true ↔ ∀ m, cap = some m → n ≤ m := by
  cases cap <;> simp [withinCap]

theorem withinCap_false_iff (cap : Option Nat) (n : Nat) : withinCap cap n = false ↔ ∃ m, cap = some m ∧ m < n := by
  cases cap <;> simp [withinCap]

theorem withinCap_mono {cap : Option Nat} {m n : Nat} (h : withinCap cap n = true) (hmn : m ≤ n) :
    withinCap cap m = true := by
  rw [withinCap_iff] at *
  intro c hc; have := h c hc; omega

/-- A snapshot is legal exactly when it has a value in range for each field. -/
theorem snapshotLegal_iff (schema : List Field) (x : Snapshot) :
    snapshotLegal schema x = true ↔
      x.length = schema.length ∧ ∀ fx ∈ schema.zip x, fieldInRange fx.1 fx.2 = true := by
  induction schema generalizing x with
  | nil => cases x <;> simp [snapshotLegal]
  | cons f fs ih =>
    cases x with
    | nil => simp [snapshotLegal]
    | cons v x => simp [snapshotLegal, ih]; tauto

/-- The snapshot of zeros is legal under every schema. -/
theorem snapshotLegal_zero (schema : List Field) : snapshotLegal schema (zeroSnapshot schema) = true := by
  induction schema with
  | nil => rfl
  | cons f fs ih =>
    have h : fieldInRange f 0 = true := by
      unfold fieldInRange
      split <;> simp
    simpa [zeroSnapshot, snapshotLegal, h] using ih

theorem schemaOk_cons {f : Field} {fs : List Field} (h : schemaOk (f :: fs) = true) :
    1 ≤ f.width ∧ f.width ≤ 32 ∧ schemaOk fs = true := by
  simp only [schemaOk, List.all_cons, List.map_cons, Bool.and_eq_true, decide_eq_true_eq, List.nodup_cons] at *
  exact ⟨h.1.1.1, h.1.1.2, h.1.2, h.2.2⟩

/-! ## `trunc` and `sext` (R11) -/

theorem trunc_cast (n : Nat) (x : Int) : (trunc n x : Int) = x % 2 ^ n :=
  Int.toNat_of_nonneg (Int.emod_nonneg x (by positivity))

theorem trunc_lt (n : Nat) (x : Int) : trunc n x < 2 ^ n := by
  have h := trunc_cast n x
  have h2 := Int.emod_lt_of_pos x (b := 2 ^ n) (by positivity)
  rw [← h] at h2
  exact_mod_cast h2

theorem trunc_of_range {n : Nat} {x : Int} (h0 : 0 ≤ x) (h : x < 2 ^ n) : (trunc n x : Int) = x := by
  rw [trunc_cast, Int.emod_eq_of_lt h0 h]

/-- Of a pattern below `2^n` the top bit says whether it is in the upper half. -/
theorem testBit_top {n v : Nat} (hn : 1 ≤ n) (hv : v < 2 ^ n) : v.testBit (n - 1) = decide (2 ^ (n - 1) ≤ v) := by
  obtain ⟨m, rfl⟩ : ∃ m, n = m + 1 := ⟨n - 1, by omega⟩
  simp only [Nat.add_sub_cancel]
  by_cases h : 2 ^ m ≤ v
  · rw [decide_eq_true h]
    have h2 : v = 2 ^ m + (v - 2 ^ m) := by omega
    have h3 : v - 2 ^ m < 2 ^ m := by rw [Nat.pow_succ] at hv; omega
    rw [h2, Nat.testBit_two_pow_add_eq, Nat.testBit_lt_two_pow h3]; rfl
  · rw [decide_eq_false h]; exact Nat.testBit_lt_two_pow (by omega)

theorem sext_eq {n v : Nat} (hn : 1 ≤ n) (hv : v < 2 ^ n) :
    sext n v = if 2 ^ (n - 1) ≤ v then (v : Int) - 2 ^ n else v := by
  rw [sext, testBit_top hn hv]
  by_cases h : 2 ^ (n - 1) ≤ v <;> simp [h]

theorem sext_range {n v : Nat} (hn : 1 ≤ n) (hv : v < 2 ^ n) :
    -(2 ^ (n - 1)) ≤ sext n v ∧ sext n v < 2 ^ (n - 1) := by
  rw [sext_eq hn hv]
  obtain ⟨m, rfl⟩ : ∃ m, n = m + 1 := ⟨n - 1, by omega⟩
  simp only [Nat.add_sub_cancel]
  have hp : (2 : Int) ^ (m + 1) = 2 ^ m + 2 ^ m := by rw [pow_succ]; ring
  have hv' : (v : Int) < 2 ^ (m + 1) := by exact_mod_cast hv
  split
  · rename_i h
    have h' : (2 : Int) ^ m ≤ v := by exact_mod_cast h
    omega
  · rename_i h
    have h' : (v : Int) < 2 ^ m := by exact_mod_cast (Nat.lt_of_not_le h)
    omega

/-- A signed value in range survives its bit pattern. -/
theorem sext_trunc {n : Nat} {x : Int} (hn : 1 ≤ n) (h0 : -(2 ^ (n - 1)) ≤ x) (h1 : x < 2 ^ (n - 1)) :
    sext n (trunc n x) = x := by
  rw [sext_eq hn (trunc_lt n x)]
  obtain ⟨m, rfl⟩ : ∃ m, n = m + 1 := ⟨n - 1, by omega⟩
  simp only [Nat.add_sub_cancel] at *
  have hp : (2 : Int) ^ (m + 1) = 2 ^ m + 2 ^ m := by rw [pow_succ]; ring
  have hpos : (0 : Int) < 2 ^ m := by positivity
  have hc : ((2 ^ m : Nat) : Int) = 2 ^ m := by push_cast; rfl
  by_cases hx : 0 ≤ x
  · have e := trunc_of_range hx (n := m + 1) (by omega)
    rw [if_neg (by omega), e]
  · have e : (trunc (m + 1) x : Int) = x + 2 ^ (m + 1) := by
      rw [trunc_cast, ← Int.add_emod_right, Int.emod_eq_of_lt (by omega) (by omega)]
    rw [if_pos (by omega), e]; omega

/-! ## Big-endian timestamps (R103) -/

theorem be64_length (x : Nat) : (be64 x).length = 8 := rfl

theorem fromBe64_be64 {x : Nat} (h : x < 2 ^ 64) : fromBe64 (be64 x) = x := by
  simp only [fromBe64, be64, List.foldl_cons, List.foldl_nil, BitVec.toNat_ofNat, Nat.shiftRight_eq_div_pow]
  omega

theorem fromBe64_lt (b : List Byte) (h : b.length = 8) : fromBe64 b < 2 ^ 64 := by
  match b, h with
  | [b0, b1, b2, b3, b4, b5, b6, b7], _ =>
    have h0 := b0.isLt; have h1 := b1.isLt; have h2 := b2.isLt; have h3 := b3.isLt
    have h4 := b4.isLt; have h5 := b5.isLt; have h6 := b6.isLt; have h7 := b7.isLt
    simp only [fromBe64, List.foldl_cons, List.foldl_nil]
    omega

theorem be64_fromBe64 (b : List Byte) (h : b.length = 8) : be64 (fromBe64 b) = b := by
  match b, h with
  | [b0, b1, b2, b3, b4, b5, b6, b7], _ =>
    have h0 := b0.isLt; have h1 := b1.isLt; have h2 := b2.isLt; have h3 := b3.isLt
    have h4 := b4.isLt; have h5 := b5.isLt; have h6 := b6.isLt; have h7 := b7.isLt
    have e : ∀ (c : Byte) (n : Nat), n % 256 = c.toNat → BitVec.ofNat 8 n = c := by
      intro c n hn; apply BitVec.eq_of_toNat_eq; simpa using hn
    simp only [fromBe64, be64, List.foldl_cons, List.foldl_nil, Nat.shiftRight_eq_div_pow]
    rw [e b0, e b1, e b2, e b3, e b4, e b5, e b6, e b7] <;> omega

/-! ## `ESC_DECODE` (D14) -/

theorem escDecode_default {p : Params} (h : p.escOverrides = []) (e : Byte) :
    ((escDecode p e).toNat : Int) = ((e.toNat : Int) - 64) % 256 := by
  have h1 := e.isLt
  simp only [escDecode, h, List.lookup_nil, Option.getD_none, Config.escOffset, BitVec.toNat_sub]
  simp only [BitVec.toNat_ofNat]
  omega

theorem escDecode_canonical {p : Params} (h : escDecodeOk p = true) {v : Nat} (hv : v < 5) :
    escDecode p (BitVec.ofNat 8 (v + 64)) = BitVec.ofNat 8 v := by
  simp only [escDecodeOk, List.all_eq_true, List.mem_range, beq_iff_eq] at h
  exact h v hv

theorem lookup_map_pair (f : Byte → Byte) (l : List Byte) (e : Byte) (h : e ∈ l) :
    (l.map fun x => (x, f x)).lookup e = some (f e) := by
  induction l with
  | nil => simp at h
  | cons a l ih =>
    by_cases ha : e = a
    · subst ha; simp
    · have h2 : (e == a) = false := by simpa using ha
      simp only [List.map_cons, List.lookup_cons, h2]
      exact ih (by simpa [ha] using h)

/-- Every function from bytes to bytes is an `ESC_DECODE`: the table form loses nothing (assumption log 3). -/
theorem escDecode_any (p : Params) (f : Byte → Byte) :
    ∃ table : List (Byte × Byte), ∀ e, escDecode { p with escOverrides := table } e = f e := by
  refine ⟨((List.range 256).map (BitVec.ofNat 8)).map fun x => (x, f x), fun e => ?_⟩
  have h : e ∈ (List.range 256).map (BitVec.ofNat 8) := by
    rw [List.mem_map]
    exact ⟨e.toNat, List.mem_range.2 e.isLt, by simp⟩
  simp only [escDecode, lookup_map_pair f _ e h, Option.getD_some]

end Sys2Proof.Machine
end

