-- ==== Sys2Proof/Laws/Window.lean ====
section
/-! SUPPORT. The three accesses of the replay window (20_memory.md R72) keep its canonical form, and what they do to
its members. -/

namespace Sys2Proof.Machine

theorem ascending_iff (w : List Stamp) : ascending w = true ↔ w.Pairwise (fun a b => a.toNat < b.toNat) := by
  simp [ascending]

/-- On an ascending window, removing the longest low prefix removes exactly the low entries. -/
theorem pruneBelow_eq_filter (bound : Int) (w : List Stamp) (h : ascending w = true) :
    pruneBelow bound w = w.filter fun e => decide (bound ≤ (e.toNat : Int)) := by
  rw [ascending_iff] at h
  induction w with
  | nil => rfl
  | cons a w ih =>
    rw [List.pairwise_cons] at h
    by_cases hb : (a.toNat : Int) < bound
    · have : ¬ bound ≤ (a.toNat : Int) := by omega
      simpa [pruneBelow, hb, this] using ih h.2
    · have hall : ∀ e ∈ w, bound ≤ (e.toNat : Int) := by
        intro e he
        have := h.1 e he
        omega
      have e1 : pruneBelow bound (a :: w) = a :: w := by simp [pruneBelow, hb]
      have e2 : w.filter (fun e => decide (bound ≤ (e.toNat : Int))) = w := by
        rw [List.filter_eq_self]; simpa using hall
      rw [e1, List.filter_cons]
      simp [show bound ≤ (a.toNat : Int) by omega, e2]

theorem pruneBelow_ascending (bound : Int) (w : List Stamp) (h : ascending w = true) :
    ascending (pruneBelow bound w) = true := by
  rw [ascending_iff] at *
  exact h.sublist (List.dropWhile_sublist _)

/-- After pruning, membership is old membership at or above the bound. -/
theorem mem_pruneBelow (bound : Int) (w : List Stamp) (h : ascending w = true) (e : Stamp) :
    e ∈ pruneBelow bound w ↔ e ∈ w ∧ bound ≤ (e.toNat : Int) := by
  rw [pruneBelow_eq_filter bound w h]; simp

theorem mem_insertSorted (ts : Stamp) (w : List Stamp) (e : Stamp) :
    e ∈ insertSorted ts w ↔ e = ts ∨ e ∈ w := by
  induction w with
  | nil => simp [insertSorted]
  | cons a w ih =>
    unfold insertSorted
    split
    · simp [ih, or_left_comm]
    · simp

theorem insertSorted_length (ts : Stamp) (w : List Stamp) : (insertSorted ts w).length = w.length + 1 := by
  induction w with
  | nil => rfl
  | cons a w ih =>
    unfold insertSorted
    split
    · simp [ih]
    · simp

/-- Inserting a value not yet there keeps the window ascending. -/
theorem insertSorted_ascending (ts : Stamp) (w : List Stamp) (h : ascending w = true) (hn : ts ∉ w) :
    ascending (insertSorted ts w) = true := by
  rw [ascending_iff] at *
  induction w with
  | nil => simp [insertSorted]
  | cons a w ih =>
    rw [List.pairwise_cons] at h
    rw [List.mem_cons, not_or] at hn
    unfold insertSorted
    split
    · rename_i hlt
      rw [List.pairwise_cons]
      refine ⟨fun e he => ?_, ih h.2 hn.2⟩
      rcases (mem_insertSorted ts w e).1 he with rfl | he
      · exact hlt
      · exact h.1 e he
    · rename_i hge
      have hne : ts.toNat ≠ a.toNat := fun hc => hn.1 (BitVec.eq_of_toNat_eq hc)
      rw [List.pairwise_cons, List.pairwise_cons]
      refine ⟨fun e he => ?_, h⟩
      rcases List.mem_cons.1 he with rfl | he
      · omega
      · have := h.1 e he; omega

end Sys2Proof.Machine
end

