-- ==== Sys2Proof/Laws/At.lean ====
section
/-! SUPPORT. Unit AT: the windows of all instances, and the fields of a packet (45_auth_transport.md). -/

namespace Sys2Proof.Machine

open Sys2Proof.Config (Params)

/-! ## Windows -/

/-- Replacing one window by a legal one keeps the windows legal. -/
theorem winsWf_set {p : Params} {win : List (List Stamp)} (h : winsWf p win) (i : Nat) {w : List Stamp}
    (h1 : ascending w = true) (h2 : withinCap p.rwCap w.length = true) : winsWf p (win.set i w) := by
  refine ⟨by simpa using h.1, fun v hv => ?_⟩
  rcases List.mem_or_eq_of_mem_set hv with hv | rfl
  · exact h.2 v hv
  · exact ⟨h1, h2⟩

/-- Every window of legal windows is legal; one that does not exist reads as empty. -/
theorem winOf_legal {s : State} (h : winsWf s.cfg s.win) (i : Nat) :
    ascending (s.winOf i) = true ∧ withinCap s.cfg.rwCap (s.winOf i).length = true := by
  by_cases hi : i < s.win.length
  · have : s.winOf i ∈ s.win := by simp [State.winOf, List.getD, hi]
    exact h.2 _ this
  · have : s.winOf i = [] := by
      simp [State.winOf, List.getD, List.getElem?_eq_none (Nat.le_of_not_lt hi)]
    rw [this]
    refine ⟨rfl, ?_⟩
    cases s.cfg.rwCap <;> simp [withinCap]

/-! ## Packets -/

theorem packetOf_length (key payload : List Byte) (nowMs : Nat) :
    (packetOf key payload nowMs).length = 40 + payload.length := by
  simp only [packetOf, List.length_append, Vector.length_toList, be64_length]; omega

/-- After the digest a packet carries timestamp and payload. -/
theorem packetOf_drop (key payload : List Byte) (nowMs : Nat) :
    (packetOf key payload nowMs).drop 32 = be64 nowMs ++ payload := by
  exact List.drop_left' (by simp)

theorem packetOf_take (key payload : List Byte) (nowMs : Nat) :
    (packetOf key payload nowMs).take 32 = (Config.hmac key (be64 nowMs ++ payload)).toList := by
  exact List.take_left' (by simp)

/-- The timestamp of a packet that is long enough, as a number. -/
theorem stampOf_toNat {packet : List Byte} (h : 40 ≤ packet.length) :
    (stampOf packet).toNat = fromBe64 ((packet.drop 32).take 8) := by
  have h8 : ((packet.drop 32).take 8).length = 8 := by simp; omega
  show (BitVec.ofNat 64 _).toNat = _
  rw [BitVec.toNat_ofNat]
  exact Nat.mod_eq_of_lt (fromBe64_lt _ h8)

theorem signatureOk_iff (key packet : List Byte) :
    signatureOk key packet = true ↔ (Config.hmac key (packet.drop 32)).toList = packet.take 32 := by
  simp only [signatureOk, beq_iff_eq]; rfl

/-- A built packet carries its own signature. -/
theorem signatureOk_packetOf (key payload : List Byte) (nowMs : Nat) :
    signatureOk key (packetOf key payload nowMs) = true := by
  rw [signatureOk_iff, packetOf_drop, packetOf_take]

end Sys2Proof.Machine
end

