-- ==== Sys2Proof/Laws/Crc.lean ====
section
/-! SUPPORT. One checksum step on numbers, and that it loses nothing (41_crc16.md R161, R165). -/

namespace Sys2Proof.Machine

theorem crcMix_toNat (acc : BitVec 16) (b : Byte) :
    (crcMix acc b).toNat =
      (((acc.toNat >>> 8) ^^^ b.toNat) &&& 0xFF) ^^^ ((((acc.toNat >>> 8) ^^^ b.toNat) &&& 0xFF) >>> 4) := by
  have h : ((acc >>> 8).setWidth 8 ^^^ b).toNat = ((acc.toNat >>> 8) ^^^ b.toNat) &&& 0xFF := by
    rw [show (0xFF : Nat) = 2 ^ 8 - 1 from rfl, Nat.and_two_pow_sub_one_eq_mod, BitVec.toNat_xor,
      BitVec.toNat_setWidth, BitVec.toNat_ushiftRight, Nat.xor_mod_two_pow, Nat.mod_eq_of_lt b.isLt]
  simp only [crcMix, BitVec.toNat_xor, BitVec.toNat_ushiftRight] at *
  rw [h]

theorem crcStep_toNat (acc : BitVec 16) (b : Byte) :
    (crcStep acc b).toNat =
      ((acc.toNat <<< 8) ^^^ ((crcMix acc b).toNat <<< 12) ^^^ ((crcMix acc b).toNat <<< 5) ^^^ (crcMix acc b).toNat)
        &&& 0xFFFF := by
  have hx : (crcMix acc b).toNat % 2 ^ 16 = (crcMix acc b).toNat :=
    Nat.mod_eq_of_lt (by have := (crcMix acc b).isLt; omega)
  rw [show (0xFFFF : Nat) = 2 ^ 16 - 1 from rfl, Nat.and_two_pow_sub_one_eq_mod]
  simp only [crcStep, BitVec.toNat_xor, BitVec.toNat_shiftLeft, BitVec.toNat_setWidth, hx, Nat.xor_mod_two_pow]

/-- The low byte of a step depends on the mixed byte only, and tells it. -/
theorem crcStep_low (acc : BitVec 16) (b : Byte) :
    (crcStep acc b).setWidth 8 = (crcMix acc b <<< 5) ^^^ crcMix acc b := by
  apply BitVec.eq_of_getLsbD_eq
  intro i hi
  simp only [crcStep, BitVec.getLsbD_setWidth, BitVec.getLsbD_xor, BitVec.getLsbD_shiftLeft, hi]
  simp [show i < 16 by omega, show i < 12 by omega]
  by_cases h : i < 5
  · simp [h]
  · simp [h, show i - 5 < 16 by omega]

theorem mix_low_injective : ∀ x y : Byte, (x <<< 5) ^^^ x = (y <<< 5) ^^^ y → x = y := by
  intro x y h
  have inv : ∀ z : Byte, (let u := (z <<< 5) ^^^ z; u ^^^ (u <<< 5)) = z := by decide
  rw [← inv x, ← inv y]
  simp only
  rw [h]

theorem shift_mix_injective : ∀ x y : Byte, x ^^^ (x >>> 4) = y ^^^ (y >>> 4) → x = y := by
  intro x y h
  have inv : ∀ z : Byte, (let u := z ^^^ (z >>> 4); u ^^^ (u >>> 4)) = z := by decide
  rw [← inv x, ← inv y]
  simp only
  rw [h]

theorem crcMix_of_crcStep_eq {a a' : BitVec 16} {b b' : Byte} (h : crcStep a b = crcStep a' b') :
    crcMix a b = crcMix a' b' :=
  mix_low_injective _ _ (by rw [← crcStep_low, ← crcStep_low, h])

/-- For one accumulator, different bytes give different steps. -/
theorem crcStep_injective_byte (acc : BitVec 16) {b b' : Byte} (h : crcStep acc b = crcStep acc b') : b = b' := by
  have h2 := shift_mix_injective _ _ (crcMix_of_crcStep_eq h)
  exact (BitVec.xor_right_inj _).1 h2

/-- For one byte, different accumulators give different steps. -/
theorem crcStep_injective_acc {a a' : BitVec 16} (b : Byte) (h : crcStep a b = crcStep a' b) : a = a' := by
  have hm := crcMix_of_crcStep_eq h
  have hhi : (a >>> 8).setWidth 8 = (a' >>> 8).setWidth 8 := by
    have h2 := shift_mix_injective _ _ hm
    exact (BitVec.xor_left_inj _).1 h2
  have hlo : a <<< 8 = a' <<< 8 := by
    simp only [crcStep, hm] at h
    exact (BitVec.xor_left_inj _).1 ((BitVec.xor_left_inj _).1 ((BitVec.xor_left_inj _).1 h))
  apply BitVec.eq_of_getLsbD_eq
  intro i hi
  by_cases h8 : i < 8
  · have := congrArg (fun v : BitVec 16 => v.getLsbD (i + 8)) hlo
    simpa [show i + 8 < 16 by omega, ← BitVec.getLsbD_eq_getElem] using this
  · have := congrArg (fun v : BitVec 8 => v.getLsbD (i - 8)) hhi
    simpa [show i - 8 < 8 by omega, show 8 + (i - 8) = i by omega, ← BitVec.getLsbD_eq_getElem] using this

theorem foldl_crcStep_injective (bytes : List Byte) {a a' : BitVec 16}
    (h : bytes.foldl crcStep a = bytes.foldl crcStep a') : a = a' := by
  induction bytes generalizing a a' with
  | nil => exact h
  | cons b bs ih => exact crcStep_injective_acc b (ih h)

end Sys2Proof.Machine
end

