-- ==== Sys2Proof/Laws/Stream.lean ====
section
/-! SUPPORT. What reading and writing bit fields do, said once: each loop of BC against the bit stream. -/

namespace Sys2Proof.Machine

/-! ## Bit sums -/

/-- A number below `2^n` has no bit at or above `n`. -/
theorem testBit_past {v n j : Nat} (h : v < 2 ^ n) (hj : n ≤ j) : v.testBit j = false :=
  Nat.testBit_eq_false_of_lt (lt_of_lt_of_le h (Nat.pow_le_pow_right (by omega) hj))

theorem bitSum_lt (bit : Nat → Bool) (n : Nat) : bitSum bit n < 2 ^ n := by
  induction n with
  | zero => simp [bitSum]
  | succ n ih =>
    have h : (bit n).toNat ≤ 1 := Bool.toNat_le _
    have h2 : (bit n).toNat * 2 ^ n ≤ 1 * 2 ^ n := Nat.mul_le_mul_right _ h
    simp only [bitSum, pow_succ]
    omega

theorem bitSum_testBit (bit : Nat → Bool) (n j : Nat) :
    (bitSum bit n).testBit j = (decide (j < n) && bit j) := by
  induction n generalizing j with
  | zero => simp [bitSum]
  | succ n ih =>
    have e : bitSum bit (n + 1) = 2 ^ n * (bit n).toNat + bitSum bit n := by
      simp [bitSum, Nat.mul_comm, Nat.add_comm]
    rw [e, Nat.testBit_two_pow_mul_add _ (bitSum_lt bit n)]
    rcases lt_trichotomy j n with h | h | h
    · simp [h, ih, Nat.lt_succ_of_lt h]
    · subst h; cases bit j <;> simp
    · have h2 : (bit n).toNat < 2 ^ 1 := by have := Bool.toNat_le (bit n); omega
      simp [show ¬ j < n by omega, show ¬ j < n + 1 by omega, testBit_past h2 (by omega : 1 ≤ j - n)]

/-- A number below `2^n` whose low bits are given is their sum. -/
theorem eq_bitSum_of_testBit {v n : Nat} {bit : Nat → Bool}
    (h : ∀ j, v.testBit j = (decide (j < n) && bit j)) : v = bitSum bit n := by
  apply Nat.eq_of_testBit_eq
  intro j
  rw [h, bitSum_testBit]

/-- A number below `2^n` is the sum of its bits. -/
theorem bitSum_of_lt {v n : Nat} (h : v < 2 ^ n) : bitSum (fun j => v.testBit j) n = v := by
  symm
  apply eq_bitSum_of_testBit
  intro j
  by_cases hj : j < n
  · simp [hj]
  · simp [hj, testBit_past h (by omega : n ≤ j)]

theorem bitSum_congr {f g : Nat → Bool} {n : Nat} (h : ∀ j, j < n → f j = g j) : bitSum f n = bitSum g n := by
  induction n with
  | zero => rfl
  | succ n ih => simp only [bitSum]; rw [ih (fun j hj => h j (by omega)), h n (by omega)]

/-! ## Words of the read buffer -/

theorem readByte_past {buf : List Byte} {i : Nat} (h : buf.length ≤ i) : readByte buf i = 0#8 := by
  simp [readByte, List.getD, List.getElem?_eq_none h]

theorem readWord_toNat (buf : List Byte) (w : Nat) :
    (readWord buf w).toNat = ((readByte buf (2 * w)).toNat + 256 * (readByte buf (2 * w + 1)).toNat) % 2 ^ 15 := by
  have hl := (readByte buf (2 * w)).isLt
  have hh := (readByte buf (2 * w + 1)).isLt
  have e : (readByte buf (2 * w)).toNat ||| (readByte buf (2 * w + 1)).toNat <<< 8
      = (readByte buf (2 * w)).toNat + 256 * (readByte buf (2 * w + 1)).toNat := by
    rw [Nat.or_comm, ← Nat.shiftLeft_add_eq_or_of_lt hl, Nat.shiftLeft_eq]; ring
  have h16 : (readByte buf (2 * w + 1)).toNat <<< 8 < 2 ^ 16 := by rw [Nat.shiftLeft_eq]; omega
  simp only [readWord, BitVec.toNat_setWidth, BitVec.toNat_or, BitVec.toNat_shiftLeft]
  rw [Nat.mod_eq_of_lt (by omega : (readByte buf (2 * w)).toNat < 2 ^ 16),
    Nat.mod_eq_of_lt (by omega : (readByte buf (2 * w + 1)).toNat < 2 ^ 16), Nat.mod_eq_of_lt h16, e]

/-! ## The reading loop -/

/-- A taken chunk, bit by bit. -/
theorem chunk_testBit (w : Word15) (o take j : Nat) :
    ((w.toNat >>> o) &&& (2 ^ take - 1)).testBit j = (decide (j < take) && w.getLsbD (o + j)) := by
  rw [Nat.testBit_and, Nat.testBit_two_pow_sub_one, Nat.testBit_shiftRight, Bool.and_comm]
  rfl

/-- What the loop of `BC.RD` answers: the bits it had and the next bits of the stream above them, with the cursor
moved by exactly as many bits. -/
theorem rdLoop_spec (buf : List Byte) (n rounds : Nat) : ∀ (got v w : Nat) (o : Fin 15),
    got ≤ n → n - got ≤ rounds → v < 2 ^ got →
    (∀ j, (rdLoop buf n rounds got v w o).1.testBit j =
      if j < got then v.testBit j else decide (j < n) && streamBit buf (15 * w + o.val + (j - got))) ∧
    (rdLoop buf n rounds got v w o).2.1 = (15 * w + o.val + (n - got)) / 15 ∧
    (rdLoop buf n rounds got v w o).2.2.val = (15 * w + o.val + (n - got)) % 15 := by
  induction rounds with
  | zero =>
    intro got v w o hg hr hv
    have e : got = n := by omega
    subst e
    have ho := o.isLt
    refine ⟨?_, ?_, ?_⟩
    · intro j
      by_cases hj : j < got
      · simp [rdLoop, hj]
      · simp only [rdLoop, hj, if_false, decide_false, Bool.false_and]
        exact testBit_past hv (by omega)
    · simp only [rdLoop]; omega
    · simp only [rdLoop]; omega
  | succ rounds ih =>
    intro got v w o hg hr hv
    have ho := o.isLt
    by_cases hlt : got < n
    · obtain ⟨take, htake⟩ : ∃ take, take = min (15 - o.val) (n - got) := ⟨_, rfl⟩
      have ht1 : 0 < take := by omega
      have ht2 : o.val + take ≤ 15 := by omega
      have ht3 : got + take ≤ n := by omega
      obtain ⟨v', hv'⟩ : ∃ v', v' = v ||| ((((readWord buf w).toNat >>> o.val) &&& (2 ^ take - 1)) <<< got) :=
        ⟨_, rfl⟩
      have hbit : ∀ j, v'.testBit j = if j < got then v.testBit j
          else decide (j < got + take) && (readWord buf w).getLsbD (o.val + (j - got)) := by
        intro j
        rw [hv', Nat.testBit_or, Nat.testBit_shiftLeft, chunk_testBit]
        by_cases hj : j < got
        · simp [hj, show ¬ got ≤ j by omega]
        · have hz : v.testBit j = false :=
            testBit_past hv (by omega)
          simp [hj, hz, show got ≤ j by omega, show (j - got < take) = (j < got + take) by
            apply propext; omega]
      have hlt' : v' < 2 ^ (got + take) := by
        apply Nat.lt_of_testBit (got + take)
        · rw [hbit]; simp
        · exact Nat.testBit_two_pow_self
        · intro j hj
          rw [hbit, Nat.testBit_two_pow_of_ne (by omega)]
          simp [show ¬ j < got by omega, show ¬ j < got + take by omega]
      have hstream : ∀ j, got ≤ j → j < got + take →
          (readWord buf w).getLsbD (o.val + (j - got)) = streamBit buf (15 * w + o.val + (j - got)) := by
        intro j h1 h2
        have e1 : (15 * w + o.val + (j - got)) / 15 = w := by omega
        have e2 : (15 * w + o.val + (j - got)) % 15 = o.val + (j - got) := by omega
        rw [streamBit, e1, e2]
      by_cases hc : o.val + take < 15
      · have hstep : rdLoop buf n (rounds + 1) got v w o
            = rdLoop buf n rounds (got + take) v' w ⟨o.val + take, hc⟩ := by
          rw [rdLoop]; subst hv' htake; simp only [hlt, if_true, hc, dif_pos]
        obtain ⟨i1, i2, i3⟩ := ih (got + take) v' w ⟨o.val + take, hc⟩ (by omega) (by omega) hlt'
        rw [hstep]
        refine ⟨?_, ?_, ?_⟩
        · intro j
          rw [i1]
          by_cases h1 : j < got
          · simp [h1, show j < got + take by omega, hbit]
          · by_cases h2 : j < got + take
            · simp [h1, h2, hbit, hstream j (by omega) h2, show j < n by omega]
            · simp only [h1, h2, if_false]
              rw [show 15 * w + (o.val + take) + (j - (got + take)) = 15 * w + o.val + (j - got) by omega]
        · rw [i2]; show (15 * w + (o.val + take) + _) / 15 = _; congr 1; omega
        · rw [i3]; show (15 * w + (o.val + take) + _) % 15 = _; congr 1; omega
      · have hstep : rdLoop buf n (rounds + 1) got v w o = rdLoop buf n rounds (got + take) v' (w + 1) 0 := by
          rw [rdLoop]; subst hv' htake; simp only [hlt, if_true, hc, dif_neg, not_false_eq_true]
        obtain ⟨i1, i2, i3⟩ := ih (got + take) v' (w + 1) 0 (by omega) (by omega) hlt'
        rw [hstep]
        refine ⟨?_, ?_, ?_⟩
        · intro j
          rw [i1]
          by_cases h1 : j < got
          · simp [h1, show j < got + take by omega, hbit]
          · by_cases h2 : j < got + take
            · simp [h1, h2, hbit, hstream j (by omega) h2, show j < n by omega]
            · simp only [h1, h2, if_false]
              rw [show 15 * (w + 1) + (0 : Fin 15).val + (j - (got + take)) = 15 * w + o.val + (j - got) by
                simp only [Fin.val_zero]; omega]
        · rw [i2]; congr 1; simp only [Fin.val_zero]; omega
        · rw [i3]; congr 1; simp only [Fin.val_zero]; omega
    · have e : got = n := by omega
      subst e
      have hstep : rdLoop buf got (rounds + 1) got v w o = (v, w, o) := by
        rw [rdLoop]; simp
      rw [hstep]
      refine ⟨?_, ?_, ?_⟩
      · intro j
        by_cases hj : j < got
        · simp [hj]
        · simp only [hj, if_false, decide_false, Bool.false_and]
          exact testBit_past hv (by omega)
      · show w = _; omega
      · show o.val = _; omega

/-- A packed read gives the field at the cursor and moves the cursor by its width. -/
theorem ReadCursor.readPacked_eq (rc : ReadCursor) (n : Nat) :
    rc.readPacked n = (fieldValue rc.buf rc.bitPos n, rc.seek (rc.bitPos + n)) := by
  obtain ⟨h1, h2, h3⟩ := rdLoop_spec rc.buf n n 0 0 rc.w rc.o (by omega) (by omega) (by simp)
  have hv : (rdLoop rc.buf n n 0 0 rc.w rc.o).1 = fieldValue rc.buf rc.bitPos n := by
    apply eq_bitSum_of_testBit
    intro j
    rw [h1]
    simp [ReadCursor.bitPos]
  have ho : (rdLoop rc.buf n n 0 0 rc.w rc.o).2.2 = Fin.ofNat 15 (rc.bitPos + n) := by
    apply Fin.ext
    rw [h3]
    rfl
  simp only [ReadCursor.readPacked, ReadCursor.seek, hv, h2, ho]
  rfl

/-! ## The writing loop -/

/-- ORing into word `w`: the buffer reaches at least past `w`, and only bits of word `w` are added. -/
theorem orWord_spec (words : List Word15) (w : Nat) (bits : Word15) (h : w ≤ words.length) :
    (orWord words w bits).length = max words.length (w + 1) ∧
    ∀ k, wordsBit (orWord words w bits) k = (wordsBit words k || (decide (k / 15 = w) && bits.getLsbD (k % 15))) := by
  unfold orWord
  constructor
  · split <;> simp <;> omega
  · intro k
    simp only [wordsBit, List.getD_eq_getElem?_getD, List.getElem?_modify]
    by_cases hw : w = words.length
    · simp only [hw, if_true]
      rcases lt_trichotomy (k / 15) words.length with h1 | h1 | h1
      · simp [List.getElem?_append_left h1, show ¬ words.length = k / 15 by omega,
          show ¬ k / 15 = words.length by omega]
      · simp [h1]
      · simp [show ¬ words.length = k / 15 by omega, show ¬ k / 15 = words.length by omega,
          List.getElem?_eq_none (show words.length ≤ k / 15 by omega),
          List.getElem?_eq_none (show (words ++ [0#15]).length ≤ k / 15 by simp; omega)]
    · simp only [hw, if_false]
      have hlt : w < words.length := by omega
      by_cases h1 : w = k / 15
      · subst h1
        simp [List.getElem?_eq_getElem hlt]
      · simp [h1, show ¬ k / 15 = w by omega]

/-- The write cursor stands at the end of the data: the buffer holds just the words that have a written bit, and no
bit at or past the cursor is set (10_state.md R28). -/
def WriteCursor.clean (wc : WriteCursor) : Prop :=
  wc.words.length = (wc.bitPos + 14) / 15 ∧ ∀ k, wc.bitPos ≤ k → wordsBit wc.words k = false

theorem getLsbD_past {w n i : Nat} {x : BitVec w} (h : x.toNat < 2 ^ n) (hi : n ≤ i) :
    x.getLsbD i = false := testBit_past h hi

/-- R28's invariant as Safety states it, in terms of the bit stream. -/
theorem WriteCursor.clean_iff (wc : WriteCursor) :
    wc.clean ↔ (wc.o = 0 → wc.w = wc.words.length) ∧
      (wc.o ≠ 0 → wc.w + 1 = wc.words.length ∧ (wc.words.getD wc.w 0#15).toNat < 2 ^ wc.o.val) := by
  have ho := wc.o.isLt
  have hz : wc.o = 0 ↔ wc.o.val = 0 := by rw [Fin.ext_iff]; rfl
  constructor
  · rintro ⟨h1, h2⟩
    simp only [WriteCursor.bitPos] at h1 h2
    refine ⟨fun h => ?_, fun h => ⟨?_, ?_⟩⟩
    · rw [hz] at h; omega
    · rw [Ne, hz] at h; omega
    · apply Nat.lt_pow_two_of_testBit
      intro i hi
      by_cases h15 : i < 15
      · have := h2 (15 * wc.w + i) (by omega)
        rw [wordsBit, show (15 * wc.w + i) / 15 = wc.w by omega, show (15 * wc.w + i) % 15 = i by omega] at this
        exact this
      · exact testBit_past (wc.words.getD wc.w 0#15).isLt (by omega)
  · rintro ⟨h1, h2⟩
    by_cases h : wc.o = 0
    · have hw := h1 h
      rw [hz] at h
      refine ⟨by simp only [WriteCursor.bitPos]; omega, fun k hk => ?_⟩
      simp only [WriteCursor.bitPos] at hk
      rw [wordsBit, List.getD_eq_getElem?_getD, List.getElem?_eq_none (by omega)]
      simp
    · obtain ⟨hw, hlast⟩ := h2 h
      rw [hz] at h
      refine ⟨by simp only [WriteCursor.bitPos]; omega, fun k hk => ?_⟩
      simp only [WriteCursor.bitPos] at hk
      by_cases hk2 : k / 15 = wc.w
      · rw [wordsBit, hk2]
        exact getLsbD_past hlast (by omega)
      · rw [wordsBit, List.getD_eq_getElem?_getD, List.getElem?_eq_none (by omega)]
        simp

/-- What the loop of `BC.WR` does from a clean cursor: it moves on by exactly the bits still to be written, stays
clean, keeps every earlier bit, and lays down the value's bits from bit `put` on. -/
theorem wrLoop_spec (n v rounds : Nat) : ∀ (put : Nat) (wc : WriteCursor), wc.clean → put ≤ n → n - put ≤ rounds →
    (wrLoop n v rounds put wc).clean ∧ (wrLoop n v rounds put wc).bitPos = wc.bitPos + (n - put) ∧
    ∀ k, wordsBit (wrLoop n v rounds put wc).words k =
      if k < wc.bitPos then wordsBit wc.words k
      else decide (k < wc.bitPos + (n - put)) && v.testBit (put + (k - wc.bitPos)) := by
  have base : ∀ (put : Nat) (wc : WriteCursor), wc.clean → n - put = 0 →
      wc.clean ∧ wc.bitPos = wc.bitPos + (n - put) ∧ ∀ k, wordsBit wc.words k =
        if k < wc.bitPos then wordsBit wc.words k
        else decide (k < wc.bitPos + (n - put)) && v.testBit (put + (k - wc.bitPos)) := by
    intro put wc hc h0
    refine ⟨hc, by omega, fun k => ?_⟩
    by_cases hk : k < wc.bitPos
    · simp [hk]
    · simp [hk, h0, hc.2 k (by omega)]
  induction rounds with
  | zero =>
    intro put wc hc hp hr
    simpa [wrLoop] using base put wc hc (by omega)
  | succ rounds ih =>
    intro put wc hc hp hr
    have ho := wc.o.isLt
    by_cases hlt : put < n
    · obtain ⟨take, htake⟩ : ∃ take, take = min (15 - wc.o.val) (n - put) := ⟨_, rfl⟩
      have ht1 : 0 < take := by omega
      have ht2 : wc.o.val + take ≤ 15 := by omega
      have ht3 : put + take ≤ n := by omega
      obtain ⟨bits, hbits⟩ : ∃ bits : Word15,
          bits = BitVec.ofNat 15 (((v >>> put) &&& (2 ^ take - 1)) <<< wc.o.val) := ⟨_, rfl⟩
      have hb : ∀ i, bits.getLsbD i = (decide (wc.o.val ≤ i ∧ i < wc.o.val + take) && v.testBit (put + (i - wc.o.val))) := by
        intro i
        rw [hbits, BitVec.getLsbD_ofNat, Nat.testBit_shiftLeft, Nat.testBit_and, Nat.testBit_two_pow_sub_one,
          Nat.testBit_shiftRight]
        by_cases h1 : wc.o.val ≤ i
        · by_cases h2 : i < wc.o.val + take
          · simp [h1, h2, show i < 15 by omega, show i - wc.o.val < take by omega]
          · simp [h2, show ¬ i - wc.o.val < take by omega]
        · simp [h1]
      have hlen := hc.1
      have hpos : wc.bitPos = 15 * wc.w + wc.o.val := rfl
      obtain ⟨hol, hob⟩ := orWord_spec wc.words wc.w bits (by omega)
      obtain ⟨words, hwords⟩ : ∃ words, words = orWord wc.words wc.w bits := ⟨_, rfl⟩
      rw [← hwords] at hol hob
      have hbit : ∀ k, wordsBit words k = if k < wc.bitPos then wordsBit wc.words k
          else decide (k < wc.bitPos + take) && v.testBit (put + (k - wc.bitPos)) := by
        intro k
        rw [hob, hb]
        by_cases h1 : k < wc.bitPos
        · by_cases h2 : k / 15 = wc.w
          · simp [h1, show ¬ wc.o.val ≤ k % 15 by omega]
          · simp [h1, h2]
        · rw [hc.2 k (by omega)]
          by_cases h2 : k < wc.bitPos + take
          · simp [h1, h2, show k / 15 = wc.w by omega, show wc.o.val ≤ k % 15 by omega,
              show k % 15 < wc.o.val + take by omega, show k % 15 - wc.o.val = k - wc.bitPos by omega]
          · by_cases h3 : k / 15 = wc.w
            · simp [h1, h2, show ¬ k % 15 < wc.o.val + take by omega]
            · simp [h1, h2, h3]
      have hgo : ∀ wc' : WriteCursor, wc'.words = words → wc'.bitPos = wc.bitPos + take →
          wrLoop n v (rounds + 1) put wc = wrLoop n v rounds (put + take) wc' →
          (wrLoop n v (rounds + 1) put wc).clean ∧ (wrLoop n v (rounds + 1) put wc).bitPos = wc.bitPos + (n - put) ∧
          ∀ k, wordsBit (wrLoop n v (rounds + 1) put wc).words k =
            if k < wc.bitPos then wordsBit wc.words k
            else decide (k < wc.bitPos + (n - put)) && v.testBit (put + (k - wc.bitPos)) := by
        intro wc' hw' hp' hstep
        have hclean : wc'.clean := by
          refine ⟨?_, fun k hk => ?_⟩
          · rw [hw', hol, hp']; omega
          · rw [hw', hbit]; simp [show ¬ k < wc.bitPos by omega, show ¬ k < wc.bitPos + take by omega]
        obtain ⟨i1, i2, i3⟩ := ih (put + take) wc' hclean ht3 (by omega)
        rw [hstep]
        refine ⟨i1, by omega, fun k => ?_⟩
        rw [i3, hw', hbit, hp']
        by_cases h1 : k < wc.bitPos
        · simp [h1, show k < wc.bitPos + take by omega]
        · by_cases h2 : k < wc.bitPos + take
          · simp [h1, h2, show k < wc.bitPos + (n - put) by omega]
          · simp only [h1, h2, if_false]
            rw [show put + take + (k - (wc.bitPos + take)) = put + (k - wc.bitPos) by omega,
              show wc.bitPos + take + (n - (put + take)) = wc.bitPos + (n - put) by omega]
      by_cases hlast : wc.o.val + take < 15
      · refine hgo ⟨words, wc.w, ⟨wc.o.val + take, hlast⟩⟩ rfl ?_ ?_
        · show 15 * wc.w + (wc.o.val + take) = _; omega
        · rw [wrLoop]; subst hwords hbits htake; simp only [hlt, if_true, hlast, dif_pos]
      · refine hgo ⟨words, wc.w + 1, 0⟩ rfl ?_ ?_
        · show 15 * (wc.w + 1) + 0 = _; omega
        · rw [wrLoop]; subst hwords hbits htake; simp only [hlt, if_true, hlast, dif_neg, not_false_eq_true]
    · have hstep : wrLoop n v (rounds + 1) put wc = wc := by rw [wrLoop]; simp [hlt]
      rw [hstep]
      exact base put wc hc (by omega)

/-- What writing a field does, from a clean cursor. -/
theorem WriteCursor.write_spec (wc : WriteCursor) (n : Nat) (value : Int) (h : wc.clean) :
    (wc.write n value).clean ∧ (wc.write n value).bitPos = wc.bitPos + n ∧
    ∀ k, wordsBit (wc.write n value).words k =
      if k < wc.bitPos then wordsBit wc.words k
      else decide (k < wc.bitPos + n) && (trunc n value).testBit (k - wc.bitPos) := by
  have := wrLoop_spec n (trunc n value) n 0 wc h (by omega) (by omega)
  simpa [WriteCursor.write] using this

end Sys2Proof.Machine
end

