-- ==== Sys2Proof/Laws/Fields.lean ====
section
/-! SUPPORT. Whole reads and writes: the read cursor in both modes, runs of written fields, the byte image read back
(40_bitcodec.md R133 to R140). -/

namespace Sys2Proof.Machine

open Sys2Proof.Config (Params Field)

/-! ## The read cursor -/

@[simp] theorem ReadCursor.seek_mode (rc : ReadCursor) (k : Nat) : (rc.seek k).mode = rc.mode := rfl
@[simp] theorem ReadCursor.seek_buf (rc : ReadCursor) (k : Nat) : (rc.seek k).buf = rc.buf := rfl
@[simp] theorem ReadCursor.seek_raw (rc : ReadCursor) (k : Nat) : (rc.seek k).raw = rc.raw := rfl
@[simp] theorem ReadCursor.seek_idx (rc : ReadCursor) (k : Nat) : (rc.seek k).idx = rc.idx := rfl
@[simp] theorem ReadCursor.seek_seek (rc : ReadCursor) (j k : Nat) : (rc.seek j).seek k = rc.seek k := rfl

@[simp] theorem ReadCursor.seek_bitPos (rc : ReadCursor) (k : Nat) : (rc.seek k).bitPos = k := by
  show 15 * (k / 15) + k % 15 = k; omega

theorem ReadCursor.seek_self (rc : ReadCursor) : rc.seek rc.bitPos = rc := by
  have ho := rc.o.isLt
  obtain ⟨mode, buf, w, o, raw, idx⟩ := rc
  have ho' : o.val < 15 := ho
  have e : (Fin.ofNat 15 (15 * w + o.val)) = o := Fin.ext (by show (15 * w + o.val) % 15 = o.val; omega)
  simp only [ReadCursor.seek, ReadCursor.bitPos, e, show (15 * w + o.val) / 15 = w by omega]

/-- A packed read: the field at the cursor, and the cursor moved by its width. -/
theorem ReadCursor.read_packed {rc : ReadCursor} (h : rc.mode = .packed) (n : Nat) :
    rc.read n = (fieldValue rc.buf rc.bitPos n, rc.seek (rc.bitPos + n)) := by
  simp only [ReadCursor.read, h, readPacked_eq]

/-- A raw read: the next element modulo `2^n`. -/
theorem ReadCursor.read_raw {rc : ReadCursor} (h : rc.mode = .raw) (n : Nat) :
    rc.read n = (trunc n (rc.raw.getD rc.idx 0), { rc with idx := rc.idx + 1 }) := by
  simp only [ReadCursor.read, h, ReadCursor.readRaw]

theorem ReadCursor.readSigned_packed {rc : ReadCursor} (h : rc.mode = .packed) (n : Nat) :
    rc.readSigned n = (sext n (fieldValue rc.buf rc.bitPos n), rc.seek (rc.bitPos + n)) := by
  simp only [ReadCursor.readSigned, ReadCursor.read_packed h]

theorem ReadCursor.readSigned_raw {rc : ReadCursor} (h : rc.mode = .raw) (n : Nat) :
    rc.readSigned n = (sext n (trunc n (rc.raw.getD rc.idx 0)), { rc with idx := rc.idx + 1 }) := by
  simp only [ReadCursor.readSigned, ReadCursor.read_raw h]

/-- In either mode a read gives less than `2^n`. -/
theorem ReadCursor.read_lt (rc : ReadCursor) (n : Nat) : (rc.read n).1 < 2 ^ n := by
  cases h : rc.mode with
  | packed => rw [ReadCursor.read_packed h]; exact bitSum_lt _ _
  | raw => rw [ReadCursor.read_raw h]; exact trunc_lt _ _

/-- A read changes no buffer and no mode. -/
theorem ReadCursor.read_frame (rc : ReadCursor) (n : Nat) :
    (rc.read n).2.mode = rc.mode ∧ (rc.read n).2.buf = rc.buf ∧ (rc.read n).2.raw = rc.raw := by
  cases h : rc.mode with
  | packed => rw [ReadCursor.read_packed h]; exact ⟨h, rfl, rfl⟩
  | raw => rw [ReadCursor.read_raw h]; exact ⟨h, rfl, rfl⟩

theorem ReadCursor.readSigned_snd (rc : ReadCursor) (n : Nat) : (rc.readSigned n).2 = (rc.read n).2 := rfl

/-- A read keeps the cursor legal. -/
theorem ReadCursor.read_wf {p : Params} {rc : ReadCursor} (h : rc.wf p) (n : Nat) : (rc.read n).2.wf p := by
  intro hp
  obtain ⟨h1, h2, h3⟩ := h hp
  rw [ReadCursor.read_packed h1]
  exact ⟨h1, h2, h3⟩

theorem readWord_past {buf : List Byte} {w : Nat} (h : buf.length ≤ 2 * w) : readWord buf w = 0#15 := by
  apply BitVec.eq_of_toNat_eq
  rw [readWord_toNat, readByte_past h, readByte_past (by omega : buf.length ≤ 2 * w + 1)]
  rfl

/-- From the end of the buffer on the stream is 0 (R66). -/
theorem streamBit_past {buf : List Byte} {k : Nat} (h : 15 * ((buf.length + 1) / 2) ≤ k) : streamBit buf k = false := by
  rw [streamBit, readWord_past (by omega)]
  simp

theorem bitSum_zero {bit : Nat → Bool} {n : Nat} (h : ∀ j, j < n → bit j = false) : bitSum bit n = 0 := by
  induction n with
  | zero => rfl
  | succ n ih => simp only [bitSum]; rw [ih fun j hj => h j (by omega), h n (by omega)]; simp

theorem fieldValue_past {buf : List Byte} {k : Nat} (h : 15 * ((buf.length + 1) / 2) ≤ k) (n : Nat) :
    fieldValue buf k n = 0 :=
  bitSum_zero fun j _ => streamBit_past (by omega)

theorem fieldValue_one (buf : List Byte) (k : Nat) : fieldValue buf k 1 = (streamBit buf k).toNat := by
  simp [fieldValue, bitSum]

theorem sext_zero {n : Nat} : sext n 0 = 0 := by simp [sext]

/-! ## The write cursor -/

/-- Room for `bits` more bits (assumption log 19). -/
theorem WriteCursor.roomFor_iff (p : Params) (wc : WriteCursor) (bits : Nat) :
    wc.roomFor p bits = true ↔ ∀ m, p.wbufMax = some m → wc.bitPos + bits ≤ 15 * m := by
  rw [WriteCursor.roomFor, withinCap_iff]
  constructor <;> intro h m hm <;> have := h m hm <;> omega

theorem WriteCursor.wf_iff (p : Params) (wc : WriteCursor) :
    wc.wf p ↔ wc.clean ∧ withinCap p.wbufMax wc.words.length = true := by
  rw [WriteCursor.clean_iff]; tauto

/-- Writing a field that fits keeps the write cursor legal. -/
theorem WriteCursor.write_wf {p : Params} {wc : WriteCursor} (h : wc.wf p) {n : Nat} (hr : wc.roomFor p n = true)
    (value : Int) : (wc.write n value).wf p := by
  rw [WriteCursor.wf_iff] at *
  obtain ⟨h1, h2, -⟩ := wc.write_spec n value h.1
  refine ⟨h1, ?_⟩
  rw [h1.1, h2]
  exact hr

/-- The `n`-bit field at stream bit `k` of the write buffer. -/
def wordsField (words : List Word15) (k n : Nat) : Nat := bitSum (fun j => wordsBit words (k + j)) n

/-- The fields stand one after the other from stream bit `k` on, each as its bit pattern. -/
def Holds (words : List Word15) : Nat → List (Nat × Int) → Prop
  | _, [] => True
  | k, f :: fs => wordsField words k f.1 = trunc f.1 f.2 ∧ Holds words (k + f.1) fs

theorem wordsField_write (wc : WriteCursor) (n : Nat) (value : Int) (h : wc.clean) :
    wordsField (wc.write n value).words wc.bitPos n = trunc n value := by
  obtain ⟨-, -, h3⟩ := wc.write_spec n value h
  unfold wordsField
  rw [bitSum_congr (g := fun j => (trunc n value).testBit j), bitSum_of_lt (trunc_lt n value)]
  intro j hj
  rw [h3]
  simp [hj]

/-- What writing fields one after the other does, from a clean cursor. -/
theorem WriteCursor.writeAll_spec (fields : List (Nat × Int)) : ∀ (wc : WriteCursor), wc.clean →
    (wc.writeAll fields).clean ∧
    (wc.writeAll fields).bitPos = wc.bitPos + (fields.map fun f => f.1).sum ∧
    (∀ k, k < wc.bitPos → wordsBit (wc.writeAll fields).words k = wordsBit wc.words k) ∧
    Holds (wc.writeAll fields).words wc.bitPos fields := by
  induction fields with
  | nil => intro wc h; exact ⟨h, rfl, fun _ _ => rfl, trivial⟩
  | cons f fs ih =>
    intro wc h
    obtain ⟨h1, h2, h3⟩ := wc.write_spec f.1 f.2 h
    obtain ⟨i1, i2, i3, i4⟩ := ih (wc.write f.1 f.2) h1
    have e : wc.writeAll (f :: fs) = (wc.write f.1 f.2).writeAll fs := rfl
    rw [e]
    refine ⟨i1, ?_, fun k hk => ?_, ?_, ?_⟩
    · rw [i2, h2, List.map_cons, List.sum_cons]; omega
    · rw [i3 k (by omega), h3]; simp [hk]
    · rw [← wordsField_write wc f.1 f.2 h]
      unfold wordsField
      exact bitSum_congr fun j hj => i3 _ (by omega)
    · rw [← h2]; exact i4

/-- Writing fields that fit together keeps the write cursor legal. -/
theorem WriteCursor.writeAll_wf {p : Params} {wc : WriteCursor} {fields : List (Nat × Int)} (h : wc.wf p)
    (hr : wc.roomFor p (fields.map fun f => f.1).sum = true) : (wc.writeAll fields).wf p := by
  rw [WriteCursor.wf_iff] at *
  obtain ⟨h1, h2, -⟩ := WriteCursor.writeAll_spec fields wc h.1
  refine ⟨h1, ?_⟩
  rw [h1.1, h2]
  exact hr

theorem WriteCursor.clean_empty : WriteCursor.clean { words := [], w := 0, o := 0 } := by
  rw [WriteCursor.clean_iff]; simp

/-! ## The byte image (20_memory.md R70) -/

theorem image_length (words : List Word15) : (words.flatMap wordBytesOf).length = 2 * words.length := by
  induction words with
  | nil => rfl
  | cons w ws ih => rw [List.flatMap_cons, List.length_append, ih]; simp [wordBytesOf]; omega

/-- Byte by byte: word `k` is at bytes `2k` and `2k + 1`, low byte first. -/
theorem image_getD (words : List Word15) (k : Nat) :
    (words.flatMap wordBytesOf).getD (2 * k) 0#8 = (words.getD k 0#15).setWidth 8 ∧
    (words.flatMap wordBytesOf).getD (2 * k + 1) 0#8 = (words.getD k 0#15 >>> 8).setWidth 8 := by
  induction words generalizing k with
  | nil => simp
  | cons w ws ih =>
    cases k with
    | zero => exact ⟨rfl, rfl⟩
    | succ k =>
      have h := ih k
      rw [List.flatMap_cons]
      constructor
      · exact h.1
      · exact h.2

/-- The loaded image is the write buffer. -/
theorem readWord_image (words : List Word15) (k : Nat) :
    readWord (words.flatMap wordBytesOf) k = words.getD k 0#15 := by
  obtain ⟨h1, h2⟩ := image_getD words k
  apply BitVec.eq_of_toNat_eq
  rw [readWord_toNat, readByte, readByte, h1, h2]
  have h := (words.getD k 0#15).isLt
  simp only [BitVec.toNat_setWidth, BitVec.toNat_ushiftRight, Nat.shiftRight_eq_div_pow]
  omega

theorem streamBit_image (words : List Word15) (k : Nat) :
    streamBit (words.flatMap wordBytesOf) k = wordsBit words k := by
  rw [streamBit, wordsBit, readWord_image]

theorem fieldValue_image (wc : WriteCursor) (k n : Nat) : fieldValue wc.image k n = wordsField wc.words k n :=
  bitSum_congr fun _ _ => streamBit_image _ _

end Sys2Proof.Machine
end

