-- ==== Sys2Proof/Laws/State.lean ====
section
/-! SUPPORT. One lemma per field per update of State, true by rfl, so that no proof unfolds a record update; and the
one-line facts about how an operation ends. -/

namespace Sys2Proof.Machine

/-! ## setRx -/

@[simp] theorem State.setRx_rx (s : State) (v : RxUnit) : (s.setRx v).rx = v := rfl
@[simp] theorem State.setRx_crcAcc (s : State) (v : RxUnit) : (s.setRx v).crcAcc = s.crcAcc := rfl
@[simp] theorem State.setRx_rc (s : State) (v : RxUnit) : (s.setRx v).rc = s.rc := rfl
@[simp] theorem State.setRx_wc (s : State) (v : RxUnit) : (s.setRx v).wc = s.wc := rfl
@[simp] theorem State.setRx_win (s : State) (v : RxUnit) : (s.setRx v).win = s.win := rfl
@[simp] theorem State.setRx_td (s : State) (v : RxUnit) : (s.setRx v).td = s.td := rfl
@[simp] theorem State.setRx_cfg (s : State) (v : RxUnit) : (s.setRx v).cfg = s.cfg := rfl
@[simp] theorem State.setRx_inputs (s : State) (v : RxUnit) : (s.setRx v).inputs = s.inputs := rfl
@[simp] theorem State.setRx_ports (s : State) (v : RxUnit) : (s.setRx v).ports = s.ports := rfl
@[simp] theorem State.setRx_res (s : State) (v : RxUnit) : (s.setRx v).res = s.res := rfl
@[simp] theorem State.setRx_winOf (s : State) (v : RxUnit) (i : Nat) : (s.setRx v).winOf i = s.winOf i := rfl

/-! ## setCrc -/

@[simp] theorem State.setCrc_rx (s : State) (v : BitVec 16) : (s.setCrc v).rx = s.rx := rfl
@[simp] theorem State.setCrc_crcAcc (s : State) (v : BitVec 16) : (s.setCrc v).crcAcc = v := rfl
@[simp] theorem State.setCrc_rc (s : State) (v : BitVec 16) : (s.setCrc v).rc = s.rc := rfl
@[simp] theorem State.setCrc_wc (s : State) (v : BitVec 16) : (s.setCrc v).wc = s.wc := rfl
@[simp] theorem State.setCrc_win (s : State) (v : BitVec 16) : (s.setCrc v).win = s.win := rfl
@[simp] theorem State.setCrc_td (s : State) (v : BitVec 16) : (s.setCrc v).td = s.td := rfl
@[simp] theorem State.setCrc_cfg (s : State) (v : BitVec 16) : (s.setCrc v).cfg = s.cfg := rfl
@[simp] theorem State.setCrc_inputs (s : State) (v : BitVec 16) : (s.setCrc v).inputs = s.inputs := rfl
@[simp] theorem State.setCrc_ports (s : State) (v : BitVec 16) : (s.setCrc v).ports = s.ports := rfl
@[simp] theorem State.setCrc_res (s : State) (v : BitVec 16) : (s.setCrc v).res = s.res := rfl
@[simp] theorem State.setCrc_winOf (s : State) (v : BitVec 16) (i : Nat) : (s.setCrc v).winOf i = s.winOf i := rfl

/-! ## setRc -/

@[simp] theorem State.setRc_rx (s : State) (v : ReadCursor) : (s.setRc v).rx = s.rx := rfl
@[simp] theorem State.setRc_crcAcc (s : State) (v : ReadCursor) : (s.setRc v).crcAcc = s.crcAcc := rfl
@[simp] theorem State.setRc_rc (s : State) (v : ReadCursor) : (s.setRc v).rc = v := rfl
@[simp] theorem State.setRc_wc (s : State) (v : ReadCursor) : (s.setRc v).wc = s.wc := rfl
@[simp] theorem State.setRc_win (s : State) (v : ReadCursor) : (s.setRc v).win = s.win := rfl
@[simp] theorem State.setRc_td (s : State) (v : ReadCursor) : (s.setRc v).td = s.td := rfl
@[simp] theorem State.setRc_cfg (s : State) (v : ReadCursor) : (s.setRc v).cfg = s.cfg := rfl
@[simp] theorem State.setRc_inputs (s : State) (v : ReadCursor) : (s.setRc v).inputs = s.inputs := rfl
@[simp] theorem State.setRc_ports (s : State) (v : ReadCursor) : (s.setRc v).ports = s.ports := rfl
@[simp] theorem State.setRc_res (s : State) (v : ReadCursor) : (s.setRc v).res = s.res := rfl
@[simp] theorem State.setRc_winOf (s : State) (v : ReadCursor) (i : Nat) : (s.setRc v).winOf i = s.winOf i := rfl

/-! ## setWc -/

@[simp] theorem State.setWc_rx (s : State) (v : WriteCursor) : (s.setWc v).rx = s.rx := rfl
@[simp] theorem State.setWc_crcAcc (s : State) (v : WriteCursor) : (s.setWc v).crcAcc = s.crcAcc := rfl
@[simp] theorem State.setWc_rc (s : State) (v : WriteCursor) : (s.setWc v).rc = s.rc := rfl
@[simp] theorem State.setWc_wc (s : State) (v : WriteCursor) : (s.setWc v).wc = v := rfl
@[simp] theorem State.setWc_win (s : State) (v : WriteCursor) : (s.setWc v).win = s.win := rfl
@[simp] theorem State.setWc_td (s : State) (v : WriteCursor) : (s.setWc v).td = s.td := rfl
@[simp] theorem State.setWc_cfg (s : State) (v : WriteCursor) : (s.setWc v).cfg = s.cfg := rfl
@[simp] theorem State.setWc_inputs (s : State) (v : WriteCursor) : (s.setWc v).inputs = s.inputs := rfl
@[simp] theorem State.setWc_ports (s : State) (v : WriteCursor) : (s.setWc v).ports = s.ports := rfl
@[simp] theorem State.setWc_res (s : State) (v : WriteCursor) : (s.setWc v).res = s.res := rfl
@[simp] theorem State.setWc_winOf (s : State) (v : WriteCursor) (i : Nat) : (s.setWc v).winOf i = s.winOf i := rfl

/-! ## setTd -/

@[simp] theorem State.setTd_rx (s : State) (v : TdUnit) : (s.setTd v).rx = s.rx := rfl
@[simp] theorem State.setTd_crcAcc (s : State) (v : TdUnit) : (s.setTd v).crcAcc = s.crcAcc := rfl
@[simp] theorem State.setTd_rc (s : State) (v : TdUnit) : (s.setTd v).rc = s.rc := rfl
@[simp] theorem State.setTd_wc (s : State) (v : TdUnit) : (s.setTd v).wc = s.wc := rfl
@[simp] theorem State.setTd_win (s : State) (v : TdUnit) : (s.setTd v).win = s.win := rfl
@[simp] theorem State.setTd_td (s : State) (v : TdUnit) : (s.setTd v).td = v := rfl
@[simp] theorem State.setTd_cfg (s : State) (v : TdUnit) : (s.setTd v).cfg = s.cfg := rfl
@[simp] theorem State.setTd_inputs (s : State) (v : TdUnit) : (s.setTd v).inputs = s.inputs := rfl
@[simp] theorem State.setTd_ports (s : State) (v : TdUnit) : (s.setTd v).ports = s.ports := rfl
@[simp] theorem State.setTd_res (s : State) (v : TdUnit) : (s.setTd v).res = s.res := rfl
@[simp] theorem State.setTd_winOf (s : State) (v : TdUnit) (i : Nat) : (s.setTd v).winOf i = s.winOf i := rfl

/-! ## setRes -/

@[simp] theorem State.setRes_rx (s : State) (v : Result) : (s.setRes v).rx = s.rx := rfl
@[simp] theorem State.setRes_crcAcc (s : State) (v : Result) : (s.setRes v).crcAcc = s.crcAcc := rfl
@[simp] theorem State.setRes_rc (s : State) (v : Result) : (s.setRes v).rc = s.rc := rfl
@[simp] theorem State.setRes_wc (s : State) (v : Result) : (s.setRes v).wc = s.wc := rfl
@[simp] theorem State.setRes_win (s : State) (v : Result) : (s.setRes v).win = s.win := rfl
@[simp] theorem State.setRes_td (s : State) (v : Result) : (s.setRes v).td = s.td := rfl
@[simp] theorem State.setRes_cfg (s : State) (v : Result) : (s.setRes v).cfg = s.cfg := rfl
@[simp] theorem State.setRes_inputs (s : State) (v : Result) : (s.setRes v).inputs = s.inputs := rfl
@[simp] theorem State.setRes_ports (s : State) (v : Result) : (s.setRes v).ports = s.ports := rfl
@[simp] theorem State.setRes_res (s : State) (v : Result) : (s.setRes v).res = v := rfl
@[simp] theorem State.setRes_winOf (s : State) (v : Result) (i : Nat) : (s.setRes v).winOf i = s.winOf i := rfl

/-! ## setInputs -/

@[simp] theorem State.setInputs_rx (s : State) (v : List Input) : (s.setInputs v).rx = s.rx := rfl
@[simp] theorem State.setInputs_crcAcc (s : State) (v : List Input) : (s.setInputs v).crcAcc = s.crcAcc := rfl
@[simp] theorem State.setInputs_rc (s : State) (v : List Input) : (s.setInputs v).rc = s.rc := rfl
@[simp] theorem State.setInputs_wc (s : State) (v : List Input) : (s.setInputs v).wc = s.wc := rfl
@[simp] theorem State.setInputs_win (s : State) (v : List Input) : (s.setInputs v).win = s.win := rfl
@[simp] theorem State.setInputs_td (s : State) (v : List Input) : (s.setInputs v).td = s.td := rfl
@[simp] theorem State.setInputs_cfg (s : State) (v : List Input) : (s.setInputs v).cfg = s.cfg := rfl
@[simp] theorem State.setInputs_inputs (s : State) (v : List Input) : (s.setInputs v).inputs = v := rfl
@[simp] theorem State.setInputs_ports (s : State) (v : List Input) : (s.setInputs v).ports = s.ports := rfl
@[simp] theorem State.setInputs_res (s : State) (v : List Input) : (s.setInputs v).res = s.res := rfl
@[simp] theorem State.setInputs_winOf (s : State) (v : List Input) (i : Nat) : (s.setInputs v).winOf i = s.winOf i := rfl

/-! ## setPorts -/

@[simp] theorem State.setPorts_rx (s : State) (v : Ports) : (s.setPorts v).rx = s.rx := rfl
@[simp] theorem State.setPorts_crcAcc (s : State) (v : Ports) : (s.setPorts v).crcAcc = s.crcAcc := rfl
@[simp] theorem State.setPorts_rc (s : State) (v : Ports) : (s.setPorts v).rc = s.rc := rfl
@[simp] theorem State.setPorts_wc (s : State) (v : Ports) : (s.setPorts v).wc = s.wc := rfl
@[simp] theorem State.setPorts_win (s : State) (v : Ports) : (s.setPorts v).win = s.win := rfl
@[simp] theorem State.setPorts_td (s : State) (v : Ports) : (s.setPorts v).td = s.td := rfl
@[simp] theorem State.setPorts_cfg (s : State) (v : Ports) : (s.setPorts v).cfg = s.cfg := rfl
@[simp] theorem State.setPorts_inputs (s : State) (v : Ports) : (s.setPorts v).inputs = s.inputs := rfl
@[simp] theorem State.setPorts_ports (s : State) (v : Ports) : (s.setPorts v).ports = v := rfl
@[simp] theorem State.setPorts_res (s : State) (v : Ports) : (s.setPorts v).res = s.res := rfl
@[simp] theorem State.setPorts_winOf (s : State) (v : Ports) (i : Nat) : (s.setPorts v).winOf i = s.winOf i := rfl

/-! ## setWin -/

@[simp] theorem State.setWin_rx (s : State) (i : Nat) (w : List Stamp) : (s.setWin i w).rx = s.rx := rfl
@[simp] theorem State.setWin_crcAcc (s : State) (i : Nat) (w : List Stamp) : (s.setWin i w).crcAcc = s.crcAcc := rfl
@[simp] theorem State.setWin_rc (s : State) (i : Nat) (w : List Stamp) : (s.setWin i w).rc = s.rc := rfl
@[simp] theorem State.setWin_wc (s : State) (i : Nat) (w : List Stamp) : (s.setWin i w).wc = s.wc := rfl
@[simp] theorem State.setWin_win (s : State) (i : Nat) (w : List Stamp) : (s.setWin i w).win = s.win.set i w := rfl
@[simp] theorem State.setWin_td (s : State) (i : Nat) (w : List Stamp) : (s.setWin i w).td = s.td := rfl
@[simp] theorem State.setWin_cfg (s : State) (i : Nat) (w : List Stamp) : (s.setWin i w).cfg = s.cfg := rfl
@[simp] theorem State.setWin_inputs (s : State) (i : Nat) (w : List Stamp) : (s.setWin i w).inputs = s.inputs := rfl
@[simp] theorem State.setWin_ports (s : State) (i : Nat) (w : List Stamp) : (s.setWin i w).ports = s.ports := rfl
@[simp] theorem State.setWin_res (s : State) (i : Nat) (w : List Stamp) : (s.setWin i w).res = s.res := rfl

/-- Writing an existing window and reading it back. -/
theorem State.setWin_winOf_self (s : State) {i : Nat} (w : List Stamp) (h : i < s.win.length) :
    (s.setWin i w).winOf i = w := by
  simp [State.winOf, List.getD, h]

/-- Writing one window leaves every other alone. -/
theorem State.setWin_winOf_other (s : State) {i j : Nat} (w : List Stamp) (h : i ≠ j) :
    (s.setWin i w).winOf j = s.winOf j := by
  simp [State.winOf, List.getD, h]

/-! ## Ending an operation -/

@[simp] theorem State.answer_eq (s : State) (r : Result) : s.answer r = .next { s with res := r } := rfl
@[simp] theorem State.raise_eq (s : State) (e : LcbError) : s.raise e = .next { s with res := .error e } := rfl
@[simp] theorem State.refuse_eq (s : State) : s.refuse = .next { s with res := .error .illegalOperand } := rfl

end Sys2Proof.Machine
end

