-- ==== Sys2Proof/Laws/Program.lean ====
section
/-! SUPPORT. Every operation answers, and sequences of operations split (00_scope.md R8). -/

namespace Sys2Proof.Machine

/-- The meaning of every instruction ends with a result. -/
theorem exec_answers (i : Instr) (s : State) : ∃ t, exec i s = .next t := by
  cases i <;>
    simp only [exec, execStx, execEtx, execEsc, execCtl, execLit, wireByte, execEp0, execEp1, execEp2, execEp3,
      execEp4, execEpx, wirePair, execBcLoad, execBcWinit, execBcWtake, execCrcInit, execCrcUpd, execCrcGet,
      execRxByte, execRxFeed, execRxRst, execSysRst, execBcLoadraw, execBcRd, execBcRds, execBcWr, execTxFrame,
      execTdDec, execTdEnc, execTdRst, execAtBuild, execAtVerify, execAtRst, State.answer_eq, State.raise_eq,
      State.refuse_eq] <;>
    (repeat' split) <;> exact ⟨_, rfl⟩

/-- No operation touches the parameters or what waits at the inputs, and none its operands. -/
theorem exec_hostSide {i : Instr} {s t : State} (h : exec i s = .next t) :
    t.cfg = s.cfg ∧ t.inputs = s.inputs ∧ t.ports = s.ports := by
  revert h
  cases i <;>
    simp only [exec, execStx, execEtx, execEsc, execCtl, execLit, wireByte, execEp0, execEp1, execEp2, execEp3,
      execEp4, execEpx, wirePair, execBcLoad, execBcWinit, execBcWtake, execCrcInit, execCrcUpd, execCrcGet,
      execRxByte, execRxFeed, execRxRst, execSysRst, execBcLoadraw, execBcRd, execBcRds, execBcWr, execTxFrame,
      execTdDec, execTdEnc, execTdRst, execAtBuild, execAtVerify, execAtRst, State.answer_eq, State.raise_eq,
      State.refuse_eq] <;>
    (repeat' split) <;> (intro h; cases h; exact ⟨rfl, rfl, rfl⟩)

theorem issue_answers (o : Op) (s : State) : ∃ t, s.issue o = .next t := exec_answers _ _

@[simp] theorem observe_nil (s : State) : observe [] s = ([], s) := rfl

/-- The first operation's result, then the rest from the state it leaves. -/
theorem observe_cons {o : Op} {s t : State} (h : s.issue o = .next t) (os : List Op) :
    observe (o :: os) s = (t.res :: (observe os t).1, (observe os t).2) := by
  simp only [observe, h]

theorem observe_append (a b : List Op) (s : State) :
    observe (a ++ b) s = ((observe a s).1 ++ (observe b (observe a s).2).1, (observe b (observe a s).2).2) := by
  induction a generalizing s with
  | nil => rfl
  | cons o a ih =>
    obtain ⟨t, ht⟩ := issue_answers o s
    rw [List.cons_append, observe_cons ht, observe_cons ht, ih]
    rfl

/-- One result for each operation. -/
theorem observe_length (os : List Op) (s : State) : (observe os s).1.length = os.length := by
  induction os generalizing s with
  | nil => rfl
  | cons o os ih =>
    obtain ⟨t, ht⟩ := issue_answers o s
    rw [observe_cons ht]; simp [ih]

theorem observe_cfg (os : List Op) (s : State) : (observe os s).2.cfg = s.cfg := by
  induction os generalizing s with
  | nil => rfl
  | cons o os ih =>
    obtain ⟨t, ht⟩ := issue_answers o s
    rw [observe_cons ht]
    exact (ih t).trans (exec_hostSide ht).1

end Sys2Proof.Machine
end

