-- ==== Sys2Proof/Laws/Rx.lean ====
section
/-! SUPPORT. Unit RX: what one byte can do, runs of bytes, and `RX.FEED` against them (42_frame_rx.md R171 to
R184). -/

namespace Sys2Proof.Machine

open Sys2Proof.Config (Params)

/-! ## Wire classes -/

theorem wireClass_stx : wireClass Config.stx = .stx := rfl
theorem wireClass_etx : wireClass Config.etx = .etx := rfl
theorem wireClass_esc : wireClass Config.esc = .esc := rfl

/-- From 5 on every byte is a literal one. -/
theorem wireClass_lit {b : Byte} (h : 5 ≤ b.toNat) : wireClass b = .lit := by
  revert b; decide

/-- A byte that is a marker is known by its class. -/
theorem wireClass_marker (b : Byte) :
    (wireClass b = .stx ↔ b = Config.stx) ∧ (wireClass b = .etx ↔ b = Config.etx) ∧
      (wireClass b = .esc ↔ b = Config.esc) := by
  revert b; decide

/-! ## One byte -/

/-- Appending a byte: kept if there is room, else recorded as lost. -/
theorem RxUnit.append_cases (p : Params) (r : RxUnit) (x : Byte) :
    (withinCap p.frameMax (r.fbuf.length + 1) = true ∧ r.append p x = { r with fbuf := r.fbuf ++ [x] }) ∨
    (withinCap p.frameMax (r.fbuf.length + 1) = false ∧ r.append p x = { r with ovf := true }) := by
  unfold RxUnit.append
  cases h : withinCap p.frameMax (r.fbuf.length + 1) <;> simp

/-- With room for one more byte, appending appends. -/
theorem RxUnit.append_room {p : Params} {r : RxUnit} (h : ∀ m, p.frameMax = some m → r.fbuf.length < m) (x : Byte) :
    r.append p x = { r with fbuf := r.fbuf ++ [x] } := by
  have : withinCap p.frameMax (r.fbuf.length + 1) = true := (withinCap_iff _ _).2 fun m hm => h m hm
  simp [RxUnit.append, this]

/-- With a full buffer the byte is lost and the loss recorded. -/
theorem RxUnit.append_full {p : Params} {r : RxUnit} {m : Nat} (hm : p.frameMax = some m) (h : m ≤ r.fbuf.length)
    (x : Byte) : r.append p x = { r with ovf := true } := by
  have : withinCap p.frameMax (r.fbuf.length + 1) = false := (withinCap_false_iff _ _).2 ⟨m, hm, by omega⟩
  simp [RxUnit.append, this]

@[simp] theorem RxUnit.append_state (p : Params) (r : RxUnit) (x : Byte) : (r.append p x).state = r.state := by
  rcases r.append_cases p x with ⟨-, h⟩ | ⟨-, h⟩ <;> rw [h]

/-- Appending inside a frame keeps the unit legal. -/
theorem RxUnit.append_wf {p : Params} {r : RxUnit} (h : r.wf p) (hs : r.state ≠ .idle) (x : Byte) :
    (r.append p x).wf p := by
  obtain ⟨h1, h2, h3⟩ := h
  rcases r.append_cases p x with ⟨ha, e⟩ | ⟨ha, e⟩ <;> rw [e]
  · refine ⟨by simpa using ha, fun ho => ?_, fun hi => absurd hi hs⟩
    have := (withinCap_iff _ _).1 ha _ (h2 ho)
    omega
  · refine ⟨h1, fun _ => ?_, fun hi => absurd hi hs⟩
    obtain ⟨m, hm, hlt⟩ := (withinCap_false_iff _ _).1 ha
    have := (withinCap_iff _ _).1 h1 m hm
    rw [hm]; congr 1; show m = r.fbuf.length; omega

theorem withinCap_zero (cap : Option Nat) : withinCap cap 0 = true := by cases cap <;> simp [withinCap]

/-- An empty buffer with no overflow is legal in every state. -/
theorem RxUnit.clear_wf (p : Params) (q : RxState) : RxUnit.wf p { state := q, fbuf := [], ovf := false } :=
  ⟨withinCap_zero _, by simp, by simp⟩

theorem RxUnit.goto_wf {p : Params} {r : RxUnit} (h : r.wf p) {q : RxState} (hq : q ≠ .idle) : (r.goto q).wf p :=
  ⟨h.1, h.2.1, fun hi => absurd hi hq⟩

/-- One byte keeps the unit legal. -/
theorem rxTable_wf {p : Params} {r : RxUnit} (h : r.wf p) (c : WireClass) (b : Byte) : (rxTable p r c b).1.wf p := by
  unfold rxTable
  split
  · cases c
    · exact RxUnit.clear_wf p .frame
    · cases p.etxInIdle <;> exact h
    · exact h
    · exact h
    · exact h
  · rename_i hs
    have hne : r.state ≠ .idle := by rw [hs]; decide
    cases c
    · cases p.stxInFrame
      · exact RxUnit.clear_wf p r.state
      · exact RxUnit.append_wf h hne b
    · exact RxUnit.clear_wf p .idle
    · exact RxUnit.goto_wf h (by decide)
    · exact RxUnit.append_wf h hne b
    · exact RxUnit.append_wf h hne b
  · rename_i hs
    exact RxUnit.goto_wf (RxUnit.append_wf h (by rw [hs]; decide) _) (by decide)

/-- A byte is passed through unchanged, only outside a frame and never together with an event; it is not `STX`, and
not `ETX` where that is dropped (R173 to R175). -/
theorem rxByteStep_passthrough {p : Params} {r : RxUnit} {b x : Byte} (h : (rxByteStep p r b).2.1 = some x) :
    x = b ∧ r.state = .idle ∧ (rxByteStep p r b).1 = r ∧ (rxByteStep p r b).2.2 = none ∧ b ≠ Config.stx ∧
      (p.etxInIdle = .drop → b ≠ Config.etx) := by
  obtain ⟨m1, m2, -⟩ := wireClass_marker b
  unfold rxByteStep rxTable at *
  cases hs : r.state <;> cases hc : wireClass b <;> simp only [hs, hc] at h ⊢ <;> rw [hc] at m1 m2 <;>
    first
    | (cases he : p.etxInIdle <;> simp only [he] at h ⊢ <;> simp_all)
    | (cases he : p.stxInFrame <;> simp only [he] at h ⊢ <;> simp_all)
    | simp_all

/-! ## Runs of bytes -/

/-- The outputs of one byte. -/
def rxOutputsOf (o : RxUnit × Option Byte × Option RxEvent) : List RxOutput :=
  o.2.1.toList.map .passthrough ++ o.2.2.toList.map .event

/-- Bytes one after the other: the outputs, and the unit left. -/
def rxRun (p : Params) : List Byte → RxUnit → List RxOutput × RxUnit
  | [], r => ([], r)
  | b :: bs, r => (rxOutputsOf (rxByteStep p r b) ++ (rxRun p bs (rxByteStep p r b).1).1, (rxRun p bs (rxByteStep p r b).1).2)

theorem rxRun_append (p : Params) (a b : List Byte) (r : RxUnit) :
    rxRun p (a ++ b) r = ((rxRun p a r).1 ++ (rxRun p b (rxRun p a r).2).1, (rxRun p b (rxRun p a r).2).2) := by
  induction a generalizing r with
  | nil => rfl
  | cons x a ih => simp only [List.cons_append, rxRun, ih, List.append_assoc]

theorem rxRun_wf {p : Params} (bs : List Byte) {r : RxUnit} (h : r.wf p) : (rxRun p bs r).2.wf p := by
  induction bs generalizing r with
  | nil => exact h
  | cons b bs ih => exact ih (rxTable_wf h _ b)

/-- The event `RX.FEED` reports, as an output. -/
def feedEventOf : FeedEvent → List Byte → List RxOutput
  | .none, _ => []
  | .frame, d => [.event (.frame d)]
  | .ckErr, d => [.event (.ckErr d)]

/-- What `RX.FEED` does: it runs a prefix byte by byte and reports its passthrough bytes and at most one event, which
ends it, so that the bytes before its last one give none; without an event it has run everything. -/
theorem feedLoop_spec (p : Params) (bs : List Byte) : ∀ (r : RxUnit) (k : Nat) (pts : List Byte),
    ∃ (ev : FeedEvent) (n : Nat) (pts' data : List Byte),
      (feedLoop p r bs k pts).2 = .rxFeed ev (k + n) (pts ++ pts') data ∧
      n ≤ bs.length ∧
      rxRun p (bs.take n) r = (pts'.map .passthrough ++ feedEventOf ev data, (feedLoop p r bs k pts).1) ∧
      (ev = .none → n = bs.length ∧ data = []) ∧
      (ev ≠ .none → 0 < n ∧ ∀ o ∈ (rxRun p (bs.take (n - 1)) r).1, ∃ b : Byte, o = .passthrough b) := by
  induction bs with
  | nil => intro r k pts; exact ⟨.none, 0, [], [], by simp [feedLoop], by simp, rfl, by simp, by simp⟩
  | cons b bs ih =>
    intro r k pts
    cases he : (rxByteStep p r b).2.2 with
    | some e =>
      have hpt : (rxByteStep p r b).2.1 = none := by
        cases hp : (rxByteStep p r b).2.1 with
        | none => rfl
        | some x => have := (rxByteStep_passthrough hp).2.2.2.1; rw [he] at this; cases this
      cases e with
      | frame c =>
        exact ⟨.frame, 1, [], c, by simp [feedLoop, he, hpt], by simp,
          by simp [rxRun, rxOutputsOf, feedLoop, he, hpt, feedEventOf], by simp, by simp [rxRun]⟩
      | ckErr c =>
        exact ⟨.ckErr, 1, [], c, by simp [feedLoop, he, hpt], by simp,
          by simp [rxRun, rxOutputsOf, feedLoop, he, hpt, feedEventOf], by simp, by simp [rxRun]⟩
    | none =>
      obtain ⟨ev, n, pts', data, h1, h2, h3, h4, h5⟩ :=
        ih (rxByteStep p r b).1 (k + 1) (pts ++ (rxByteStep p r b).2.1.toList)
      have hstep : feedLoop p r (b :: bs) k pts =
          feedLoop p (rxByteStep p r b).1 bs (k + 1) (pts ++ (rxByteStep p r b).2.1.toList) := by
        simp only [feedLoop, he]
      refine ⟨ev, n + 1, (rxByteStep p r b).2.1.toList ++ pts', data, ?_, by simpa using h2, ?_, ?_, ?_⟩
      · rw [hstep, h1]; simp; omega
      · rw [hstep, List.take_succ_cons, rxRun, h3]
        simp [rxOutputsOf, he]
      · intro hn; have := h4 hn; simp [this]
      · intro hn
        obtain ⟨hpos, hpre⟩ := h5 hn
        refine ⟨by omega, ?_⟩
        obtain ⟨m, rfl⟩ : ∃ m, n = m + 1 := ⟨n - 1, by omega⟩
        simp only [Nat.add_sub_cancel, List.take_succ_cons, rxRun, List.mem_append] at hpre ⊢
        rintro o (ho | ho)
        · simp only [rxOutputsOf, he, Option.toList_none, List.map_nil, List.append_nil, List.mem_map] at ho
          obtain ⟨b', -, hb'⟩ := ho
          exact ⟨b', hb'.symm⟩
        · exact hpre o ho

theorem feedLoop_wf {p : Params} {r : RxUnit} (h : r.wf p) (bs : List Byte) (k : Nat) (pts : List Byte) :
    (feedLoop p r bs k pts).1.wf p := by
  obtain ⟨ev, n, pts', data, -, -, h3, -⟩ := feedLoop_spec p bs r k pts
  have := rxRun_wf (bs.take n) h
  rwa [h3] at this

theorem rxOutputs_rxFeed (ev : FeedEvent) (n : Nat) (pts data : List Byte) :
    (Result.rxFeed ev n pts data).rxOutputs = pts.map .passthrough ++ feedEventOf ev data := by
  cases ev <;> simp [Result.rxOutputs, feedEventOf]

/-! ## Runs of operations -/

/-- `RX.BYTE b`, issued. -/
theorem issue_rxByte (s : State) (b : Byte) :
    s.issue (.plain (.rxByte b)) = .next
      { s with rx := (rxByteStep s.cfg s.rx b).1
               ports := .empty
               res := .rxByte (rxByteStep s.cfg s.rx b).2.1 (rxByteStep s.cfg s.rx b).2.2 } := rfl

/-- `RX.FEED bytes`, issued. -/
theorem issue_rxFeed (s : State) (bytes : List Byte) :
    s.issue (feedOp bytes) = .next
      { s with rx := (feedLoop s.cfg s.rx bytes 0 []).1
               ports := { Ports.empty with bytes := bytes }
               res := (feedLoop s.cfg s.rx bytes 0 []).2 } := rfl

/-- `RX.BYTE` on each byte in order is the unit's run. -/
theorem observe_rxBytes (bytes : List Byte) (s : State) :
    (observe (bytes.map fun b => Op.plain (.rxByte b)) s).1.flatMap Result.rxOutputs = (rxRun s.cfg bytes s.rx).1 ∧
    ∃ (ports : Ports) (res : Result), (observe (bytes.map fun b => Op.plain (.rxByte b)) s).2 =
      { s with rx := (rxRun s.cfg bytes s.rx).2, ports := ports, res := res } := by
  induction bytes generalizing s with
  | nil => exact ⟨rfl, s.ports, s.res, rfl⟩
  | cons b bs ih =>
    rw [List.map_cons, observe_cons (issue_rxByte s b)]
    obtain ⟨h1, ports, res, h2⟩ := ih { s with rx := (rxByteStep s.cfg s.rx b).1
                                               ports := .empty
                                               res := .rxByte (rxByteStep s.cfg s.rx b).2.1 (rxByteStep s.cfg s.rx b).2.2 }
    refine ⟨?_, ports, res, h2⟩
    rw [List.flatMap_cons, h1]
    rfl

/-- `FEEDALL` is the unit's run. -/
theorem feedAllLoop_eq (rounds : Nat) : ∀ (bytes : List Byte) (s : State), bytes.length < rounds →
    (feedAllLoop rounds bytes s).1 = (rxRun s.cfg bytes s.rx).1 ∧
    ∃ (ports : Ports) (res : Result), (feedAllLoop rounds bytes s).2 =
      { s with rx := (rxRun s.cfg bytes s.rx).2, ports := ports, res := res } := by
  induction rounds with
  | zero => intro bytes s h; omega
  | succ rounds ih =>
    intro bytes s hlen
    obtain ⟨ev, n, pts', data, h1, h2, h3, h4, h5⟩ := feedLoop_spec s.cfg bytes s.rx 0 []
    rw [Nat.zero_add, List.nil_append] at h1
    have hsplit := rxRun_append s.cfg (bytes.take n) (bytes.drop n) s.rx
    rw [List.take_append_drop, h3] at hsplit
    simp only [feedAllLoop, issue_rxFeed, h1, Result.consumed]
    by_cases hr : (bytes.drop n).isEmpty
    · rw [List.isEmpty_iff] at hr
      rw [hr] at hsplit
      simp only [hr, List.isEmpty_nil, if_true, rxOutputs_rxFeed]
      rw [hsplit]
      refine ⟨by simp [rxRun], _, _, rfl⟩
    · have hn : 0 < n := by
        by_cases hev : ev = .none
        · rw [(h4 hev).1, List.drop_length] at hr; simp at hr
        · exact (h5 hev).1
      simp only [hr, Bool.false_eq_true, if_false, rxOutputs_rxFeed]
      obtain ⟨i1, ports, res, i2⟩ := ih (bytes.drop n)
        { s with rx := (feedLoop s.cfg s.rx bytes 0 []).1
                 ports := { Ports.empty with bytes := bytes }
                 res := .rxFeed ev n pts' data } (by rw [List.length_drop]; omega)
      rw [i1, i2, hsplit]
      exact ⟨rfl, _, _, rfl⟩

theorem feedAll_eq (bytes : List Byte) (s : State) :
    (feedAll bytes s).1 = (rxRun s.cfg bytes s.rx).1 ∧
    ∃ (ports : Ports) (res : Result), (feedAll bytes s).2 =
      { s with rx := (rxRun s.cfg bytes s.rx).2, ports := ports, res := res } :=
  feedAllLoop_eq _ bytes s (by omega)

end Sys2Proof.Machine
end

