-- ==== Sys2Proof/Laws/Escape.lean ====
section
/-! SUPPORT. Byte stuffing and the checksum bytes, on the sending and the receiving side (43_frame_tx.md R201 to R205,
42_frame_rx.md R178 to R180). -/

namespace Sys2Proof.Machine

open Sys2Proof.Config (Params)

/-! ## One literal byte -/

/-- A byte of value `v + 64` with `v` below 5 is the escaped form of `v`. -/
theorem escDecode_escaped {p : Params} (h : escDecodeOk p = true) {b : Byte} (hb : b.toNat ≤ 4) :
    escDecode p (b + Config.escOffset) = b := by
  have e : b + Config.escOffset = BitVec.ofNat 8 (b.toNat + 64) := by
    apply BitVec.eq_of_toNat_eq
    rw [BitVec.toNat_add, BitVec.toNat_ofNat]; rfl
  rw [e, escDecode_canonical h (by omega)]
  simp

theorem escapeByte_cases (b : Byte) :
    (b.toNat ≤ 4 ∧ escapeByte b = [Config.esc, b + Config.escOffset] ∧ (b + Config.escOffset).toNat = b.toNat + 64) ∨
    (5 ≤ b.toNat ∧ escapeByte b = [b]) := by
  by_cases h : b.toNat ≤ 4
  · refine .inl ⟨h, by simp [escapeByte, h], ?_⟩
    rw [BitVec.toNat_add]
    show (b.toNat + 64) % 256 = _
    omega
  · exact .inr ⟨by omega, by simp [escapeByte, h]⟩

/-! ## The pure functions -/

@[simp] theorem escape_nil : escape [] = [] := rfl
theorem escape_cons (b : Byte) (bs : List Byte) : escape (b :: bs) = escapeByte b ++ escape bs := rfl
theorem escape_append (a b : List Byte) : escape (a ++ b) = escape a ++ escape b := List.flatMap_append

theorem escape_length (bs : List Byte) :
    (escape bs).length = bs.length + (bs.filter fun x => decide (x.toNat ≤ 4)).length := by
  induction bs with
  | nil => rfl
  | cons b bs ih =>
    rw [escape_cons, List.length_append, ih]
    rcases escapeByte_cases b with ⟨h, e, -⟩ | ⟨h, e⟩
    · rw [e]; simp [h]; omega
    · rw [e]; simp [show ¬ b.toNat ≤ 4 by omega]; omega

/-- No escaped byte is a control code. -/
theorem escape_no_marker (bs : List Byte) : ∀ x ∈ escape bs, 3 < x.toNat := by
  intro x hx
  obtain ⟨b, -, hb⟩ := List.mem_flatMap.1 hx
  rcases escapeByte_cases b with ⟨h, e, e2⟩ | ⟨h, e⟩
  · rw [e] at hb
    rcases List.mem_cons.1 hb with rfl | hb
    · decide
    · rw [List.mem_singleton.1 hb]; omega
  · rw [e] at hb; rw [List.mem_singleton.1 hb]; omega

theorem unescape_esc (p : Params) (e : Byte) (rest : List Byte) :
    unescape p (Config.esc :: e :: rest) = escDecode p e :: unescape p rest := by
  simp [unescape]

theorem unescape_plain (p : Params) {b : Byte} (h : b ≠ Config.esc) (rest : List Byte) :
    unescape p (b :: rest) = b :: unescape p rest := by
  cases rest with
  | nil => simp [unescape, h]
  | cons e rest => simp [unescape, h]

/-! ## Receiving escaped bytes -/

/-- One byte inside a frame that is no marker and not `ESC`. -/
theorem rxByteStep_content {p : Params} {r : RxUnit} (hs : r.state = .frame) {b : Byte} (hb : 5 ≤ b.toNat) :
    rxByteStep p r b = (r.append p b, none, none) := by
  simp [rxByteStep, rxTable, hs, wireClass_lit hb]

theorem rxByteStep_esc {p : Params} {r : RxUnit} (hs : r.state = .frame) :
    rxByteStep p r Config.esc = (r.goto .frameEsc, none, none) := by
  simp [rxByteStep, rxTable, hs, wireClass_esc]

theorem rxByteStep_operand {p : Params} {r : RxUnit} (hs : r.state = .frameEsc) (b : Byte) :
    rxByteStep p r b = ((r.append p (escDecode p b)).goto .frame, none, none) := by
  simp [rxByteStep, rxTable, hs]

/-- An escaped literal byte inside a frame appends that byte, silently. -/
theorem rxRun_escapeByte {p : Params} (hp : escDecodeOk p = true) {r : RxUnit} (hs : r.state = .frame)
    (hr : ∀ m, p.frameMax = some m → r.fbuf.length < m) (b : Byte) :
    rxRun p (escapeByte b) r = ([], { r with fbuf := r.fbuf ++ [b] }) := by
  rcases escapeByte_cases b with ⟨h, e, -⟩ | ⟨h, e⟩ <;> rw [e]
  · simp only [rxRun, rxByteStep_esc hs]
    rw [rxByteStep_operand (r := r.goto .frameEsc) rfl, escDecode_escaped hp h,
      RxUnit.append_room (r := r.goto .frameEsc) hr]
    obtain ⟨state, fbuf, ovf⟩ := r
    subst hs
    rfl
  · simp only [rxRun, rxByteStep_content hs h, RxUnit.append_room hr]
    rfl

/-- Escaped bytes inside a frame append those bytes, silently. -/
theorem rxRun_escape {p : Params} (hp : escDecodeOk p = true) (bs : List Byte) : ∀ {r : RxUnit}, r.state = .frame →
    (∀ m, p.frameMax = some m → r.fbuf.length + bs.length ≤ m) →
    rxRun p (escape bs) r = ([], { r with fbuf := r.fbuf ++ bs }) := by
  induction bs with
  | nil => intro r _ _; simp [rxRun]
  | cons b bs ih =>
    intro r hs hr
    rw [escape_cons, rxRun_append, rxRun_escapeByte hp hs (fun m hm => by have := hr m hm; simp at this; omega)]
    rw [ih (by exact hs) (fun m hm => by have := hr m hm; simp at this ⊢; omega)]
    simp

/-! ## The checksum bytes -/

theorem cksOf_length (content : List Byte) : (cksOf content).length = 4 := rfl

/-- The four bytes as numbers: bits 0..7, 8..14, 15 of the checksum, and zero. -/
theorem cksOf_toNat (content : List Byte) :
    ((cksOf content).map BitVec.toNat) =
      [(crc16 content).toNat % 256, (crc16 content).toNat / 256 % 128, (crc16 content).toNat / 32768, 0] := by
  have h := (crc16 content).isLt
  have e1 : ((crc16 content &&& 0x7FFF#16)).toNat = (crc16 content).toNat % 32768 := by
    rw [BitVec.toNat_and]
    exact Nat.and_two_pow_sub_one_eq_mod _ 15
  simp only [cksOf, List.map_cons, List.map_nil, BitVec.toNat_setWidth, BitVec.toNat_ushiftRight,
    Nat.shiftRight_eq_div_pow, e1, List.cons.injEq, and_true]
  refine ⟨?_, ?_, ?_, rfl⟩ <;> omega

/-- The checksum a closing `ETX` sees, from the last four literal bytes as numbers (R180). -/
theorem transmittedCks_eq (content : List Byte) (a0 a1 b0 b1 : Byte) :
    transmittedCks (content ++ [a0, a1, b0, b1]) =
      (a0.toNat + 256 * a1.toNat) % 32768 + 32768 * ((b0.toNat + 256 * b1.toNat) % 32768) := by
  have hd : (content ++ [a0, a1, b0, b1]).drop ((content ++ [a0, a1, b0, b1]).length - Config.cksBytes) =
      [a0, a1, b0, b1] := by
    rw [List.length_append]
    show (content ++ [a0, a1, b0, b1]).drop (content.length + 4 - 4) = _
    simp
  simp only [transmittedCks, hd]
  rw [readWord_toNat, readWord_toNat]
  show (a0.toNat + 256 * a1.toNat) % 2 ^ 15 ||| ((b0.toNat + 256 * b1.toNat) % 2 ^ 15) <<< 15 = _
  rw [Nat.or_comm, Nat.shiftLeft_eq, Nat.mul_comm _ (2 ^ 15), ← Nat.two_pow_add_eq_or_of_lt (Nat.mod_lt _ (by norm_num))]
  omega

/-- Content and its checksum bytes validate. -/
theorem transmittedCks_cksOf (content : List Byte) :
    transmittedCks (content ++ cksOf content) = (crc16 content).toNat := by
  have h := (crc16 content).isLt
  have hn := cksOf_toNat content
  obtain ⟨a0, a1, b0, b1, hc⟩ : ∃ a0 a1 b0 b1, cksOf content = [a0, a1, b0, b1] := ⟨_, _, _, _, rfl⟩
  rw [hc] at hn ⊢
  simp only [List.map_cons, List.map_nil, List.cons.injEq, and_true] at hn
  obtain ⟨h0, h1, h2, h3⟩ := hn
  rw [transmittedCks_eq, h0, h1, h2, h3]
  omega

/-- Validation of a buffer split into content and four more bytes (R180). -/
theorem RxUnit.validate_split {r : RxUnit} (ho : r.ovf = false) {content cks : List Byte}
    (hf : r.fbuf = content ++ cks) (hc : cks.length = 4) :
    r.validate = if transmittedCks r.fbuf = (crc16 content).toNat then .frame content else .ckErr r.fbuf := by
  have hl : r.fbuf.length = content.length + 4 := by rw [hf, List.length_append, hc]
  have ht : r.fbuf.take (r.fbuf.length - Config.cksBytes) = content := by
    rw [hl, hf]
    show (content ++ cks).take (content.length + 4 - 4) = content
    simp
  have hlt : decide (r.fbuf.length < Config.cksBytes) = false := by
    rw [hl]; simp [Config.cksBytes]
  simp only [RxUnit.validate, ho, hlt, Bool.or_false, Bool.false_eq_true, if_false, ht]

/-- A short or overflown buffer does not validate (R180). -/
theorem RxUnit.validate_short {r : RxUnit} (h : r.ovf = true ∨ r.fbuf.length < 4) : r.validate = .ckErr r.fbuf := by
  have : (r.ovf || decide (r.fbuf.length < Config.cksBytes)) = true := by
    rcases h with h | h
    · simp [h]
    · simp [Config.cksBytes, h]
  simp only [RxUnit.validate, this, if_true]

end Sys2Proof.Machine
end

