-- ==== Sys2Proof/Laws/PerInstr.lean ====
section
/-! SUPPORT. The family `TableRow`, one lemma per constructor: what the encoder makes of an instruction fits the
instruction's row of spec/opcode_table.json. -/

namespace Sys2Proof.Laws.TableRow

/-- A row of spec/opcode_table.json: its length in bits, its mask and what the masked bits must be. -/
structure Row where
  bits : Nat
  mask : Nat
  want : Nat
deriving DecidableEq, Repr

/-- The row of each instruction, copied from the table. -/
def rowOf : Instr → Row
  | .stx => ⟨8, 0xFF, 0x02⟩
  | .etx => ⟨8, 0xFF, 0x03⟩
  | .esc => ⟨8, 0xFF, 0x04⟩
  | .ctl _ => ⟨8, 0xFE, 0x00⟩
  | .lit _ => ⟨8, 0x00, 0x00⟩
  | .ep0 => ⟨16, 0xFFFF, 0x0440⟩
  | .ep1 => ⟨16, 0xFFFF, 0x0441⟩
  | .ep2 => ⟨16, 0xFFFF, 0x0442⟩
  | .ep3 => ⟨16, 0xFFFF, 0x0443⟩
  | .ep4 => ⟨16, 0xFFFF, 0x0444⟩
  | .epx _ => ⟨16, 0xFF00, 0x0400⟩
  | .bcLoad => ⟨16, 0xFFFF, 0x1000⟩
  | .bcLoadraw => ⟨16, 0xFFFF, 0x1100⟩
  | .bcRd _ => ⟨16, 0xFFC0, 0x1200⟩
  | .bcRds _ => ⟨16, 0xFFC0, 0x1300⟩
  | .bcWinit => ⟨16, 0xFFFF, 0x1400⟩
  | .bcWr _ => ⟨16, 0xFFC0, 0x1500⟩
  | .bcWtake => ⟨16, 0xFFFF, 0x1600⟩
  | .crcInit => ⟨16, 0xFFFF, 0x2000⟩
  | .crcUpd _ => ⟨16, 0xFF00, 0x2100⟩
  | .crcGet => ⟨16, 0xFFFF, 0x2200⟩
  | .rxByte _ => ⟨16, 0xFF00, 0x3000⟩
  | .rxFeed => ⟨16, 0xFFFF, 0x3100⟩
  | .rxRst => ⟨16, 0xFFFF, 0x3200⟩
  | .txFrame => ⟨16, 0xFFFF, 0x4000⟩
  | .tdDec => ⟨16, 0xFFFF, 0x5000⟩
  | .tdEnc _ => ⟨16, 0xFFFE, 0x5100⟩
  | .tdRst => ⟨16, 0xFFFF, 0x5200⟩
  | .atBuild _ => ⟨16, 0xFF00, 0x6000⟩
  | .atVerify _ => ⟨16, 0xFF00, 0x6100⟩
  | .atRst _ => ⟨16, 0xFF00, 0x6200⟩
  | .sysRst => ⟨16, 0xFFFF, 0xFF00⟩

/-- A code as one number, as the table numbers it: the first wire byte of a pair in the upper half. -/
def numberOf : Code → Nat
  | .wire bytes => bytes.foldl (fun acc b => acc * 256 + b.toNat) 0
  | .cmd w => w.toNat

/-- The encoding of `i` is a word of its row, and read back as a table word it is that code. -/
def Statement (i : Instr) : Prop :=
  numberOf (encode i) < 2 ^ (rowOf i).bits ∧
  numberOf (encode i) &&& (rowOf i).mask = (rowOf i).want ∧
  tableCode (rowOf i).bits (numberOf (encode i)) = encode i

theorem stx : Statement .stx := by unfold Statement; decide
theorem etx : Statement .etx := by unfold Statement; decide
theorem esc : Statement .esc := by unfold Statement; decide
theorem ctl (x : BitVec 1) : Statement (.ctl x) := by
  unfold Statement; revert x; decide
theorem lit (b : Byte) : Statement (.lit b) := by
  unfold Statement; revert b; decide
theorem ep0 : Statement .ep0 := by unfold Statement; decide
theorem ep1 : Statement .ep1 := by unfold Statement; decide
theorem ep2 : Statement .ep2 := by unfold Statement; decide
theorem ep3 : Statement .ep3 := by unfold Statement; decide
theorem ep4 : Statement .ep4 := by unfold Statement; decide
theorem epx (e : Byte) : Statement (.epx e) := by
  unfold Statement; revert e; decide
theorem bcLoad : Statement .bcLoad := by unfold Statement; decide
theorem bcLoadraw : Statement .bcLoadraw := by unfold Statement; decide
theorem bcRd (n : BitVec 6) : Statement (.bcRd n) := by
  unfold Statement; revert n; decide
theorem bcRds (n : BitVec 6) : Statement (.bcRds n) := by
  unfold Statement; revert n; decide
theorem bcWinit : Statement .bcWinit := by unfold Statement; decide
theorem bcWr (n : BitVec 6) : Statement (.bcWr n) := by
  unfold Statement; revert n; decide
theorem bcWtake : Statement .bcWtake := by unfold Statement; decide
theorem crcInit : Statement .crcInit := by unfold Statement; decide
theorem crcUpd (b : Byte) : Statement (.crcUpd b) := by
  unfold Statement; revert b; decide
theorem crcGet : Statement .crcGet := by unfold Statement; decide
theorem rxByte (b : Byte) : Statement (.rxByte b) := by
  unfold Statement; revert b; decide
theorem rxFeed : Statement .rxFeed := by unfold Statement; decide
theorem rxRst : Statement .rxRst := by unfold Statement; decide
theorem txFrame : Statement .txFrame := by unfold Statement; decide
theorem tdDec : Statement .tdDec := by unfold Statement; decide
theorem tdEnc (full : Bool) : Statement (.tdEnc full) := by
  unfold Statement; revert full; decide
theorem tdRst : Statement .tdRst := by unfold Statement; decide
theorem atBuild (i : Byte) : Statement (.atBuild i) := by
  unfold Statement; revert i; decide
theorem atVerify (i : Byte) : Statement (.atVerify i) := by
  unfold Statement; revert i; decide
theorem atRst (i : Byte) : Statement (.atRst i) := by
  unfold Statement; revert i; decide
theorem sysRst : Statement .sysRst := by unfold Statement; decide

end Sys2Proof.Laws.TableRow
end

