-- ==== Sys2Proof/Laws/Step.lean ====
section
/-! SUPPORT. What a step takes from the inputs, and what follows for the state it hands on (00_scope.md R8). -/

namespace Sys2Proof.Machine

/-- The state a fetch hands on. -/
def Fetched.state : Fetched → State
  | .nothing s => s
  | .instr _ s => s
  | .illegal _ s => s

/-- A fetch takes from the inputs and puts operands on the ports; it touches nothing else. -/
theorem fetch_state (s : State) : ∃ q ports, (fetch s).state = { s with inputs := q, ports := ports } := by
  unfold fetch
  rcases s.inputs with _ | ⟨x, q⟩
  · exact ⟨s.inputs, s.ports, rfl⟩
  · cases x with
    | cmd w ports =>
      simp only []
      split <;> exact ⟨q, ports, rfl⟩
    | wire bs =>
      simp only []
      split
      · exact ⟨_, s.ports, rfl⟩
      · exact ⟨q, s.ports, rfl⟩

/-- A step does one of three things with the state fetched: nothing, a refusal, one instruction. -/
theorem step_cases (s : State) :
    step s = .next (fetch s).state ∨
    step s = .next { (fetch s).state with res := .error .illegalOperand } ∨
    ∃ i, step s = exec i (fetch s).state := by
  unfold step
  cases h : fetch s with
  | nothing s' => exact .inl rfl
  | instr i s' => exact .inr (.inr ⟨i, rfl⟩)
  | illegal e s' => exact .inr (.inl rfl)

end Sys2Proof.Machine
end

