-- ==== Sys2Proof/Laws/Td.lean ====
section
/-! SUPPORT. Unit TD: what decoding the fields of a payload can give, and that it undoes encoding them
(44_telemetry_delta.md R217, R223). -/

namespace Sys2Proof.Machine

open Sys2Proof.Config (Params Field)

/-! ## One value -/

/-- A value read for a field is in the field's range, in both cursor modes. -/
theorem readValue_inRange {f : Field} (h : 1 ≤ f.width) (rc : ReadCursor) :
    fieldInRange f (readValue f rc).1 = true := by
  have hlt := ReadCursor.read_lt rc f.width
  cases hs : f.signed with
  | true =>
    obtain ⟨h1, h2⟩ := sext_range h hlt
    simp only [fieldInRange, readValue, hs, ReadCursor.readSigned, if_true, Bool.and_eq_true, decide_eq_true_eq]
    exact ⟨h1, h2⟩
  | false =>
    simp only [fieldInRange, readValue, hs, Bool.false_eq_true, if_false, Bool.and_eq_true, decide_eq_true_eq]
    exact ⟨by omega, by exact_mod_cast hlt⟩

theorem readValue_snd (f : Field) (rc : ReadCursor) : (readValue f rc).2 = (rc.read f.width).2 := by
  unfold readValue; split <;> rfl

/-- A packed value: the field at the cursor, extended if it is signed. -/
theorem readValue_packed {f : Field} {rc : ReadCursor} (h : rc.mode = .packed) :
    readValue f rc =
      (if f.signed then sext f.width (fieldValue rc.buf rc.bitPos f.width) else (fieldValue rc.buf rc.bitPos f.width : Int),
        rc.seek (rc.bitPos + f.width)) := by
  unfold readValue
  split
  · rw [ReadCursor.readSigned_packed h]
  · rw [ReadCursor.read_packed h]

/-- A raw value: the next list element modulo `2^width`, extended if the field is signed. -/
theorem readValue_raw {f : Field} {rc : ReadCursor} (h : rc.mode = .raw) :
    readValue f rc =
      (if f.signed then sext f.width (trunc f.width (rc.raw.getD rc.idx 0)) else (trunc f.width (rc.raw.getD rc.idx 0) : Int),
        { rc with idx := rc.idx + 1 }) := by
  unfold readValue
  split
  · rw [ReadCursor.readSigned_raw h]
  · rw [ReadCursor.read_raw h]

/-- A value in range, written and read back. -/
theorem value_trunc {f : Field} (h : 1 ≤ f.width) {x : Int} (hx : fieldInRange f x = true) :
    (if f.signed then sext f.width (trunc f.width x) else (trunc f.width x : Int)) = x := by
  unfold fieldInRange at hx
  cases hs : f.signed with
  | true =>
    simp only [hs, if_true, Bool.and_eq_true, decide_eq_true_eq] at hx ⊢
    exact sext_trunc h hx.1 hx.2
  | false =>
    simp only [hs, Bool.false_eq_true, if_false, Bool.and_eq_true, decide_eq_true_eq] at hx ⊢
    exact trunc_of_range hx.1 hx.2

/-! ## The field loop of `TD.DEC` -/

/-- What one round of the field loop does. -/
theorem decodeFields_cons (full : Bool) (f : Field) (fs : List Field) (prev : Snapshot) (rc : ReadCursor) :
    decodeFields full (f :: fs) prev rc =
      let present := if full then (1, rc) else rc.read 1
      let v := if present.1 = 1 then readValue f present.2 else (prev.headD 0, present.2)
      (v.1 :: (decodeFields full fs prev.tail v.2).1, (decodeFields full fs prev.tail v.2).2) := rfl

/-- Decoding a legal previous snapshot gives a legal one, whatever the bits. -/
theorem decodeFields_legal (full : Bool) (schema : List Field) : ∀ (prev : Snapshot) (rc : ReadCursor),
    schemaOk schema = true → snapshotLegal schema prev = true →
    snapshotLegal schema (decodeFields full schema prev rc).1 = true := by
  induction schema with
  | nil => intro prev rc _ _; rfl
  | cons f fs ih =>
    intro prev rc hs hp
    obtain ⟨h1, -, h3⟩ := schemaOk_cons hs
    cases prev with
    | nil => simp [snapshotLegal] at hp
    | cons p ps =>
      simp only [snapshotLegal, Bool.and_eq_true] at hp
      simp only [decodeFields_cons, snapshotLegal, Bool.and_eq_true, List.tail_cons]
      refine ⟨?_, ih ps _ h3 hp.2⟩
      generalize (if full then (1, rc) else rc.read 1) = present
      by_cases hv : present.1 = 1
      · rw [if_pos hv]; exact readValue_inRange h1 _
      · rw [if_neg hv]; exact hp.1

/-- Decoding fields moves the cursor and changes nothing else of it. -/
theorem decodeFields_frame (full : Bool) (schema : List Field) : ∀ (prev : Snapshot) (rc : ReadCursor),
    (decodeFields full schema prev rc).2.mode = rc.mode ∧ (decodeFields full schema prev rc).2.buf = rc.buf ∧
    (decodeFields full schema prev rc).2.raw = rc.raw ∧
    ∀ p, rc.wf p → (decodeFields full schema prev rc).2.wf p := by
  induction schema with
  | nil => intro prev rc; exact ⟨rfl, rfl, rfl, fun _ h => h⟩
  | cons f fs ih =>
    intro prev rc
    have hpres : ∀ present : Nat × ReadCursor, (present = (1, rc) ∨ present = rc.read 1) →
        present.2.mode = rc.mode ∧ present.2.buf = rc.buf ∧ present.2.raw = rc.raw ∧
          ∀ p, rc.wf p → present.2.wf p := by
      rintro present (rfl | rfl)
      · exact ⟨rfl, rfl, rfl, fun _ h => h⟩
      · obtain ⟨a, b, c⟩ := rc.read_frame 1
        exact ⟨a, b, c, fun p h => ReadCursor.read_wf h 1⟩
    obtain ⟨present, hpe⟩ : ∃ present, present = (if full then (1, rc) else rc.read 1) := ⟨_, rfl⟩
    obtain ⟨a, b, c, d⟩ := hpres present (by rw [hpe]; cases full <;> simp)
    simp only [decodeFields_cons, ← hpe]
    by_cases hv : present.1 = 1
    · rw [if_pos hv, readValue_snd]
      obtain ⟨a2, b2, c2⟩ := present.2.read_frame f.width
      obtain ⟨i1, i2, i3, i4⟩ := ih prev.tail (present.2.read f.width).2
      exact ⟨i1.trans (a2.trans a), i2.trans (b2.trans b), i3.trans (c2.trans c),
        fun p h => i4 p (ReadCursor.read_wf (d p h) _)⟩
    · rw [if_neg hv]
      obtain ⟨i1, i2, i3, i4⟩ := ih prev.tail present.2
      exact ⟨i1.trans a, i2.trans b, i3.trans c, fun p h => i4 p (d p h)⟩

/-! ## Decoding undoes encoding -/

/-- Bits of the fields of a full payload. -/
theorem bitsOf_fullFields (schema : List Field) (x : Snapshot) (h : snapshotLegal schema x = true) :
    bitsOf (fullFields schema x) = (schema.map fun f => f.width).sum := by
  induction schema generalizing x with
  | nil => rfl
  | cons f fs ih =>
    cases x with
    | nil => simp [snapshotLegal] at h
    | cons v x =>
      simp only [snapshotLegal, Bool.and_eq_true] at h
      have := ih x h.2
      simp only [bitsOf] at this
      simp [fullFields, bitsOf, this]

/-- A full payload's fields, found at the cursor, decode to the snapshot they were made from. -/
theorem decodeFields_full {words : List Word15} (schema : List Field) : ∀ (x prev : Snapshot) (rc : ReadCursor),
    schemaOk schema = true → snapshotLegal schema x = true → rc.mode = .packed →
    rc.buf = words.flatMap wordBytesOf → Holds words rc.bitPos (fullFields schema x) →
    decodeFields true schema prev rc = (x, rc.seek (rc.bitPos + bitsOf (fullFields schema x))) := by
  induction schema with
  | nil =>
    intro x prev rc _ hx _ _ _
    cases x with
    | nil => simp [decodeFields, fullFields, bitsOf, ReadCursor.seek_self]
    | cons v x => simp [snapshotLegal] at hx
  | cons f fs ih =>
    intro x prev rc hs hx hm hb hh
    obtain ⟨h1, -, h3⟩ := schemaOk_cons hs
    cases x with
    | nil => simp [snapshotLegal] at hx
    | cons v x =>
      simp only [snapshotLegal, Bool.and_eq_true] at hx
      obtain ⟨hv, hrest⟩ := hh
      have hval : fieldValue rc.buf rc.bitPos f.width = trunc f.width v := by
        rw [hb]; exact Eq.trans (bitSum_congr fun _ _ => streamBit_image _ _) hv
      have hread : readValue f rc = (v, rc.seek (rc.bitPos + f.width)) := by
        rw [readValue_packed hm, hval, value_trunc h1 hx.1]
      have hi := ih x prev.tail (rc.seek (rc.bitPos + f.width)) h3 hx.2 hm hb (by rw [ReadCursor.seek_bitPos]; exact hrest)
      simp only [decodeFields_cons, if_true, hread, hi]
      simp [fullFields, bitsOf, Nat.add_assoc]

/-- An incremental payload's fields, found at the cursor, decode to the snapshot they were made from, against the same
previous snapshot. -/
theorem decodeFields_delta {words : List Word15} (schema : List Field) : ∀ (x prev : Snapshot) (rc : ReadCursor),
    schemaOk schema = true → snapshotLegal schema x = true → rc.mode = .packed →
    rc.buf = words.flatMap wordBytesOf → Holds words rc.bitPos (deltaFields schema x prev) →
    decodeFields false schema prev rc = (x, rc.seek (rc.bitPos + bitsOf (deltaFields schema x prev))) := by
  induction schema with
  | nil =>
    intro x prev rc _ hx _ _ _
    cases x with
    | nil => simp [decodeFields, deltaFields, bitsOf, ReadCursor.seek_self]
    | cons v x => simp [snapshotLegal] at hx
  | cons f fs ih =>
    intro x prev rc hs hx hm hb hh
    obtain ⟨h1, -, h3⟩ := schemaOk_cons hs
    cases x with
    | nil => simp [snapshotLegal] at hx
    | cons v x =>
      simp only [snapshotLegal, Bool.and_eq_true] at hx
      have hfield : ∀ k n, fieldValue rc.buf k n = wordsField words k n := by
        intro k n; rw [hb]; exact bitSum_congr fun _ _ => streamBit_image _ _
      by_cases hv : v = prev.headD 0
      · have e : deltaFields (f :: fs) (v :: x) prev = (1, 0) :: deltaFields fs x prev.tail := by
          simp only [deltaFields, ne_eq, hv, not_true_eq_false, if_false, List.singleton_append]
        rw [e] at hh ⊢
        obtain ⟨hp, hrest⟩ := hh
        have hpres : rc.read 1 = (0, rc.seek (rc.bitPos + 1)) := by
          rw [ReadCursor.read_packed hm, hfield, hp]; rfl
        have hi := ih x prev.tail (rc.seek (rc.bitPos + 1)) h3 hx.2 hm hb (by rw [ReadCursor.seek_bitPos]; exact hrest)
        simp only [decodeFields_cons, Bool.false_eq_true, if_false, hpres, Nat.zero_ne_one, hi, ← hv]
        simp [bitsOf, Nat.add_assoc]
      · have e : deltaFields (f :: fs) (v :: x) prev = (1, 1) :: (f.width, v) :: deltaFields fs x prev.tail := by
          simp only [deltaFields, ne_eq, hv, not_false_eq_true, if_true, List.cons_append, List.nil_append]
        rw [e] at hh ⊢
        obtain ⟨hp, hvv, hrest⟩ := hh
        have hpres : rc.read 1 = (1, rc.seek (rc.bitPos + 1)) := by
          rw [ReadCursor.read_packed hm, hfield, hp]; rfl
        have hread : readValue f (rc.seek (rc.bitPos + 1)) = (v, rc.seek (rc.bitPos + 1 + f.width)) := by
          rw [readValue_packed (rc := rc.seek (rc.bitPos + 1)) hm, ReadCursor.seek_bitPos, ReadCursor.seek_buf, hfield, hvv,
            value_trunc h1 hx.1]
          rfl
        have hi := ih x prev.tail (rc.seek (rc.bitPos + 1 + f.width)) h3 hx.2 hm hb
          (by rw [ReadCursor.seek_bitPos]; exact hrest)
        simp only [decodeFields_cons, Bool.false_eq_true, if_false, hpres, if_true, hread, hi]
        simp [bitsOf, Nat.add_assoc]

end Sys2Proof.Machine
end

