-- ==== Sys2Proof/Tests/Slice0.lean ====
section
/-! SUPPORT. Tests: the well-formedness smoke, a word of every row, one-step checks with the numbers of
95_test_vectors.md, and a witness for every statement with hypotheses. -/

namespace Sys2Proof.Tests

open Sys2Proof Sys2Proof.Machine Sys2Proof.Claims

/-! ## Well-formedness refuses each ill-formed term -/

theorem test_wf_lit_refuses_stx : Instr.wellFormed (.lit 0x02#8) = false := by decide
theorem test_wf_lit_refuses_four : Instr.wellFormed (.lit 0x04#8) = false := by decide
theorem test_wf_lit_accepts_five : Instr.wellFormed (.lit 0x05#8) = true := by decide
theorem test_wf_epx_refuses_first_canonical : Instr.wellFormed (.epx 0x40#8) = false := by decide
theorem test_wf_epx_refuses_last_canonical : Instr.wellFormed (.epx 0x44#8) = false := by decide
theorem test_wf_epx_accepts_next : Instr.wellFormed (.epx 0x45#8) = true := by decide

/-! ## A word of every row, written out from 30_encoding.md R91, R95, R108 and 95_test_vectors.md section 7 -/

theorem test_decode_stx : decodeTableWord 8 0b00000010 = some .stx := by decide
theorem test_decode_etx : decodeTableWord 8 0b00000011 = some .etx := by decide
theorem test_decode_esc : decodeTableWord 8 0b00000100 = some .esc := by decide
theorem test_decode_ctl : decodeTableWord 8 0b00000001 = some (.ctl 1#1) := by decide
theorem test_decode_lit : decodeTableWord 8 0b01000001 = some (.lit 0x41#8) := by decide
theorem test_decode_ep0 : decodeTableWord 16 0b0000010001000000 = some .ep0 := by decide
theorem test_decode_ep1 : decodeTableWord 16 0b0000010001000001 = some .ep1 := by decide
theorem test_decode_ep2 : decodeTableWord 16 0b0000010001000010 = some .ep2 := by decide
theorem test_decode_ep3 : decodeTableWord 16 0b0000010001000011 = some .ep3 := by decide
theorem test_decode_ep4 : decodeTableWord 16 0b0000010001000100 = some .ep4 := by decide
theorem test_decode_epx : decodeTableWord 16 0b0000010011000000 = some (.epx 0xC0#8) := by decide
theorem test_decode_bcLoad : decodeTableWord 16 0b0001000000000000 = some .bcLoad := by decide
theorem test_decode_bcLoadraw : decodeTableWord 16 0b0001000100000000 = some .bcLoadraw := by decide
theorem test_decode_bcRd : decodeTableWord 16 0b0001001000011110 = some (.bcRd 30#6) := by decide
theorem test_decode_bcRds : decodeTableWord 16 0b0001001100010000 = some (.bcRds 16#6) := by decide
theorem test_decode_bcWinit : decodeTableWord 16 0b0001010000000000 = some .bcWinit := by decide
theorem test_decode_bcWr : decodeTableWord 16 0b0001010100000011 = some (.bcWr 3#6) := by decide
theorem test_decode_bcWtake : decodeTableWord 16 0b0001011000000000 = some .bcWtake := by decide
theorem test_decode_crcInit : decodeTableWord 16 0b0010000000000000 = some .crcInit := by decide
theorem test_decode_crcUpd : decodeTableWord 16 0b0010000100110001 = some (.crcUpd 0x31#8) := by decide
theorem test_decode_crcGet : decodeTableWord 16 0b0010001000000000 = some .crcGet := by decide
theorem test_decode_rxByte : decodeTableWord 16 0b0011000000000010 = some (.rxByte 0x02#8) := by decide
theorem test_decode_rxFeed : decodeTableWord 16 0b0011000100000000 = some .rxFeed := by decide
theorem test_decode_rxRst : decodeTableWord 16 0b0011001000000000 = some .rxRst := by decide
theorem test_decode_txFrame : decodeTableWord 16 0b0100000000000000 = some .txFrame := by decide
theorem test_decode_tdDec : decodeTableWord 16 0b0101000000000000 = some .tdDec := by decide
theorem test_decode_tdEnc_full : decodeTableWord 16 0b0101000100000001 = some (.tdEnc true) := by decide
theorem test_decode_tdEnc_incremental : decodeTableWord 16 0b0101000100000000 = some (.tdEnc false) := by decide
theorem test_decode_tdRst : decodeTableWord 16 0b0101001000000000 = some .tdRst := by decide
theorem test_decode_atBuild : decodeTableWord 16 0b0110000000000000 = some (.atBuild 0#8) := by decide
theorem test_decode_atVerify : decodeTableWord 16 0b0110000100000001 = some (.atVerify 1#8) := by decide
theorem test_decode_atRst : decodeTableWord 16 0b0110001000000001 = some (.atRst 1#8) := by decide
theorem test_decode_sysRst : decodeTableWord 16 0b1111111100000000 = some .sysRst := by decide

/-- The refused words of 95_test_vectors.md section 7 that the decoder itself refuses. -/
theorem test_decode_refuses : [0x0000, 0x1240, 0x1401, 0x5102].map (decodeTableWord 16) = [none, none, none, none] := by
  decide

/-- An escape pair is one item inside a frame, two outside; `ESC` at the end of the bytes stands alone (R94). -/
theorem test_pair_only_inside_a_frame :
    decodeWire true [0x04#8, 0x43#8] = some (.ep3, []) ∧
    decodeWire false [0x04#8, 0x43#8] = some (.esc, [0x43#8]) ∧
    decodeWire true [0x04#8] = some (.esc, []) := by decide

/-! ## One step each -/

/-- The result of an operation. -/
def resultOf : Answer → Option Result
  | .next t => some t.res
  | _ => none

/-- The state an operation leaves. -/
def leaves : Answer → State
  | .next t => t
  | _ => State.reset

/-- The reset state with given operands on the ports. -/
def withPorts (p : Ports) : State := { State.reset with ports := p }

/-- The reset state inside a frame with some content. -/
def inFrame (q : RxState) (content : List Byte) : State :=
  { State.reset with rx := { state := q, fbuf := content, ovf := false } }

/-- The reset state with a loaded buffer. -/
def loaded (bytes : List Byte) : State :=
  { State.reset with rc := { ReadCursor.reset with buf := bytes } }

/-- The reset state with raw elements loaded. -/
def rawLoaded (list : List Int) (idx : Nat) : State :=
  { State.reset with rc := { ReadCursor.reset with mode := .raw, raw := list, idx := idx } }

-- 95_test_vectors.md section 4.3
theorem test_stx_restarts_a_frame : (leaves (exec .stx (inFrame .frame [0x41#8]))).rx =
    { state := .frame, fbuf := [], ovf := false } := by decide
theorem test_etx_outside_passes : resultOf (exec .etx State.reset) = some (.rxByte (some 0x03#8) none) := by decide
theorem test_etx_good_frame :
    resultOf (exec .etx (inFrame .frame [0x41#8, 0x40#8, 0x36#8, 0x6B#8, 0x00#8, 0x00#8])) =
      some (.rxByte none (some (.frame [0x41#8, 0x40#8]))) := by decide
theorem test_etx_sixteenth_bit_masked :
    resultOf (exec .etx (inFrame .frame [0x41#8, 0x40#8, 0x36#8, 0xEB#8, 0x00#8, 0x80#8])) =
      some (.rxByte none (some (.frame [0x41#8, 0x40#8]))) := by decide
theorem test_esc_inside_waits : (leaves (exec .esc (inFrame .frame [0x41#8]))).rx =
    { state := .frameEsc, fbuf := [0x41#8], ovf := false } := by decide
theorem test_esc_after_esc_is_operand : (leaves (exec .esc (inFrame .frameEsc []))).rx.fbuf = [0xC4#8] := by decide
theorem test_ctl_is_literal_inside : (leaves (exec (.ctl 1#1) (inFrame .frame []))).rx.fbuf = [0x01#8] := by decide
theorem test_lit_passes_outside : resultOf (exec (.lit 0x7F#8) State.reset) =
    some (.rxByte (some 0x7F#8) none) := by decide
theorem test_ep0 : (leaves (exec .ep0 (inFrame .frame []))).rx.fbuf = [0x00#8] := by decide
theorem test_ep1 : (leaves (exec .ep1 (inFrame .frame []))).rx.fbuf = [0x01#8] := by decide
theorem test_ep2 : (leaves (exec .ep2 (inFrame .frame []))).rx.fbuf = [0x02#8] := by decide
theorem test_ep3 : (leaves (exec .ep3 (inFrame .frame []))).rx.fbuf = [0x03#8] := by decide
theorem test_ep4 : (leaves (exec .ep4 (inFrame .frame []))).rx.fbuf = [0x04#8] := by decide
theorem test_epx_etx_is_operand : (leaves (exec (.epx 0x03#8) (inFrame .frame []))).rx =
    { state := .frame, fbuf := [0xC3#8], ovf := false } := by decide
theorem test_ep3_outside_passes_both : resultOf (exec .ep3 State.reset) =
    some (.rxFeed .none 2 [0x04#8, 0x43#8] []) := by decide
theorem test_rxByte_in_frame : (leaves (exec (.rxByte 0x41#8) (inFrame .frame []))).rx.fbuf = [0x41#8] := by decide
theorem test_rxByte_overflow :
    (leaves (exec (.rxByte 0x41#8) { inFrame .frame [0x05#8, 0x05#8, 0x05#8, 0x05#8] with
      cfg := { Config.Params.default with frameMax := some 4 } })).rx =
      { state := .frame, fbuf := [0x05#8, 0x05#8, 0x05#8, 0x05#8], ovf := true } := by decide

-- section 4.3, last paragraph: "xy", a good frame, "z"
theorem test_rxFeed_stops_at_the_event :
    resultOf (exec .rxFeed (withPorts { Ports.empty with
      bytes := [0x78#8, 0x79#8, 0x02#8, 0x41#8, 0x40#8, 0x36#8, 0x6B#8, 0x04#8, 0x40#8, 0x04#8, 0x40#8, 0x03#8,
        0x7A#8] })) = some (.rxFeed .frame 12 [0x78#8, 0x79#8] [0x41#8, 0x40#8]) := by decide
-- section 1.1, the first bulk call
theorem test_rxFeed_source_vector :
    resultOf (exec .rxFeed (withPorts { Ports.empty with
      bytes := [0x31#8, 0x32#8, 0x33#8, 0x02#8, 0x02#8, 0x02#8, 0x41#8, 0x40#8, 0x42#8, 0x42#8, 0x43#8, 0x43#8,
        0x03#8, 0x03#8] })) =
      some (.rxFeed .ckErr 13 [0x31#8, 0x32#8, 0x33#8] [0x41#8, 0x40#8, 0x42#8, 0x42#8, 0x43#8, 0x43#8]) := by decide
theorem test_rxRst : (leaves (exec .rxRst (inFrame .frameEsc [0x41#8]))).rx = RxUnit.reset := by decide

-- section 3, reads
theorem test_bcLoad_raw_list_stays : (leaves (exec .bcLoad { rawLoaded [1, 0] 1 with
    ports := { Ports.empty with bytes := [0xFF#8, 0xFF#8] } })).rc =
    { mode := .packed, buf := [0xFF#8, 0xFF#8], w := 0, o := 0, raw := [1, 0], idx := 1 } := by decide
theorem test_bcLoadraw : (leaves (exec .bcLoadraw (withPorts { Ports.empty with list := [1, 0, -300, 4] }))).rc =
    { ReadCursor.reset with mode := .raw, raw := [1, 0, -300, 4] } := by decide
theorem test_bcRd_across_words :
    (leaves (exec (.bcRd 32#6) (loaded [0x34#8, 0x12#8, 0x78#8, 0x56#8, 0x01#8, 0x00#8]))).res =
      .unsigned 0x6B3C1234 := by decide
theorem test_bcRd_cursor : ((leaves (exec (.bcRd 32#6) (loaded []))).rc.w, (leaves (exec (.bcRd 32#6) (loaded []))).rc.o) =
    (2, (2 : Fin 15)) := by decide
theorem test_bcRds_negative : resultOf (exec (.bcRds 16#6) (loaded [0xD4#8, 0x7E#8, 0x01#8, 0x00#8])) =
    some (.signed (-300)) := by decide
theorem test_bcRds_raw : resultOf (exec (.bcRds 16#6) (rawLoaded [1, 0, -300, 4] 2)) = some (.signed (-300)) := by decide

-- section 3, writes
theorem test_bcWinit : (leaves (exec .bcWinit { State.reset with wc := { words := [5#15], w := 0, o := 3 } })).wc =
    WriteCursor.reset := by decide
theorem test_bcWr_three_words : (leaves (exec (.bcWr 32#6) (withPorts { Ports.empty with value := 0xDEADBEEF }))).wc =
    { words := [0x3EEF#15, 0x3D5B#15, 0x0003#15], w := 2, o := 2 } := by decide
theorem test_bcWr_truncates : (leaves (exec (.bcWr 4#6) (withPorts { Ports.empty with value := 0x1F }))).wc =
    { words := [0x000F#15], w := 0, o := 4 } := by decide
theorem test_bcWtake : resultOf (exec .bcWtake { State.reset with wc := { words := [0x7ED4#15, 0x0001#15], w := 1, o := 1 } }) =
    some (.bytes [0xD4#8, 0x7E#8, 0x01#8, 0x00#8]) := by decide

-- section 2.2
theorem test_crcInit : (leaves (exec .crcInit { State.reset with crcAcc := 0x1234#16 })).crcAcc = 0xFFFF#16 := by decide
theorem test_crcUpd_first : (leaves (exec (.crcUpd 0x31#8) State.reset)).crcAcc = 0xC782#16 := by decide
theorem test_crcUpd_third : (leaves (exec (.crcUpd 0x33#8) { State.reset with crcAcc := 0x3DBA#16 })).crcAcc =
    0x5BCE#16 := by decide
theorem test_crcGet : resultOf (exec .crcGet { State.reset with crcAcc := 0x5BCE#16 }) = some (.crc 0x5BCE#16) := by decide

-- section 4.2
theorem test_txFrame_escapes :
    resultOf (exec .txFrame (withPorts { Ports.empty with payload := [0x02#8, 0x03#8, 0x04#8, 0x00#8] })) =
      some (.bytes [0x02#8, 0x04#8, 0x42#8, 0x04#8, 0x43#8, 0x04#8, 0x44#8, 0x04#8, 0x40#8, 0x3C#8, 0x7C#8, 0x04#8,
        0x41#8, 0x04#8, 0x40#8, 0x03#8]) := by decide
theorem test_txFrame_refuses_odd :
    resultOf (exec .txFrame (withPorts { Ports.empty with payload := [0x41#8, 0x40#8, 0x41#8] })) =
      some (.error .illegalOperand) := by decide

-- section 5, lines 4 and 6, and the truncated payload
theorem test_tdDec_incremental :
    resultOf (exec .tdDec { loaded [0x24#8, 0x1E#8, 0x00#8, 0x00#8] with
      td := { TdUnit.reset Config.exampleSchema with rxPrev := [-300, 5], rxSeq := 2#4 } }) =
      some (.snapshot [120, 5] false) := by decide
theorem test_tdDec_desync :
    resultOf (exec .tdDec { loaded [0xA8#8, 0x1E#8, 0x80#8, 0x00#8] with
      td := { TdUnit.reset Config.exampleSchema with rxPrev := [120, 5], rxSeq := 3#4 } }) =
      some (.error (.telemetryDesync 3#4 4#4)) := by decide
theorem test_tdEnc_full :
    (leaves (exec (.tdEnc true) (withPorts { Ports.empty with snapshot := [-300, 4] }))).wc.image =
      [0xA9#8, 0x7D#8, 0x13#8, 0x00#8] := by decide
theorem test_tdEnc_incremental :
    (leaves (exec (.tdEnc false) { withPorts { Ports.empty with snapshot := [-300, 5] } with
      td := { TdUnit.reset Config.exampleSchema with txPrev := [-300, 4], txSeq := 1#4 } })).wc.image =
      [0xC2#8, 0x02#8] := by decide
theorem test_tdRst : (leaves (exec .tdRst { State.reset with
    td := { rxPrev := [7, 1], rxSeq := 5#4, txPrev := [8, 2], txSeq := 6#4 } })).td =
    { rxPrev := [0, 0], rxSeq := 0#4, txPrev := [0, 0], txSeq := 0#4 } := by decide

-- section 6.2; the digest is symbolic, so only what comes before it or goes without it is computed
theorem test_atBuild_refuses_a_missing_instance :
    resultOf (exec (.atBuild 2#8) State.reset) = some (.error .illegalOperand) := by decide
theorem test_atVerify_probe_is_too_short :
    resultOf (exec (.atVerify 0#8) (withPorts { Ports.empty with packet := List.replicate 18 0x74#8 })) =
      some (.error .tooShort) := by decide
theorem test_atRst_clears_one_window :
    (leaves (exec (.atRst 0#8) { State.reset with win := [[5#64], [7#64]] })).win = [[], [7#64]] := by decide
theorem test_pruning : insertSorted 1500#64 (pruneBelow (2000 - 1000) [500#64, 900#64, 1200#64]) =
    [1200#64, 1500#64] := by decide
theorem test_be64 : be64 1700000000000 = [0x00#8, 0x00#8, 0x01#8, 0x8B#8, 0xCF#8, 0xE5#8, 0x68#8, 0x00#8] := by decide

theorem test_sysRst : (leaves (exec .sysRst { inFrame .frame [0x41#8] with crcAcc := 0x1234#16, win := [[5#64], []] })) =
    State.reset := by decide

/-- A step takes one command, then nothing waits. -/
theorem test_step_runs_the_word : (leaves (step { State.reset with inputs := [.cmd 0x2131#16 Ports.empty] })).crcAcc =
    0xC782#16 ∧ (leaves (step { State.reset with inputs := [.cmd 0x2131#16 Ports.empty] })).inputs = [] := by decide

/-- A placed word is the next step's instruction. -/
theorem test_placed_pair : (leaves (step (State.reset.withFetchWord 16 0x0443))).rx.fbuf = [0x03#8] := by decide

/-! ## Witnesses: states and operands that meet the hypotheses of each statement -/

/-- The reset state under other parameters. -/
def under (p : Config.Params) : State := State.resetWith p

/-- Parameters with every capacity finite and at its least legal value. -/
def tight : Config.Params :=
  { Config.Params.default with frameMax := some 4, wbufMax := some 2, rwCap := some 1, pktMax := some 40, nAuth := 1 }

/-- Parameters with the other choice wherever there is one. -/
def other : Config.Params :=
  { Config.Params.default with
    hasTd := false, hasRawMode := false, escOverrides := [(0x80#8, 0x00#8)], stxInFrame := .literal,
    etxInIdle := .drop }

theorem witness_EncodedInstructionDecodesToItself :
    [Instr.lit 0x05#8, .lit 0xFF#8, .epx 0x3F#8, .epx 0x45#8, .ctl 0#1, .bcRd 0#6, .bcRd 63#6].map Instr.wellFormed =
      List.replicate 7 true := by decide

theorem witness_DecodedBitsAreTheEncoding :
    decode true (.cmd 0x1220#16) = .ok (.bcRd 32#6, []) ∧
    decode true (.wire [0x04#8, 0x45#8, 0x02#8]) = .ok (.epx 0x45#8, [0x02#8]) ∧
    decode false (.wire [0x04#8, 0x45#8]) = .ok (.esc, [0x45#8]) := ⟨rfl, rfl, rfl⟩

theorem witness_StepRunsTheDecodedInstruction :
    decodeCmd 0x2131#16 = .ok (.crcUpd 0x31#8) ∧
    (inFrame .frame []).rx.state = .frame ∧ decodeWire true [0x04#8, 0x40#8] = some (.ep0, []) ∧
    State.reset.rx.state ≠ .frame ∧ decodeWire false [0x04#8, 0x40#8] = some (.esc, [0x40#8]) ∧
    ({ State.reset with inputs := [.wire []] } : State).inputs = .wire [] :: [] ∧ State.reset.inputs = [] :=
  ⟨rfl, rfl, rfl, by decide, rfl, rfl, rfl⟩

theorem witness_PlacedWordIsWhatTheNextStepRuns :
    (decodeTableWord 16 0xFF00 = some .sysRst ∧ ¬ IsPair .sysRst) ∧
    (decodeTableWord 16 0x0444 = some .ep4 ∧ IsPair .ep4) ∧
    (decodeTableWord 16 0x0445 = some (.epx 0x45#8) ∧ IsPair (.epx 0x45#8)) :=
  ⟨⟨by decide, by simp [IsPair]⟩, ⟨by decide, by simp [IsPair]⟩, ⟨by decide, by simp [IsPair]⟩⟩

/-- One word for each clause: an unlisted `opc`, a set must-be-zero bit, widths 0 and 33, two flag bits, an instance
that does not exist, TD and raw mode absent. -/
theorem witness_ReservedWordsAreRefused :
    (0x0000#16).toNat / 256 = 0x00 ∧ (0x1401#16).toNat % 256 ≠ 0 ∧ (0x1200#16).toNat % 256 = 0 ∧
    32 < (0x1221#16).toNat % 256 ∧ 1 < (0x5102#16).toNat % 256 ∧ State.reset.cfg.nAuth ≤ (0x6102#16).toNat % 256 ∧
    (under other).cfg.hasTd = false ∧ (under other).cfg.hasRawMode = false := by decide

theorem witness_StepKeepsLegalState :
    State.reset.wf ∧ (∃ t, step State.reset = .next t) ∧ (under tight).wf ∧ (under other).wf ∧
    ({ inFrame .frame [0x41#8] with inputs := [.wire [0x03#8]] } : State).wf :=
  ⟨by decide, ⟨_, rfl⟩, by decide, by decide, by decide⟩

theorem witness_ConfiguredBlockStartsLegal :
    paramsOk tight = true ∧ paramsOk other = true ∧ schemaOk [{ name := "a", width := 0, signed := false }] = false ∧
    schemaOk [{ name := "a", width := 33, signed := false }] = false ∧
    schemaOk [{ name := "a", width := 1, signed := false }, { name := "a", width := 32, signed := true }] = false := by
  decide

theorem witness_StepKeepsTheParameters : ∃ t, step { State.reset with inputs := [.cmd 0xFF00#16 Ports.empty] } = .next t :=
  ⟨_, rfl⟩

/-- For each element, an operation that does change it. -/
theorem witness_OnlyItsWritersChangeAnElement :
    (leaves (exec .stx State.reset)).rx ≠ State.reset.rx ∧
    (leaves (exec (.crcUpd 0#8) State.reset)).crcAcc ≠ State.reset.crcAcc ∧
    (leaves (exec .bcLoadraw State.reset)).rc.mode ≠ State.reset.rc.mode ∧
    (leaves (exec .bcLoad (withPorts { Ports.empty with bytes := [1#8] }))).rc.buf ≠ [] ∧
    (leaves (exec (.bcRd 1#6) State.reset)).rc.o ≠ State.reset.rc.o ∧
    (leaves (exec .bcLoadraw (withPorts { Ports.empty with list := [1] }))).rc.raw ≠ [] ∧
    (leaves (exec (.bcRds 1#6) (rawLoaded [] 0))).rc.idx ≠ 0 ∧
    (leaves (exec (.bcWr 1#6) State.reset)).wc ≠ State.reset.wc ∧
    (leaves (exec (.atRst 1#8) { State.reset with win := [[], [5#64]] })).winOf 1 ≠
      ({ State.reset with win := [[], [5#64]] } : State).winOf 1 ∧
    (leaves (exec .tdDec State.reset)).td.rxSeq ≠ State.reset.td.rxSeq ∧
    (leaves (exec (.tdEnc false) (withPorts { Ports.empty with snapshot := [1, 1] }))).td.txSeq ≠ 0#4 := by decide

/-- The refusals at their boundaries, and one operation for each error. -/
theorem witness_ErrorsAndRefusalsByOperation :
    (State.reset.wf ∧ (under tight).wf ∧ (under other).wf) ∧
    Refused (.bcRd 0#6) State.reset ∧ Refused (.bcRds 33#6) State.reset ∧ Refused .bcLoadraw (under other) ∧
    Refused .tdDec (under other) ∧ Refused (.tdEnc true) State.reset ∧ Refused .tdRst (under other) ∧
    Refused (.atBuild 2#8) State.reset ∧ Refused (.atVerify 1#8) (under tight) ∧ Refused (.atRst 1#8) (under tight) ∧
    Refused .txFrame (withPorts { Ports.empty with payload := [1#8] }) ∧
    Refused (.bcWr 31#6) (under tight) ∧
    (leaves (exec .etx (inFrame .frame []))).res.code = 1 ∧
    (leaves (exec .tdDec (loaded [0x02#8, 0x00#8]))).res.code = 2 ∧
    (leaves (exec (.atVerify 0#8) State.reset)).res.code = 3 := by
  refine ⟨⟨by decide, by decide, by decide⟩, .inl rfl, .inr (by decide), rfl, rfl, .inr (.inl ?_), rfl, .inl (by decide),
    .inl (by decide), (show 1 ≤ 1 by decide), rfl, .inr (.inr ⟨2, rfl, by decide⟩), by decide, by decide, by decide⟩
  intro h
  exact absurd h.1 (by decide)

theorem witness_LoadStartsAFreshRead :
    (withPorts { Ports.empty with bytes := [0x41#8, 0x40#8, 0x42#8, 0x42#8, 0x43#8, 0x43#8] }).ports.bytes =
      [0x41#8, 0x40#8, 0x42#8, 0x42#8, 0x43#8, 0x43#8] := rfl

theorem witness_RawReadsTakeListElements :
    State.reset.cfg.hasRawMode = true ∧ (rawLoaded [-300] 0).rc.mode = .raw ∧ 1 ≤ (1#6).toNat ∧ (32#6).toNat ≤ 32 := by
  decide

/-- For both reads, at both ends of the width's range. -/
theorem witness_ReadReturnsTheFieldAtTheCursor :
    (loaded [0xD4#8, 0x7E#8]).rc.mode = .packed ∧ 1 ≤ (1#6).toNat ∧ (1#6).toNat ≤ 32 ∧ 1 ≤ (32#6).toNat ∧
    (32#6).toNat ≤ 32 := by decide

theorem witness_SignedReadExtendsTheTopBit :
    (loaded [0x01#8, 0x00#8]).rc.mode = .packed ∧ streamBit (loaded [0x01#8, 0x00#8]).rc.buf 0 = true ∧
    1 ≤ (1#6).toNat ∧ (32#6).toNat ≤ 32 := by decide

/-- One byte makes one word: from bit 15 on there is nothing. -/
theorem witness_ReadPastTheEndIsZero :
    let s := { loaded [0xFF#8] with rc := { ReadCursor.reset with buf := [0xFF#8], w := 1 } }
    s.rc.mode = .packed ∧ 15 * ((s.rc.buf.length + 1) / 2) = s.rc.bitPos := by decide

/-- With `WBUF_MAX` 2, thirty bits just fit. -/
theorem witness_WriteAppendsTheField :
    (under tight).wc.wf (under tight).cfg ∧ 1 ≤ (30#6).toNat ∧ (30#6).toNat ≤ 32 ∧
    ¬ ExceedsWbuf (under tight) (30#6).toNat ∧
    (0 < ({ words := [1#15], w := 0, o := 1 } : WriteCursor).bitPos) := by
  refine ⟨by decide, by decide, by decide, ?_, by decide⟩
  rintro ⟨m, h, hlt⟩
  injection h with h
  subst h
  revert hlt
  decide

theorem witness_TakeGivesTheByteImage : 0 < ({ State.reset with wc := { words := [1#15], w := 0, o := 1 } } : State).wc.words.length := by
  decide

/-- Both signednesses at the ends of their ranges, filling two words exactly. -/
theorem witness_FieldsWrittenAreReadBack :
    let fields : List BitField := [⟨1#6, true, -1⟩, ⟨13#6, false, 8191⟩, ⟨16#6, true, -32768⟩]
    (∀ f ∈ fields, f.Ok) ∧ (∀ n ∈ [1#6, 32#6], 1 ≤ n.toNat ∧ n.toNat ≤ 32) ∧
    (∀ m, (under tight).cfg.wbufMax = some m → (fields.map fun f => f.n.toNat).sum ≤ 15 * m) := by
  refine ⟨?_, by decide, ?_⟩
  · simp [BitField.Ok, InRange]
  · intro m h
    injection h with h
    subst h
    decide

theorem witness_CrcUpdIsTheRecurrence : State.reset.crcAcc = 0xFFFF#16 := rfl

theorem witness_OneChangedByteChangesTheChecksum : (0x41#8) ≠ 0x40#8 := by decide

theorem witness_BytesOutsideAFrame :
    State.reset.rx.state = .idle ∧ State.reset.cfg.etxInIdle = .passthrough ∧ (under other).rx.state = .idle ∧
    (under other).cfg.etxInIdle = .drop ∧ 5 ≤ (0x05#8).toNat ∧ 0x04#8 ≠ 0x02#8 ∧ 0x04#8 ≠ 0x03#8 := by decide

/-- With `FRAME_MAX` 4: room at three bytes, none at four. -/
theorem witness_BytesInsideAFrame :
    (inFrame .frame []).rx.state = .frame ∧ (inFrame .frame []).cfg.stxInFrame = .restart ∧
    ({ under other with rx := ⟨.frame, [], false⟩ } : State).cfg.stxInFrame = .literal ∧
    (∀ m, ({ under tight with rx := ⟨.frame, [1#8, 1#8, 1#8], false⟩ } : State).cfg.frameMax = some m → 3 < m) ∧
    (under tight).cfg.frameMax = some 4 ∧ 5 ≤ (0x05#8).toNat := by
  refine ⟨rfl, rfl, rfl, ?_, rfl, by decide⟩
  intro m h
  injection h with h
  subst h
  decide

/-- With room under the default `ESC_DECODE` and under another one, and full at `FRAME_MAX` 4. -/
theorem witness_EscapeOperandIsNeverAMarker :
    (inFrame .frameEsc []).rx.state = .frameEsc ∧ escDecodeOk (inFrame .frameEsc []).cfg = true ∧
    (inFrame .frameEsc []).cfg.escOverrides = [] ∧ escDecodeOk other = true ∧ other.escOverrides ≠ [] ∧
    (0x44#8).toNat = 4 + 64 ∧ (inFrame .frameEsc []).cfg.frameMax = none ∧
    (under tight).cfg.frameMax = some 4 ∧
    4 ≤ ({ under tight with rx := ⟨.frameEsc, [1#8, 1#8, 1#8, 1#8], false⟩ } : State).rx.fbuf.length := by decide

theorem witness_ClosingEtxValidatesTheFrame :
    (inFrame .frame [1#8, 1#8, 1#8]).rx.fbuf.length < 4 ∧
    ((0xFF + 256 * 0x7F) % 32768 + 32768 * ((0x01 + 256 * 0x00) % 32768) = (crc16 []).toNat) ∧
    ((0xFE + 256 * 0x7F) % 32768 + 32768 * ((0x01 + 256 * 0x00) % 32768) ≠ (crc16 []).toNat) ∧
    (inFrame .frame [0xFF#8, 0x7F#8, 0x01#8, 0x00#8]).rx.fbuf = [] ++ [0xFF#8, 0x7F#8, 0x01#8, 0x00#8] := by decide

/-- The frame of 95_test_vectors.md section 4.2 with content 41 40, and the same with its first byte changed. -/
theorem witness_OneChangedContentByteIsRejected :
    let s := inFrame .frame [0x41#8, 0x40#8, 0x36#8, 0x6B#8, 0x00#8, 0x00#8]
    s.rx.fbuf = [] ++ 0x41#8 :: [0x40#8] ++ [0x36#8, 0x6B#8, 0x00#8, 0x00#8] ∧ (0x41#8 ≠ 0x40#8) ∧
    (∃ t, exec .etx s = .next t) ∧
    (leaves (exec .etx s)).res = .rxByte none (some (.frame ([] ++ 0x41#8 :: [0x40#8]))) :=
  ⟨rfl, by decide, ⟨_, rfl⟩, by decide⟩

/-- With room, and full at `FRAME_MAX` 4. -/
theorem witness_PairsStandForTheirLiteralByte :
    (inFrame .frame []).rx.state = .frame ∧ escDecodeOk (inFrame .frame []).cfg = true ∧
    (inFrame .frame []).cfg.frameMax = none ∧ (inFrame .frame []).cfg.escOverrides = [] ∧
    (under tight).cfg.frameMax = some 4 ∧
    4 ≤ ({ under tight with rx := ⟨.frame, [1#8, 1#8, 1#8, 1#8], false⟩ } : State).rx.fbuf.length ∧
    IsPair .ep4 ∧ IsPair (.epx 0x03#8) :=
  ⟨by decide, by decide, by decide, by decide, by decide, by decide, .inl (by decide), .inr ⟨_, rfl⟩⟩

/-- Feeds with and without an event. -/
theorem witness_FeedIsByteByByte :
    resultOf (exec .rxFeed (withPorts { Ports.empty with bytes := [0x41#8] })) = some (.rxFeed .none 1 [0x41#8] []) ∧
    resultOf (exec .rxFeed (withPorts { Ports.empty with bytes := [0x02#8, 0x03#8, 0x41#8] })) =
      some (.rxFeed .ckErr 2 [] []) := by decide

theorem witness_PassthroughGuarantees : (under other).cfg.etxInIdle = .drop := rfl

theorem witness_OtherUnitsDoNotDisturbReception :
    ∀ o ∈ [Op.plain (.crcUpd 1#8), Op.plain .bcWinit, frameOp [0x41#8, 0x40#8], Op.plain .tdDec, Op.plain (.atRst 0#8)],
      ¬ Receives o.1 ∧ o.1 ∉ [Instr.rxRst, .sysRst] := by
  simp [Op.plain, frameOp, Receives]

theorem witness_FrameHasTheWireShape :
    (withPorts { Ports.empty with payload := [0x04#8, 0x05#8] }).ports.payload.length % 2 = 0 ∧
    escDecodeOk (withPorts { Ports.empty with payload := [0x04#8, 0x05#8] }).cfg = true := by decide

theorem witness_UnescapeUndoesEscape : escDecodeOk other = true ∧ escDecodeOk Config.Params.default = true := by decide

theorem witness_ChecksumBytesAreASixteenBitField :
    (∀ m, (under tight).cfg.wbufMax = some m → 2 ≤ m) ∧ ([] : List Byte).length % 2 = 0 := by
  refine ⟨?_, rfl⟩
  intro m h
  injection h with h
  subst h
  decide

/-- The empty payload with `FRAME_MAX` 4, its least value, fed in two chunks. -/
theorem witness_FramedPayloadIsReceived :
    let wire := [0x02#8, 0xFF#8, 0x7F#8, 0x04#8, 0x41#8, 0x04#8, 0x40#8, 0x03#8]
    (under tight).wf ∧ (under tight).rx.state = .idle ∧
    (∀ m, (under tight).cfg.frameMax = some m → ([] : List Byte).length + 4 ≤ m) ∧
    (observe [frameOp []] (under tight)).1 = [.bytes wire] ∧ [wire.take 4, wire.drop 4].flatten = wire := by
  refine ⟨by decide, rfl, ?_, by decide, by decide⟩
  intro m h
  injection h with h
  subst h
  decide

-- 95_test_vectors.md section 5, lines 1, 4 and 6

theorem witness_FullPayloadIsDecoded :
    let s := loaded [0xA9#8, 0x7D#8, 0x13#8, 0x00#8]
    let r := rawLoaded [1, -300, 4] 0
    s.cfg.hasTd = true ∧ schemaOk s.cfg.schema = true ∧ s.rc.mode = .packed ∧ streamBit s.rc.buf s.rc.bitPos = true ∧
    r.rc.mode = .raw ∧ rawAt r.rc.raw 1 false r.rc.idx = 1 := by
  decide

/-- From the bit stream, and from a list whose number is the expected one only modulo 16. -/
theorem witness_IncrementalPayloadIsDecoded :
    let s := { loaded [0x24#8, 0x1E#8, 0x00#8, 0x00#8] with
      td := { TdUnit.reset Config.exampleSchema with rxPrev := [-300, 5], rxSeq := 2#4 } }
    let r := { rawLoaded [2, 18, 1, 120, 0] 0 with td := s.td }
    s.cfg.hasTd = true ∧ schemaOk s.cfg.schema = true ∧ s.rc.mode = .packed ∧
    streamBit s.rc.buf s.rc.bitPos = false ∧ fieldValue s.rc.buf (s.rc.bitPos + 1) 4 = s.td.rxSeq.toNat ∧
    r.rc.mode = .raw ∧ rawAt r.rc.raw 1 false r.rc.idx = 0 ∧
    rawAt r.rc.raw 4 false (r.rc.idx + 1) = r.td.rxSeq.toNat := by decide

theorem witness_DesyncLeavesTheDecoderUnchanged :
    let s := { loaded [0xA8#8, 0x1E#8, 0x80#8, 0x00#8] with
      td := { TdUnit.reset Config.exampleSchema with rxPrev := [120, 5], rxSeq := 3#4 } }
    let r := { rawLoaded [0, 4] 0 with td := s.td }
    s.cfg.hasTd = true ∧ s.rc.mode = .packed ∧ streamBit s.rc.buf s.rc.bitPos = false ∧
    fieldValue s.rc.buf (s.rc.bitPos + 1) 4 ≠ s.td.rxSeq.toNat ∧
    r.rc.mode = .raw ∧ rawAt r.rc.raw 1 false r.rc.idx = 0 ∧
    rawAt r.rc.raw 4 false (r.rc.idx + 1) ≠ r.td.rxSeq.toNat := by decide

/-- The same full and incremental payloads from a list: 95_test_vectors.md section 5, lines 1 and 4, in mode `RAW`. -/
theorem test_tdDec_raw :
    resultOf (exec .tdDec (rawLoaded [1, -300, 4] 0)) = some (.snapshot [-300, 4] true) ∧
    resultOf (exec .tdDec { rawLoaded [0, 2, 1, 120, 0] 0 with
      td := { TdUnit.reset Config.exampleSchema with rxPrev := [-300, 5], rxSeq := 2#4 } }) =
      some (.snapshot [120, 5] false) := by decide

/-- The values at the ends of the example schema's ranges are a snapshot. -/
theorem isSnapshot_example : IsSnapshot Config.exampleSchema [-32768, 7] := by
  refine ⟨rfl, ?_⟩
  simp [Config.exampleSchema, InRange]

theorem not_exceedsWbuf {s : State} (h : s.cfg.wbufMax = none) (n : Nat) : ¬ ExceedsWbuf s n := by
  rintro ⟨m, hm, -⟩
  rw [h] at hm
  cases hm

theorem not_exceedsPkt {s : State} (h : s.cfg.pktMax = none) (n : Nat) : ¬ ExceedsPkt s n := by
  rintro ⟨m, hm, -⟩
  rw [h] at hm
  cases hm

theorem witness_EncodeWritesThePayload :
    let s := withPorts { Ports.empty with snapshot := [-32768, 7] }
    s.wf ∧ ¬ Refused (.tdEnc true) s ∧ ¬ Refused (.tdEnc false) s := by
  refine ⟨by decide, ?_, ?_⟩ <;>
  · rintro (h | h | h)
    · exact absurd h (by decide)
    · exact h isSnapshot_example
    · exact not_exceedsWbuf rfl _ h

/-- With `WBUF_MAX` 2 a payload may have 30 bits; the example schema's have at most 26. -/
def linked : State := under { Config.Params.default with wbufMax := some 2 }

theorem witness_ResentSnapshotChangesNoField :
    linked.wf ∧ linked.cfg.hasTd = true ∧ IsSnapshot linked.cfg.schema [-32768, 7] ∧
    AllFit linked linked.td.txPrev [(true, [-32768, 7]), (false, [-32768, 7])] := by
  refine ⟨by decide, rfl, isSnapshot_example, ?_, ?_, trivial⟩ <;>
  · intro m h
    injection h with h
    subst h
    decide

theorem witness_LosslessLinkStaysInLockStep :
    linked.wf ∧ linked.cfg.hasTd = true ∧ IsSnapshot linked.cfg.schema [-32768, 7] ∧
    (∀ y ∈ [(false, [-32768, 7]), (true, [-32768, 7])], IsSnapshot linked.cfg.schema y.2) ∧
    AllFit linked linked.td.txPrev [(true, [-32768, 7]), (false, [-32768, 7]), (true, [-32768, 7])] := by
  refine ⟨by decide, rfl, isSnapshot_example, ?_, ?_, ?_, ?_, trivial⟩
  · intro y hy
    rcases List.mem_cons.1 hy with rfl | hy
    · exact isSnapshot_example
    · rw [List.mem_singleton.1 hy]; exact isSnapshot_example
  all_goals
    intro m h
    injection h with h
    subst h
    decide

/-- Resending one snapshot fits however often it is resent. -/
theorem allFit_resent (n : Nat) : AllFit linked [-32768, 7] (List.replicate n (false, [-32768, 7])) := by
  induction n with
  | zero => trivial
  | succ n ih =>
    refine ⟨?_, ih⟩
    intro m h
    injection h with h
    subst h
    decide

/-- No loss at all, and 1, 15 and 16 lost payloads. -/
theorem witness_GapIsSeenUnlessAMultipleOfSixteen :
    linked.wf ∧ LockStep linked ∧
    (∀ n, (∀ y ∈ List.replicate n ([-32768, 7] : Snapshot), IsSnapshot linked.cfg.schema y) ∧
      AllFit linked linked.td.txPrev
        ((List.replicate n ([-32768, 7] : Snapshot) ++ [[-32768, 7]]).map fun y => (false, y))) ∧
    [0, 1, 15, 16].map (fun n => decide ((List.replicate n ([-32768, 7] : Snapshot)).length % 16 ≠ 0)) =
      [false, true, true, false] := by
  refine ⟨by decide, ⟨rfl, rfl⟩, fun n => ⟨fun y hy => by rw [List.eq_of_mem_replicate hy]; exact isSnapshot_example, ?_⟩,
    by decide⟩
  rw [← List.replicate_succ', List.map_replicate]
  refine ⟨?_, allFit_resent n⟩
  intro m h
  injection h with h
  subst h
  decide

theorem witness_BigEndianRoundTrip : 2 ^ 64 - 1 < 2 ^ 64 ∧ (be64 0).length = 8 := by decide

/-! ### AT: a packet built by the model itself, since the digest is symbolic -/

/-- The reset state about to verify at time `now` with window `w`, instance 0 holding `win`, a packet made with an empty
key and payload at time `ts`. -/
def verifying (ts now w : Nat) (win : List Stamp) : State :=
  { State.reset with
    ports := { Ports.empty with packet := packetOf [] [] ts, nowMs := now, windowMs := w }
    win := [win, []] }

theorem verifying_facts {ts : Nat} (h : ts < 2 ^ 64) (now w : Nat) (win : List Stamp) :
    ¬ Refused (.atVerify 0#8) (verifying ts now w win) ∧ 40 ≤ (verifying ts now w win).ports.packet.length ∧
    SignedBy (verifying ts now w win).ports.key (verifying ts now w win).ports.packet ∧
    stampNat (verifying ts now w win).ports.packet = ts := by
  refine ⟨?_, ?_, ?_, ?_⟩
  · rintro (h | h)
    · exact absurd h (show ¬ 2 ≤ 0 by decide)
    · exact not_exceedsPkt rfl _ h
  · show 40 ≤ (packetOf [] [] ts).length
    rw [packetOf_length]; omega
  · exact (signatureOk_iff _ _).1 (signatureOk_packetOf [] [] ts)
  · show fromBe64 (((packetOf [] [] ts).drop 32).take 8) = ts
    rw [packetOf_drop, List.take_left' (be64_length ts), fromBe64_be64 h]

theorem witness_BuildMakesASignedPacket :
    ¬ Refused (.atBuild 1#8) (withPorts { Ports.empty with nowMs := 2 ^ 64 - 1 }) := by
  rintro (h | h | h)
  · exact absurd h (by decide)
  · exact absurd h (by decide)
  · exact not_exceedsPkt rfl _ h

/-- Both inclusive ends of the window (R246), with an older entry to prune. -/
theorem witness_FreshSignedPacketIsAccepted :
    (verifying 1000 2000 1000 [500#64]).wf ∧ ¬ Refused (.atVerify 0#8) (verifying 1000 2000 1000 [500#64]) ∧
    SignedBy [] (packetOf [] [] 1000) ∧ stampNat (packetOf [] [] 1000) = (1000#64).toNat ∧
    earliest (verifying 1000 2000 1000 [500#64]).ports = (1000#64).toNat ∧
    latest (verifying 3000 2000 1000 [500#64]).ports = (3000#64).toNat ∧
    (1000#64) ∉ (verifying 1000 2000 1000 [500#64]).winOf 0 := by
  obtain ⟨h1, -, h3, h4⟩ := verifying_facts (ts := 1000) (by decide) 2000 1000 [500#64]
  exact ⟨by unfold verifying; decide, h1, h3, h4, rfl, rfl, by decide⟩

/-- One state for each check that can fail first. -/
theorem witness_FirstFailingCheckDecidesTheError :
    (State.reset.wf ∧ ¬ Refused (.atVerify 0#8) State.reset ∧ State.reset.ports.packet.length < 40) ∧
    ((999 : Int) < earliest (verifying 999 2000 1000 []).ports) ∧
    (latest (verifying 3001 2000 1000 []).ports < 3001) ∧
    ((1000#64) ∈ (verifying 1000 2000 1000 [1000#64]).winOf 0) ∧
    (({ verifying 1000 2000 1000 [1500#64] with cfg := { Config.Params.default with rwCap := some 1 } } : State).cfg.rwCap =
        some 1 ∧
      1 ≤ ((verifying 1000 2000 1000 [1500#64]).winOf 0 |>.filter fun e =>
        decide (earliest (verifying 1000 2000 1000 [1500#64]).ports ≤ (e.toNat : Int))).length) ∧
    ¬ SignedBy [] ((~~~ (Config.hmac [] (List.replicate 8 0#8))[0]) :: List.replicate 39 0#8) := by
  refine ⟨⟨by decide, ?_, by decide⟩, by decide, by decide, by decide, ⟨rfl, by decide⟩, ?_⟩
  · rintro (h | h)
    · exact absurd h (by decide)
    · exact not_exceedsPkt rfl _ h
  · intro h
    have e : (Config.hmac [] (List.replicate 8 0#8)).toList =
        ((~~~ (Config.hmac [] (List.replicate 8 0#8))[0]) :: List.replicate 39 0#8).take 32 := h
    have h0 := congrArg (fun l => l[0]?) e
    simp at h0

theorem witness_FailedVerifyLeavesNoTrace :
    (∃ t, exec (.atVerify 0#8) State.reset = .next t) ∧
    ∀ ts payload, (leaves (exec (.atVerify 0#8) State.reset)).res ≠ .verified ts payload := by
  refine ⟨⟨_, rfl⟩, fun ts payload h => ?_⟩
  have : (leaves (exec (.atVerify 0#8) State.reset)).res = .error .tooShort := by decide
  rw [this] at h
  cases h

theorem witness_BuiltPacketVerifies :
    State.reset.wf ∧ (∃ t packet, exec (.atBuild 0#8) State.reset = .next t ∧ t.res = .bytes packet) ∧
    (0#64).toNat = State.reset.ports.nowMs ∧ State.reset.cfg.rwCap = none ∧ (0#64) ∉ State.reset.winOf 0 :=
  ⟨by decide, ⟨_, _, rfl, rfl⟩, rfl, rfl, by decide⟩

/-- A packet accepted at its own time. -/
theorem verifying_succeeds : ∃ t payload, exec (.atVerify 0#8) (verifying 5 5 0 []) = .next t ∧
    t.res = .verified 5#64 payload := by
  obtain ⟨-, h2, h3, h4⟩ := verifying_facts (ts := 5) (by decide) 5 0 []
  have hs : signatureOk Ports.empty.key (packetOf [] [] 5) = true := signatureOk_packetOf [] [] 5
  have ht : stampOf (packetOf [] [] 5) = 5#64 := BitVec.eq_of_toNat_eq ((stampOf_toNat h2).trans h4)
  have hl : (packetOf [] [] 5).length = 40 := packetOf_length [] [] 5
  have hw : (verifying 5 5 0 []).winOf 0 = [] := rfl
  refine ⟨{ (verifying 5 5 0 []).setWin 0 [5#64] with res := .verified 5#64 ((packetOf [] [] 5).drop 40) }, _, ?_, rfl⟩
  simp [exec, execAtVerify, verifying, instanceLegal, withinCap, State.reset, State.resetWith, Config.Params.default,
    hs, ht, hl, Config.minPacket, State.winOf, pruneBelow, insertSorted, State.setWin, State.answer, State.setRes]

theorem witness_SameTimestampIsReplayed :
    (verifying 5 5 0 []).wf ∧ (∃ t payload, exec (.atVerify 0#8) (verifying 5 5 0 []) = .next t ∧
      t.res = .verified 5#64 payload) ∧
    SignedBy (verifying 5 5 0 []).ports.key (verifying 5 5 0 []).ports.packet ∧
    stampNat (verifying 5 5 0 []).ports.packet = (5#64).toNat ∧ earliest (verifying 5 5 0 []).ports ≤ (5#64).toNat ∧
    ((5#64).toNat : Int) ≤ latest (verifying 5 5 0 []).ports := by
  obtain ⟨-, -, h3, h4⟩ := verifying_facts (ts := 5) (by decide) 5 0 []
  exact ⟨by unfold verifying; decide, verifying_succeeds, h3, h4, by decide, by decide⟩

theorem witness_InstancesAreIndependent :
    let s := { State.reset with win := [[], [5#64]] }
    State.reset.wf ∧ s.wf ∧ State.reset.cfg = s.cfg ∧ State.reset.ports = s.ports ∧ State.reset.winOf 0 = s.winOf 0 ∧
    (1 : Nat) ≠ (0#8).toNat := ⟨by decide, by decide, rfl, rfl, rfl, by decide⟩

/-- The built packet with its first byte complemented. -/
theorem witness_ChangedDigestIsBadSignature :
    ∃ t packet forged, exec (.atBuild 0#8) State.reset = .next t ∧ t.res = .bytes packet ∧
      forged.length = packet.length ∧ forged ≠ packet ∧ forged.drop 32 = packet.drop 32 := by
  refine ⟨_, packetOf [] [] 0, (packetOf [] [] 0).set 0 (~~~ (packetOf [] [] 0)[0]'(by rw [packetOf_length]; decide)),
    rfl, rfl, by simp, ?_, ?_⟩
  · intro h
    have h0 := congrArg (fun l => l[0]?) h
    have hl : 0 < (packetOf [] [] 0).length := by rw [packetOf_length]; decide
    simp [hl] at h0
  · rw [List.drop_set]
    simp

/-- The first and the last instance, and one past it; TD present and absent. -/
theorem witness_UnitResetsResetTheirOwnUnit :
    State.reset.cfg.hasTd = true ∧ (under other).cfg.hasTd = false ∧ (1#8).toNat < State.reset.cfg.nAuth ∧
    State.reset.cfg.nAuth ≤ (2#8).toNat := by decide

theorem witness_UnitResetsTogetherAreSysReset :
    State.reset.wf ∧ State.reset.cfg.hasTd = true ∧ State.reset.cfg.hasRawMode = true ∧ State.reset.cfg.nAuth ≤ 256 ∧
    ∃ t, exec .sysRst State.reset = .next t := ⟨by decide, rfl, rfl, by decide, ⟨_, rfl⟩⟩

theorem witness_FirstOperationsAfterReset :
    paramsOk tight = true ∧ tight.hasTd = true ∧ 1 ≤ (1#6).toNat ∧ (32#6).toNat ≤ 32 := by decide

end Sys2Proof.Tests
end

section
/-! The scope of a step (00_scope.md R8, R9): what it takes from the inputs and runs, and that it leaves the
parameters alone. -/

namespace Sys2Proof.Machine

/-! ## What a step leaves alone -/

/-- A fetch does not touch the parameters. -/
@[simp] theorem fetch_state_cfg (s : State) : (fetch s).state.cfg = s.cfg := by
  obtain ⟨q, ports, hf⟩ := fetch_state s
  rw [hf]

/-- R301: the parameters are the same after every step. -/
theorem step_keeps_cfg {s t : State} (h : step s = .next t) : t.cfg = s.cfg := by
  rcases step_cases s with hs | hs | ⟨i, hs⟩ <;> rw [hs] at h
  case inl => cases h; exact fetch_state_cfg s
  case inr.inl => cases h; exact fetch_state_cfg s
  case inr.inr =>
    obtain ⟨hcfg, -, -⟩ := exec_hostSide h
    exact hcfg.trans (fetch_state_cfg s)

/-- Settles O11: of the three things a step can do, none writes the parameters. -/
theorem stepKeepsTheParameters : Obligations.StepKeepsTheParameters :=
  fun _ _ h => step_keeps_cfg h

/-! ## What waits at the inputs, and what is fetched from it -/

section
variable {s : State} {q : List Input} {i : Instr}

theorem putBack_eq (rest : List Byte) (q : List Input) :
    putBack rest q = if rest = [] then q else .wire rest :: q := by
  cases rest <;> rfl

theorem fetch_of_inputs_nil (hq : s.inputs = []) : fetch s = .nothing s := by
  simp only [fetch, hq]

/-- An empty chunk holds no item and is dropped. -/
theorem fetch_of_wire_nil (hq : s.inputs = .wire [] :: q) : fetch s = .nothing { s with inputs := q } := by
  simp only [fetch, hq, decode, decodeWire, State.setInputs]

theorem fetch_of_decodeCmd {w : CmdWord} {p : Ports} (hq : s.inputs = .cmd w p :: q) (hd : decodeCmd w = .ok i) :
    fetch s = .instr i { s with inputs := q, ports := p } := by
  simp only [fetch, hq, decode, hd, State.setInputs, State.setPorts]

/-- R94: whether an escape pair is one item depends on `rx.state` being `FRAME`. -/
theorem fetch_of_decodeWire {bs rest : List Byte} (hq : s.inputs = .wire bs :: q)
    (hd : decodeWire (decide (s.rx.state = .frame)) bs = some (i, rest)) :
    fetch s = .instr i { s with inputs := if rest = [] then q else .wire rest :: q } := by
  have hb : (s.rx.state == .frame) = decide (s.rx.state = .frame) := rfl
  simp only [fetch, hq, hb, decode, hd, putBack_eq, State.setInputs]

/-! ## What is done with it -/

theorem step_of_fetch_instr {s' : State} (h : fetch s = .instr i s') : step s = exec i s' := by
  simp only [step, h]

theorem step_of_fetch_nothing {s' : State} (h : fetch s = .nothing s') : step s = .next s' := by
  simp only [step, h]

end

/-- Settles O4: one clause for each thing that can wait first. -/
theorem stepRunsTheDecodedInstruction : Obligations.StepRunsTheDecodedInstruction := by
  intro s q
  refine ⟨?command, ?serial, ?emptyChunk, ?nothing⟩
  case command => exact fun w p i hq hd => step_of_fetch_instr (fetch_of_decodeCmd hq hd)
  case serial => exact fun bs i rest hq hd => step_of_fetch_instr (fetch_of_decodeWire hq hd)
  case emptyChunk => exact fun hq => step_of_fetch_nothing (fetch_of_wire_nil hq)
  case nothing => exact fun hq => step_of_fetch_nothing (fetch_of_inputs_nil hq)

end Sys2Proof.Machine
end

section
/-! What the state keeps (10_state.md R20): who writes which element, said once as the relation `Effect`, and from it
that each element is changed by its writers only and that a legal state stays legal. -/

namespace Sys2Proof.Machine

open Sys2Proof.Config (Params Field)

/-! ## The reset state -/

/-- R301: reset is legal under all legal parameters. -/
theorem resetWith_wf {p : Params} (hp : paramsOk p = true) : (State.resetWith p).wf := by
  have hrc : ReadCursor.reset.wf p := fun _ => ⟨rfl, rfl, rfl⟩
  have hwc : WriteCursor.reset.wf p := (WriteCursor.wf_iff p _).2 ⟨WriteCursor.clean_empty, withinCap_zero _⟩
  have hwin : winsWf p (List.replicate p.nAuth []) := by
    refine ⟨List.length_replicate, fun w hw => ?_⟩
    rw [List.eq_of_mem_replicate hw]
    exact ⟨rfl, withinCap_zero _⟩
  have htd : (TdUnit.reset p.schema).wf p := ⟨snapshotLegal_zero _, snapshotLegal_zero _, fun _ => rfl⟩
  exact ⟨hp, RxUnit.clear_wf p .idle, hrc, hwc, hwin, htd⟩

/-- Settles O9: the default parameters are legal. -/
theorem resetStateIsLegal : Obligations.ResetStateIsLegal :=
  resetWith_wf (by decide)

/-! ## Reads move the cursor only -/

/-- `rc'` is `rc` with the cursor moved: the mode and the two buffers are the same, and a legal cursor stays legal. -/
structure ReadCursor.MovesTo (rc rc' : ReadCursor) : Prop where
  mode : rc'.mode = rc.mode
  buf  : rc'.buf = rc.buf
  raw  : rc'.raw = rc.raw
  wf   : ∀ p, rc.wf p → rc'.wf p

theorem ReadCursor.MovesTo.trans {a b c : ReadCursor} (hab : a.MovesTo b) (hbc : b.MovesTo c) : a.MovesTo c where
  mode := hbc.mode.trans hab.mode
  buf := hbc.buf.trans hab.buf
  raw := hbc.raw.trans hab.raw
  wf p h := hbc.wf p (hab.wf p h)

theorem ReadCursor.movesTo_read (rc : ReadCursor) (n : Nat) : rc.MovesTo (rc.read n).2 := by
  obtain ⟨hmode, hbuf, hraw⟩ := rc.read_frame n
  exact ⟨hmode, hbuf, hraw, fun _ h => ReadCursor.read_wf h n⟩

theorem ReadCursor.movesTo_decodeFields (rc : ReadCursor) (full : Bool) (schema : List Field) (prev : Snapshot) :
    rc.MovesTo (decodeFields full schema prev rc).2 := by
  obtain ⟨hmode, hbuf, hraw, hwf⟩ := decodeFields_frame full schema prev rc
  exact ⟨hmode, hbuf, hraw, hwf⟩

/-! ## What an operation can do -/

/-- The instruction reads at the read cursor. -/
def ReadsField (i : Instr) : Prop := (∃ n, i = .bcRd n) ∨ (∃ n, i = .bcRds n) ∨ i = .tdDec

/-- What instruction `i` can make of the state `s`: it leaves a result, and it writes no element but those that name it
in R20's column "written by". Where the element has an invariant, what is written keeps it. -/
inductive Effect (s : State) : Instr → State → Prop
  /-- A result and nothing else: a query, an error, a refusal. -/
  | result (i : Instr) (r : Result) : Effect s i (s.setRes r)
  | rx {i : Instr} {rx : RxUnit} (r : Result) (hi : Claims.Receives i ∨ i = .rxRst)
      (hrx : s.rx.wf s.cfg → rx.wf s.cfg) : Effect s i ((s.setRx rx).setRes r)
  | crc {i : Instr} (c : BitVec 16) (r : Result) (hi : (∃ b, i = .crcUpd b) ∨ i = .crcInit) :
      Effect s i ((s.setCrc c).setRes r)
  | load (buf : List Byte) (r : Result) :
      Effect s .bcLoad ((s.setRc { s.rc with buf := buf, mode := .packed, w := 0, o := 0 }).setRes r)
  | loadRaw (list : List Int) (r : Result) (hraw : s.cfg.hasRawMode = true) :
      Effect s .bcLoadraw ((s.setRc { s.rc with raw := list, idx := 0, mode := .raw }).setRes r)
  | read {i : Instr} {rc : ReadCursor} (r : Result) (hi : ReadsField i) (hrc : s.rc.MovesTo rc) :
      Effect s i ((s.setRc rc).setRes r)
  | write {i : Instr} {wc : WriteCursor} (r : Result) (hi : (∃ n, i = .bcWr n) ∨ i = .bcWinit)
      (hwc : s.wc.wf s.cfg → wc.wf s.cfg) : Effect s i ((s.setWc wc).setRes r)
  | decode {rc : ReadCursor} {new : Snapshot} (seq : BitVec 4) (r : Result) (htd : s.cfg.hasTd = true)
      (hrc : s.rc.MovesTo rc)
      (hnew : schemaOk s.cfg.schema = true → snapshotLegal s.cfg.schema s.td.rxPrev = true →
        snapshotLegal s.cfg.schema new = true) :
      Effect s .tdDec (((s.setRc rc).setTd { s.td with rxSeq := seq, rxPrev := new }).setRes r)
  | encode {wc : WriteCursor} {new : Snapshot} (full : Bool) (seq : BitVec 4) (r : Result) (htd : s.cfg.hasTd = true)
      (hwc : s.wc.wf s.cfg → wc.wf s.cfg) (hnew : snapshotLegal s.cfg.schema new = true) :
      Effect s (.tdEnc full) (((s.setWc wc).setTd { s.td with txSeq := seq, txPrev := new }).setRes r)
  | tdRst (r : Result) : Effect s .tdRst ((s.setTd (.reset s.cfg.schema)).setRes r)
  | window {i : Instr} {b : Byte} {w : List Stamp} (r : Result) (hi : i = .atVerify b ∨ i = .atRst b)
      (hw : winsWf s.cfg s.win → ascending w = true ∧ withinCap s.cfg.rwCap w.length = true) :
      Effect s i ((s.setWin b.toNat w).setRes r)
  | sysRst : Effect s .sysRst { State.resetWith s.cfg with inputs := s.inputs, ports := s.ports }

/-! ## The meanings have these effects -/

section
variable {s t : State}

/-- An operation that ends normally leaves the state it has made, with its result. -/
theorem eq_of_answer {r : Result} (h : s.answer r = .next t) : t = s.setRes r :=
  (Host.Outcome.next.inj h).symm

theorem effect_of_answer {s' : State} {i : Instr} {r : Result} (h : s'.answer r = .next t)
    (he : Effect s i (s'.setRes r)) : Effect s i t :=
  eq_of_answer h ▸ he

/-- An error or a refusal changes the result only. -/
theorem effect_of_raise {i : Instr} {e : LcbError} (h : s.raise e = .next t) : Effect s i t :=
  effect_of_answer h (.result i _)

theorem effect_of_wireByte {i : Instr} (hi : Claims.Receives i) {c : WireClass} {b : Byte}
    (h : wireByte c b s = .next t) : Effect s i t :=
  effect_of_answer h (.rx _ (.inl hi) fun hwf => rxTable_wf hwf c b)

theorem effect_of_wirePair {i : Instr} (hi : Claims.Receives i) {e : Byte} (h : wirePair e s = .next t) :
    Effect s i t :=
  effect_of_answer h (.rx _ (.inl hi) fun hwf => feedLoop_wf hwf _ _ _)

theorem effect_of_rxFeed (h : execRxFeed s = .next t) : Effect s .rxFeed t :=
  effect_of_answer h (.rx _ (.inl trivial) fun hwf => feedLoop_wf hwf _ _ _)

theorem effect_of_rxRst (h : execRxRst s = .next t) : Effect s .rxRst t :=
  effect_of_answer h (.rx _ (.inr rfl) fun _ => RxUnit.clear_wf _ _)

theorem effect_of_bcLoadraw (h : execBcLoadraw s = .next t) : Effect s .bcLoadraw t := by
  unfold execBcLoadraw at h
  split at h
  case isTrue => exact effect_of_raise h
  case isFalse hraw => exact effect_of_answer h (.loadRaw _ _ (by simpa using hraw))

theorem effect_of_bcRd {n : BitVec 6} (h : execBcRd n s = .next t) : Effect s (.bcRd n) t := by
  unfold execBcRd at h
  split at h
  case isTrue => exact effect_of_raise h
  case isFalse => exact effect_of_answer h (.read _ (.inl ⟨n, rfl⟩) (s.rc.movesTo_read _))

theorem effect_of_bcRds {n : BitVec 6} (h : execBcRds n s = .next t) : Effect s (.bcRds n) t := by
  unfold execBcRds at h
  split at h
  case isTrue => exact effect_of_raise h
  case isFalse => exact effect_of_answer h (.read _ (.inr (.inl ⟨n, rfl⟩)) (s.rc.movesTo_read _))

theorem effect_of_bcWinit (h : execBcWinit s = .next t) : Effect s .bcWinit t :=
  effect_of_answer h (.write _ (.inr rfl) fun _ =>
    (WriteCursor.wf_iff _ _).2 ⟨WriteCursor.clean_empty, withinCap_zero _⟩)

theorem effect_of_bcWr {n : BitVec 6} (h : execBcWr n s = .next t) : Effect s (.bcWr n) t := by
  unfold execBcWr at h
  split_ifs at h with _ hroom
  case neg =>
    rw [Bool.not_eq_true', Bool.not_eq_false] at hroom
    exact effect_of_answer h (.write _ (.inl ⟨n, rfl⟩) fun hwf => WriteCursor.write_wf hwf hroom _)
  all_goals exact effect_of_raise h

theorem effect_of_txFrame (h : execTxFrame s = .next t) : Effect s .txFrame t := by
  unfold execTxFrame at h
  split at h <;> exact effect_of_answer h (.result _ _)

/-- `TD.DEC` reads the flag, for an incremental payload the sequence number, and then the fields. -/
theorem effect_of_tdDec (h : execTdDec s = .next t) : Effect s .tdDec t := by
  unfold execTdDec at h
  split at h
  case isTrue => exact effect_of_raise h
  case isFalse htd =>
    have htd : s.cfg.hasTd = true := by simpa using htd
    have hflag := s.rc.movesTo_read 1
    have hseq := hflag.trans (ReadCursor.movesTo_read _ 4)
    simp only [] at h
    split at h
    · split at h
      · exact effect_of_answer h (.read _ (.inr (.inr rfl)) hseq)
      · exact effect_of_answer h (.decode _ _ htd (hseq.trans (ReadCursor.movesTo_decodeFields ..))
          fun hs hp => decodeFields_legal _ _ _ _ hs hp)
    · exact effect_of_answer h (.decode _ _ htd (hflag.trans (ReadCursor.movesTo_decodeFields ..))
        fun hs hp => decodeFields_legal _ _ _ _ hs hp)

theorem effect_of_tdEnc {full : Bool} (h : execTdEnc full s = .next t) : Effect s (.tdEnc full) t := by
  unfold execTdEnc at h
  generalize (if full then 0#4 else s.td.txSeq + 1#4) = seq at h
  simp only [] at h
  split_ifs at h with htd hnew hroom
  case neg =>
    rw [Bool.not_eq_true', Bool.not_eq_false] at htd hnew hroom
    exact effect_of_answer h (.encode full seq _ htd (fun hwf => WriteCursor.writeAll_wf hwf hroom) hnew)
  all_goals exact effect_of_raise h

theorem effect_of_tdRst (h : execTdRst s = .next t) : Effect s .tdRst t := by
  unfold execTdRst at h
  split at h
  case isTrue => exact effect_of_raise h
  case isFalse => exact effect_of_answer h (.tdRst _)

theorem effect_of_atBuild {k : Byte} (h : execAtBuild k s = .next t) : Effect s (.atBuild k) t := by
  unfold execAtBuild at h
  split at h <;> exact effect_of_answer h (.result _ _)

/-- `AT.VERIFY k` in two states with the same parameters, operands and window `k`: by R243's checks, either both leave
every window alone, or window `k` exists and in both it is pruned and takes the new timestamp, for which there is room.
The result is the same. -/
theorem execAtVerify_congr {s s' : State} {k : Byte} (hcfg : s.cfg = s'.cfg) (hports : s.ports = s'.ports)
    (hwin : s.winOf k.toNat = s'.winOf k.toNat) :
    (∃ r, execAtVerify k s = s.answer r ∧ execAtVerify k s' = s'.answer r) ∨
    (k.toNat < s.cfg.nAuth ∧ ∃ (ts : Stamp) (bound : Int) (r : Result),
      ts ∉ s.winOf k.toNat ∧ withinCap s.cfg.rwCap ((pruneBelow bound (s.winOf k.toNat)).length + 1) = true ∧
      execAtVerify k s = (s.setWin k.toNat (insertSorted ts (pruneBelow bound (s.winOf k.toNat)))).answer r ∧
      execAtVerify k s' = (s'.setWin k.toNat (insertSorted ts (pruneBelow bound (s.winOf k.toNat)))).answer r) := by
  unfold execAtVerify
  rw [← hcfg, ← hports, ← hwin]
  simp only []
  split_ifs with hno _ _ _ _ hnew hroom
  case neg =>
    simp only [Bool.or_eq_true, Bool.not_eq_true', not_or, Bool.not_eq_false] at hno hroom
    exact .inr ⟨(instanceLegal_iff _ _).1 hno.1, _, _, _, hnew, hroom, rfl, rfl⟩
  all_goals exact .inl ⟨_, rfl, rfl⟩

/-- Pruning and inserting a timestamp that is not there keep a window legal, if there is room for it (R249, R251). -/
theorem insert_pruned_legal {p : Params} {w : List Stamp} {ts : Stamp} {bound : Int} (hw : ascending w = true)
    (hnew : ts ∉ w) (hroom : withinCap p.rwCap ((pruneBelow bound w).length + 1) = true) :
    ascending (insertSorted ts (pruneBelow bound w)) = true ∧
    withinCap p.rwCap (insertSorted ts (pruneBelow bound w)).length = true := by
  refine ⟨insertSorted_ascending _ _ (pruneBelow_ascending _ _ hw) fun hmem => ?_, ?_⟩
  · exact hnew ((List.dropWhile_sublist _).subset hmem)
  · rw [insertSorted_length]
    exact hroom

theorem effect_of_atVerify {k : Byte} (h : execAtVerify k s = .next t) : Effect s (.atVerify k) t := by
  rcases execAtVerify_congr (s := s) (k := k) rfl rfl rfl with ⟨r, hs, -⟩ | ⟨-, ts, bound, r, hnew, hroom, hs, -⟩
  all_goals rw [hs] at h
  · exact effect_of_answer h (.result _ r)
  · exact effect_of_answer h (.window r (.inl rfl) fun hwin => insert_pruned_legal (winOf_legal hwin _).1 hnew hroom)

theorem effect_of_atRst {k : Byte} (h : execAtRst k s = .next t) : Effect s (.atRst k) t := by
  unfold execAtRst at h
  split at h
  case isTrue => exact effect_of_raise h
  case isFalse => exact effect_of_answer h (.window _ (.inr rfl) fun _ => ⟨rfl, withinCap_zero _⟩)

/-- Whatever an operation leaves, it is one of its effects. -/
theorem exec_effect {i : Instr} (h : exec i s = .next t) : Effect s i t := by
  cases i with
  | stx => exact effect_of_wireByte trivial h
  | etx => exact effect_of_wireByte trivial h
  | esc => exact effect_of_wireByte trivial h
  | ctl x => exact effect_of_wireByte trivial h
  | lit b => exact effect_of_wireByte trivial h
  | ep0 => exact effect_of_wirePair trivial h
  | ep1 => exact effect_of_wirePair trivial h
  | ep2 => exact effect_of_wirePair trivial h
  | ep3 => exact effect_of_wirePair trivial h
  | ep4 => exact effect_of_wirePair trivial h
  | epx e => exact effect_of_wirePair trivial h
  | bcLoad => exact effect_of_answer h (.load _ _)
  | bcLoadraw => exact effect_of_bcLoadraw h
  | bcRd n => exact effect_of_bcRd h
  | bcRds n => exact effect_of_bcRds h
  | bcWinit => exact effect_of_bcWinit h
  | bcWr n => exact effect_of_bcWr h
  | bcWtake => exact effect_of_answer h (.result _ _)
  | crcInit => exact effect_of_answer h (.crc _ _ (.inr rfl))
  | crcUpd b => exact effect_of_answer h (.crc _ _ (.inl ⟨b, rfl⟩))
  | crcGet => exact effect_of_answer h (.result _ _)
  | rxByte b => exact effect_of_wireByte trivial h
  | rxFeed => exact effect_of_rxFeed h
  | rxRst => exact effect_of_rxRst h
  | txFrame => exact effect_of_txFrame h
  | tdDec => exact effect_of_tdDec h
  | tdEnc full => exact effect_of_tdEnc h
  | tdRst => exact effect_of_tdRst h
  | atBuild k => exact effect_of_atBuild h
  | atVerify k => exact effect_of_atVerify h
  | atRst k => exact effect_of_atRst h
  | sysRst => cases h; exact .sysRst

/-! ## Every step keeps the legal state -/

/-- Each effect writes legal values only, so of a legal state it leaves a legal one. -/
theorem Effect.wf {i : Instr} (he : Effect s i t) (hwf : s.wf) : t.wf := by
  obtain ⟨hp, hrx, hrc, hwc, hwin, htd⟩ := hwf
  have hschema : schemaOk s.cfg.schema = true := (Bool.and_eq_true_iff.1 hp).2
  cases he with
  | result i r => exact ⟨hp, hrx, hrc, hwc, hwin, htd⟩
  | rx r _ hnew => exact ⟨hp, hnew hrx, hrc, hwc, hwin, htd⟩
  | crc c r _ => exact ⟨hp, hrx, hrc, hwc, hwin, htd⟩
  | load buf r =>
    refine ⟨hp, hrx, fun hno => ?_, hwc, hwin, htd⟩
    obtain ⟨-, hraw, hidx⟩ := hrc hno
    exact ⟨rfl, hraw, hidx⟩
  | loadRaw list r hraw => exact ⟨hp, hrx, fun hno => absurd (hraw.symm.trans hno) (by decide), hwc, hwin, htd⟩
  | read r _ hmove => exact ⟨hp, hrx, hmove.wf _ hrc, hwc, hwin, htd⟩
  | write r _ hnew => exact ⟨hp, hrx, hrc, hnew hwc, hwin, htd⟩
  | decode seq r hhas hmove hnew =>
    obtain ⟨hrxPrev, htxPrev, -⟩ := htd
    exact ⟨hp, hrx, hmove.wf _ hrc, hwc, hwin, hnew hschema hrxPrev, htxPrev,
      fun hno => absurd (hhas.symm.trans hno) (by decide)⟩
  | encode full seq r hhas hnewWc hnew =>
    obtain ⟨hrxPrev, -, -⟩ := htd
    exact ⟨hp, hrx, hrc, hnewWc hwc, hwin, hrxPrev, hnew, fun hno => absurd (hhas.symm.trans hno) (by decide)⟩
  | tdRst r => exact ⟨hp, hrx, hrc, hwc, hwin, snapshotLegal_zero _, snapshotLegal_zero _, fun _ => rfl⟩
  | window r _ hnew =>
    obtain ⟨hasc, hcap⟩ := hnew hwin
    exact ⟨hp, hrx, hrc, hwc, winsWf_set hwin _ hasc hcap, htd⟩
  | sysRst => exact resetWith_wf hp

/-- A fetch takes from the inputs, of which the invariant says nothing. -/
theorem fetch_state_wf (hwf : s.wf) : (fetch s).state.wf := by
  obtain ⟨q, ports, hf⟩ := fetch_state s
  rw [hf]
  exact hwf

end

/-- Settles O8: of the three things a step can do, only running an instruction touches an element, and every effect of
an instruction keeps the invariant. -/
theorem stepKeepsLegalState : Obligations.StepKeepsLegalState := by
  intro s t hwf h
  have hfetched : (fetch s).state.wf := fetch_state_wf hwf
  rcases step_cases s with hs | hs | ⟨i, hs⟩ <;> rw [hs] at h
  case inl => cases h; exact hfetched
  case inr.inl => cases h; exact hfetched
  case inr.inr => exact (exec_effect h).wf hfetched

/-! ## Each element has its writers -/

/-- Settles O12: each effect writes only what its instruction is listed for. -/
theorem onlyItsWritersChangeAnElement : Obligations.OnlyItsWritersChangeAnElement := by
  intro i s t h
  cases exec_effect h with
  | result i r => simp
  | rx r hi _ => rcases hi with hi | rfl <;> simp [*]
  | crc c r hi => rcases hi with ⟨b, rfl⟩ | rfl <;> simp
  | load buf r => simp
  | loadRaw list r _ => simp
  | read r hi hmove => rcases hi with ⟨n, rfl⟩ | ⟨n, rfl⟩ | rfl <;> simp [hmove.mode, hmove.buf, hmove.raw]
  | write r hi _ => rcases hi with ⟨n, rfl⟩ | rfl <;> simp
  | decode seq r _ hmove _ => simp [hmove.mode, hmove.buf, hmove.raw]
  | encode full seq r _ _ _ => simp
  | tdRst r => simp
  | @window _ b w r hi _ =>
    have hown : ∀ k, (s.setWin b.toNat w).winOf k ≠ s.winOf k → b.toNat = k :=
      fun k hne => by_contra fun hk => hne (s.setWin_winOf_other w hk)
    simpa using fun k hne => Or.inl ⟨b, hown k hne, hi⟩
  | sysRst => simp [State.resetWith]

/-! ## `BC.WINIT` and `BC.WR` -/

/-- R137: there is room exactly when the bits do not exceed `WBUF_MAX`. -/
theorem roomFor_iff_not_exceedsWbuf (s : State) (bits : Nat) :
    s.wc.roomFor s.cfg bits = true ↔ ¬ Claims.ExceedsWbuf s bits := by
  simp only [WriteCursor.roomFor_iff, Claims.ExceedsWbuf, not_exists, not_and, not_lt]

/-- A legal width with room is written. -/
theorem exec_bcWr {s : State} {n : BitVec 6} (hn : widthLegal n = true) (hroom : s.wc.roomFor s.cfg n.toNat = true) :
    exec (.bcWr n) s = .next { s with wc := s.wc.write n.toNat s.ports.value, res := .ok } := by
  simp [exec, execBcWr, hn, hroom, State.setWc]

/-- Settles O19: what `WriteCursor.write_spec` says of the write cursor, bit by bit. -/
theorem writeAppendsTheField : Obligations.WriteAppendsTheField := by
  refine ⟨fun _ => rfl, fun s n hwf h1 h32 hfits => ?_⟩
  have hroom := (roomFor_iff_not_exceedsWbuf s n.toNat).2 hfits
  obtain ⟨-, hpos, hbits⟩ := s.wc.write_spec n.toNat s.ports.value ((WriteCursor.wf_iff _ _).1 hwf).1
  refine ⟨s.wc.write n.toNat s.ports.value, exec_bcWr ((widthLegal_iff n).2 ⟨h1, h32⟩) hroom,
    WriteCursor.write_wf hwf hroom _, hpos, fun k hk => ?earlier, fun j hj => ?field⟩
  case earlier => rw [hbits, if_pos hk]
  case field => simp [hbits, hj, trunc]

/-! ## Replay windows are independent -/

theorem State.wf_win_length {s : State} (hwf : s.wf) : s.win.length = s.cfg.nAuth := by
  obtain ⟨-, -, -, -, ⟨hlen, -⟩, -⟩ := hwf
  exact hlen

/-- Settles O55: the two things that `AT.VERIFY` can do, the same one in both states. -/
theorem instancesAreIndependent : Obligations.InstancesAreIndependent := by
  intro s s' t t' i hwf hwf' hcfg hports hwin h h'
  rcases execAtVerify_congr hcfg hports hwin with ⟨r, hs, hs'⟩ | ⟨hi, ts, bound, r, -, -, hs, hs'⟩
  all_goals rw [eq_of_answer (hs.symm.trans h), eq_of_answer (hs'.symm.trans h')]
  · exact ⟨rfl, hwin, fun _ _ => rfl⟩
  · have hlen : i.toNat < s.win.length := by rwa [State.wf_win_length hwf]
    have hlen' : i.toNat < s'.win.length := by rwa [State.wf_win_length hwf', ← hcfg]
    refine ⟨rfl, ?own, fun k hk => s.setWin_winOf_other _ hk.symm⟩
    case own => exact (s.setWin_winOf_self _ hlen).trans (s'.setWin_winOf_self _ hlen').symm

end Sys2Proof.Machine
end

section
/-! Memory (20_memory.md R62 to R66, R70, R76): reading at the cursor and past the end of the read buffer, the byte image
of the write buffer, and that the other units do not disturb reception. -/

namespace Sys2Proof.Machine

/-! ## `BC.RD` and `BC.RDS` in mode `PACKED` -/

section
variable {s : State} {n : BitVec 6}

/-- R133: of a legal width the field at the cursor is read, and the cursor moves past it. -/
theorem exec_bcRd_packed (hmode : s.rc.mode = .packed) (hn : widthLegal n = true) :
    exec (.bcRd n) s = .next { s with rc := s.rc.seek (s.rc.bitPos + n.toNat)
                                      res := .unsigned (fieldValue s.rc.buf s.rc.bitPos n.toNat) } := by
  simp [exec, execBcRd, hn, ReadCursor.read_packed hmode, State.setRc]

/-- R134: the signed read takes the same field in two's complement. -/
theorem exec_bcRds_packed (hmode : s.rc.mode = .packed) (hn : widthLegal n = true) :
    exec (.bcRds n) s = .next { s with rc := s.rc.seek (s.rc.bitPos + n.toNat)
                                       res := .signed (sext n.toNat (fieldValue s.rc.buf s.rc.bitPos n.toNat)) } := by
  simp [exec, execBcRds, hn, ReadCursor.readSigned_packed hmode, State.setRc]

end

/-- Settles O16: the reading loop gives the field at the cursor, a sum of `n` bits. -/
theorem readReturnsTheFieldAtTheCursor : Obligations.ReadReturnsTheFieldAtTheCursor :=
  fun _ n hmode h1 h32 => ⟨exec_bcRd_packed hmode ((widthLegal_iff n).2 ⟨h1, h32⟩), bitSum_lt _ _⟩

/-- Settles O18: a field past the end is 0, and 0 is its own sign extension. -/
theorem readPastTheEndIsZero : Obligations.ReadPastTheEndIsZero := by
  intro s n hmode h1 h32 hend
  have hn : widthLegal n = true := (widthLegal_iff n).2 ⟨h1, h32⟩
  have hfield : fieldValue s.rc.buf s.rc.bitPos n.toNat = 0 := fieldValue_past hend _
  constructor
  · rw [exec_bcRd_packed hmode hn, hfield]
  · rw [exec_bcRds_packed hmode hn, hfield, sext_zero]

/-! ## `BC.WTAKE` -/

/-- R92: the high byte of a storage word is the word divided by 256, of which no more than seven bits are left. -/
theorem word15_highByte_toNat (w : Word15) : ((w >>> 8).setWidth 8).toNat = w.toNat / 256 ∧ w.toNat / 256 < 0x80 := by
  have hw := w.isLt
  rw [BitVec.toNat_setWidth, BitVec.toNat_ushiftRight, Nat.shiftRight_eq_div_pow]
  omega

/-- Settles O20: the image holds word `k` in bytes `2k` and `2k + 1`. -/
theorem takeGivesTheByteImage : Obligations.TakeGivesTheByteImage := by
  refine fun s => ⟨s.wc.image, rfl, image_length _, fun k _ => ?_⟩
  obtain ⟨hlow, hhigh⟩ := image_getD s.wc.words k
  obtain ⟨hdiv, hlt⟩ := word15_highByte_toNat (s.wc.words.getD k 0#15)
  rw [WriteCursor.image, hlow, hhigh, hdiv, BitVec.toNat_setWidth]
  exact ⟨rfl, rfl, hlt⟩

/-! ## Operations of other units leave reception alone -/

/-- The operation neither hands serial bytes to RX nor resets it. -/
def LeavesRx (i : Instr) : Prop := ¬ Claims.Receives i ∧ i ∉ [Instr.rxRst, .sysRst]

/-- R20: RX is written only by operations that receive or reset it. -/
theorem exec_rx_of_leavesRx {i : Instr} {s t : State} (hi : LeavesRx i) (h : exec i s = .next t) : t.rx = s.rx := by
  obtain ⟨hwriters, -⟩ := onlyItsWritersChangeAnElement i s t h
  exact by_contra fun hne => (hwriters hne).elim hi.1 hi.2

/-- A sequence of such operations leaves RX as it was. -/
theorem observe_rx_of_leavesRx {ops : List Op} (hops : ∀ o ∈ ops, LeavesRx o.1) (s : State) :
    (observe ops s).2.rx = s.rx := by
  induction ops generalizing s with
  | nil => rfl
  | cons o os ih =>
    obtain ⟨ho, hos⟩ := List.forall_mem_cons.1 hops
    obtain ⟨t, ht⟩ := issue_answers o s
    have hrx : t.rx = s.rx := exec_rx_of_leavesRx (s := s.setPorts o.2) ho ht
    rw [observe_cons ht]
    exact (ih hos t).trans hrx

/-- What comes out of `FEEDALL`, and the unit it leaves, depend on the parameters and on RX alone. -/
theorem feedAll_congr {s s' : State} (hcfg : s.cfg = s'.cfg) (hrx : s.rx = s'.rx) (bytes : List Byte) :
    (feedAll bytes s).1 = (feedAll bytes s').1 ∧ (feedAll bytes s).2.rx = (feedAll bytes s').2.rx := by
  obtain ⟨hout, _, _, hleft⟩ := feedAll_eq bytes s
  obtain ⟨hout', _, _, hleft'⟩ := feedAll_eq bytes s'
  rw [hout, hout', hleft, hleft', hcfg, hrx]
  exact ⟨rfl, rfl⟩

/-- Settles O36: the operations leave the parameters and RX as they were, and reception depends on nothing else. -/
theorem otherUnitsDoNotDisturbReception : Obligations.OtherUnitsDoNotDisturbReception :=
  fun ops bytes s hops => feedAll_congr (observe_cfg ops s) (observe_rx_of_leavesRx hops s) bytes

end Sys2Proof.Machine
end

section
/-! Encodings (30_encoding.md R91, R94, R95, R107, R108): the encoder and the two decoders undo each other. -/

namespace Sys2Proof

/-! ## The two fields of a command word (R107) -/

theorem cmdOpc_toNat (w : CmdWord) : (cmdOpc w).toNat = w.toNat / 256 := by
  have hw := w.isLt
  rw [cmdOpc, BitVec.toNat_setWidth, BitVec.toNat_ushiftRight, Nat.shiftRight_eq_div_pow]
  omega

theorem cmdArg_toNat (w : CmdWord) : (cmdArg w).toNat = w.toNat % 256 :=
  BitVec.toNat_setWidth ..

theorem cmdWord_toNat (opc arg : Byte) : (cmdWord opc arg).toNat = 256 * opc.toNat + arg.toNat := by
  have hopc := opc.isLt
  have harg := arg.isLt
  rw [cmdWord, BitVec.toNat_or, BitVec.toNat_shiftLeft, BitVec.toNat_setWidth, BitVec.toNat_setWidth,
    Nat.mod_eq_of_lt (by omega : opc.toNat < 2 ^ 16), Nat.mod_eq_of_lt (by omega : arg.toNat < 2 ^ 16),
    Nat.mod_eq_of_lt (by rw [Nat.shiftLeft_eq]; omega : opc.toNat <<< 8 < 2 ^ 16),
    ← Nat.shiftLeft_add_eq_or_of_lt harg, Nat.shiftLeft_eq]
  omega

@[simp] theorem cmdOpc_cmdWord (opc arg : Byte) : cmdOpc (cmdWord opc arg) = opc := by
  have harg := arg.isLt
  apply BitVec.eq_of_toNat_eq
  rw [cmdOpc_toNat, cmdWord_toNat]
  omega

@[simp] theorem cmdArg_cmdWord (opc arg : Byte) : cmdArg (cmdWord opc arg) = arg := by
  have harg := arg.isLt
  apply BitVec.eq_of_toNat_eq
  rw [cmdArg_toNat, cmdWord_toNat]
  omega

/-- A command word is nothing but its two fields. -/
theorem cmdWord_cmdOpc_cmdArg (w : CmdWord) : cmdWord (cmdOpc w) (cmdArg w) = w := by
  apply BitVec.eq_of_toNat_eq
  rw [cmdWord_toNat, cmdOpc_toNat, cmdArg_toNat]
  omega

/-! ## The three forms of `arg` (R107, R108) -/

theorem noArg_eq_ok_iff (arg : Byte) (j i : Instr) : noArg arg j = .ok i ↔ arg = 0#8 ∧ j = i := by
  unfold noArg
  split <;> simp [*]

theorem widthArg_eq_ok_iff (arg : Byte) (f : BitVec 6 → Instr) (i : Instr) :
    widthArg arg f = .ok i ↔ ∃ n : BitVec 6, n.setWidth 8 = arg ∧ f n = i := by
  have hrestore : arg >>> 6 = 0#8 → (arg.setWidth 6).setWidth 8 = arg := by revert arg; decide
  have hfits : ∀ n : BitVec 6, n.setWidth 8 >>> 6 = 0#8 ∧ (n.setWidth 8).setWidth 6 = n := by decide
  unfold widthArg
  constructor
  · intro h
    split at h
    case isTrue hzero => exact ⟨_, hrestore hzero, Except.ok.inj h⟩
    case isFalse => cases h
  · rintro ⟨n, rfl, rfl⟩
    rw [if_pos (hfits n).1, (hfits n).2]

theorem flagArg_eq_ok_iff (arg : Byte) (f : Bool → Instr) (i : Instr) :
    flagArg arg f = .ok i ↔ ∃ full : Bool, (BitVec.ofBool full).setWidth 8 = arg ∧ f full = i := by
  have hrestore : arg >>> 1 = 0#8 → (BitVec.ofBool (arg.getLsbD 0)).setWidth 8 = arg := by revert arg; decide
  unfold flagArg
  constructor
  · intro h
    split at h
    case isTrue hzero => exact ⟨_, hrestore hzero, Except.ok.inj h⟩
    case isFalse => cases h
  · rintro ⟨full, rfl, rfl⟩
    cases full <;> rfl

/-! ## Command words -/

section
variable {w : CmdWord} {i : Instr}

/-- A word whose two fields are known. -/
theorem cmd_cmdWord_eq {opc arg : Byte} (hopc : (cmdOpc w).toNat = opc.toNat) (harg : arg = cmdArg w) :
    Code.cmd (cmdWord opc arg) = .cmd w := by
  rw [harg, ← BitVec.eq_of_toNat_eq hopc, cmdWord_cmdOpc_cmdArg]

theorem encode_of_noArg (opc : Byte) {j : Instr} (hopc : (cmdOpc w).toNat = opc.toNat) (h : noArg (cmdArg w) j = .ok i)
    (henc : encode j = .cmd (cmdWord opc 0#8)) : encode i = .cmd w := by
  obtain ⟨harg, rfl⟩ := (noArg_eq_ok_iff ..).1 h
  exact henc.trans (cmd_cmdWord_eq hopc harg.symm)

theorem encode_of_widthArg (opc : Byte) {f : BitVec 6 → Instr} (hopc : (cmdOpc w).toNat = opc.toNat)
    (h : widthArg (cmdArg w) f = .ok i) (henc : ∀ n, encode (f n) = .cmd (cmdWord opc (n.setWidth 8))) :
    encode i = .cmd w := by
  obtain ⟨n, harg, rfl⟩ := (widthArg_eq_ok_iff ..).1 h
  exact (henc n).trans (cmd_cmdWord_eq hopc harg)

theorem encode_of_flagArg (opc : Byte) {f : Bool → Instr} (hopc : (cmdOpc w).toNat = opc.toNat)
    (h : flagArg (cmdArg w) f = .ok i)
    (henc : ∀ full, encode (f full) = .cmd (cmdWord opc ((BitVec.ofBool full).setWidth 8))) : encode i = .cmd w := by
  obtain ⟨full, harg, rfl⟩ := (flagArg_eq_ok_iff ..).1 h
  exact (henc full).trans (cmd_cmdWord_eq hopc harg)

theorem encode_of_byteArg (opc : Byte) {f : Byte → Instr} (hopc : (cmdOpc w).toNat = opc.toNat)
    (h : (.ok (f (cmdArg w)) : Except DecodeError Instr) = .ok i) (henc : ∀ b, encode (f b) = .cmd (cmdWord opc b)) :
    encode i = .cmd w := by
  cases h
  exact (henc _).trans (cmd_cmdWord_eq hopc rfl)

/-- R108, row by row: what a word decodes to has that word as its code. -/
theorem encode_of_decodeCmd (h : decodeCmd w = .ok i) : encode i = .cmd w := by
  unfold decodeCmd at h
  simp only [] at h
  split at h
  next hopc => exact encode_of_noArg 0x10#8 hopc h rfl
  next hopc => exact encode_of_noArg 0x11#8 hopc h rfl
  next hopc => exact encode_of_widthArg 0x12#8 hopc h fun _ => rfl
  next hopc => exact encode_of_widthArg 0x13#8 hopc h fun _ => rfl
  next hopc => exact encode_of_noArg 0x14#8 hopc h rfl
  next hopc => exact encode_of_widthArg 0x15#8 hopc h fun _ => rfl
  next hopc => exact encode_of_noArg 0x16#8 hopc h rfl
  next hopc => exact encode_of_noArg 0x20#8 hopc h rfl
  next hopc => exact encode_of_byteArg 0x21#8 hopc h fun _ => rfl
  next hopc => exact encode_of_noArg 0x22#8 hopc h rfl
  next hopc => exact encode_of_byteArg 0x30#8 hopc h fun _ => rfl
  next hopc => exact encode_of_noArg 0x31#8 hopc h rfl
  next hopc => exact encode_of_noArg 0x32#8 hopc h rfl
  next hopc => exact encode_of_noArg 0x40#8 hopc h rfl
  next hopc => exact encode_of_noArg 0x50#8 hopc h rfl
  next hopc => exact encode_of_flagArg 0x51#8 hopc h fun _ => rfl
  next hopc => exact encode_of_noArg 0x52#8 hopc h rfl
  next hopc => exact encode_of_byteArg 0x60#8 hopc h fun _ => rfl
  next hopc => exact encode_of_byteArg 0x61#8 hopc h fun _ => rfl
  next hopc => exact encode_of_byteArg 0x62#8 hopc h fun _ => rfl
  next hopc => exact encode_of_noArg 0xFF#8 hopc h rfl
  next => cases h

/-- R108, row by row: the code of an instruction, if it is a command word, decodes to it. -/
theorem decodeCmd_of_encode (h : encode i = .cmd w) : decodeCmd w = .ok i := by
  cases i <;> cases h
  case bcRd n => simpa [decodeCmd] using (widthArg_eq_ok_iff ..).2 ⟨n, rfl, rfl⟩
  case bcRds n => simpa [decodeCmd] using (widthArg_eq_ok_iff ..).2 ⟨n, rfl, rfl⟩
  case bcWr n => simpa [decodeCmd] using (widthArg_eq_ok_iff ..).2 ⟨n, rfl, rfl⟩
  case tdEnc full => simpa [decodeCmd] using (flagArg_eq_ok_iff ..).2 ⟨full, rfl, rfl⟩
  case crcUpd | rxByte | atBuild | atVerify | atRst => simp [decodeCmd]
  all_goals rfl

/-- Only two rows of serial bytes, `LIT` and `EPX`, leave some of their operands to other rows. -/
theorem wellFormed_of_encode_cmd (h : encode i = .cmd w) : i.wellFormed = true := by
  cases i <;> cases h <;> rfl

end

/-! ## Serial bytes -/

/-- R91: every byte is classified as an instruction of whose row it is the code. -/
theorem encode_classifyByte (b : Byte) :
    encode (classifyByte b) = .wire [b] ∧ (classifyByte b).wellFormed = true := by
  revert b; decide

theorem classifyByte_lit {b : Byte} (h : litByte b = true) : classifyByte b = .lit b := by
  simp only [classifyByte, Machine.wireClass_lit (of_decide_eq_true h)]

/-- R94, R95: every `ESC e` is classified as a pair of whose row it is the code. -/
theorem encode_classifyPair (e : Byte) :
    encode (classifyPair e) = .wire [Config.esc, e] ∧ (classifyPair e).wellFormed = true := by
  revert e; decide

theorem classifyPair_epx {e : Byte} (h : canonicalOperand e = false) : classifyPair e = .epx e := by
  revert e; decide

/-- What is taken from serial bytes is the byte or the pair in front. -/
theorem encode_of_decodeWire {inFrame : Bool} {bs rest : List Byte} {i : Instr}
    (h : decodeWire inFrame bs = some (i, rest)) :
    i.wellFormed = true ∧ ∃ used, encode i = .wire used ∧ bs = used ++ rest := by
  unfold decodeWire at h
  split at h
  next => cases h
  next b =>
    obtain ⟨henc, hwf⟩ := encode_classifyByte b
    cases h
    exact ⟨hwf, [b], henc, rfl⟩
  next b e rest' =>
    split at h
    case isTrue hpair =>
      obtain ⟨-, hesc⟩ := Bool.and_eq_true_iff.1 hpair
      obtain ⟨henc, hwf⟩ := encode_classifyPair e
      cases h
      exact ⟨hwf, [Config.esc, e], henc, by rw [eq_of_beq hesc]; rfl⟩
    case isFalse =>
      obtain ⟨henc, hwf⟩ := encode_classifyByte b
      cases h
      exact ⟨hwf, [b], henc, rfl⟩

/-- The code of a well-formed instruction, if it is serial bytes, is read inside a frame as that instruction. -/
theorem decodeWire_of_encode {bs : List Byte} {i : Instr} (hwf : i.wellFormed = true) (h : encode i = .wire bs) :
    decodeWire true bs = some (i, []) := by
  cases i <;> cases h
  case ctl x => revert x; decide
  case lit b => exact congrArg (fun j => some (j, [])) (classifyByte_lit hwf)
  case epx e => exact congrArg (fun j => some (j, [])) (classifyPair_epx (Bool.not_eq_true' _ ▸ hwf))
  all_goals rfl

/-! ## Encoder and decoder -/

theorem decode_cmd_eq_ok_iff (inFrame : Bool) (w : CmdWord) (i : Instr) (rest : List Byte) :
    decode inFrame (.cmd w) = .ok (i, rest) ↔ decodeCmd w = .ok i ∧ rest = [] := by
  cases hd : decodeCmd w <;> simp [decode, hd, eq_comm]

theorem decode_wire_eq_ok_iff (inFrame : Bool) (bs : List Byte) (i : Instr) (rest : List Byte) :
    decode inFrame (.wire bs) = .ok (i, rest) ↔ decodeWire inFrame bs = some (i, rest) := by
  cases hd : decodeWire inFrame bs <;> simp [decode, hd]

/-- Settles O1: a code is a command word or serial bytes, and each decoder undoes the encoder. -/
theorem encodedInstructionDecodesToItself : Obligations.EncodedInstructionDecodesToItself := by
  intro i hwf
  cases henc : encode i with
  | cmd w => exact (decode_cmd_eq_ok_iff ..).2 ⟨decodeCmd_of_encode henc, rfl⟩
  | wire bs => exact (decode_wire_eq_ok_iff ..).2 (decodeWire_of_encode hwf henc)

/-- Settles O2: the encoder undoes each decoder. -/
theorem decodedBitsAreTheEncoding : Obligations.DecodedBitsAreTheEncoding := by
  refine fun inFrame i rest => ⟨fun w h => ?command, fun bs h => ?serial⟩
  case command =>
    obtain ⟨hcmd, hrest⟩ := (decode_cmd_eq_ok_iff ..).1 h
    have henc := encode_of_decodeCmd hcmd
    exact ⟨wellFormed_of_encode_cmd henc, hrest, henc⟩
  case serial => exact encode_of_decodeWire ((decode_wire_eq_ok_iff ..).1 h)

/-- Settles O3: closed words, which the decoder evaluates. -/
theorem wordsOfTheSpecDecode : Obligations.WordsOfTheSpecDecode := by
  unfold Obligations.WordsOfTheSpecDecode
  decide

end Sys2Proof
end

section
/-! What a step makes of a word placed by the host, and of a reserved word (30_encoding.md R94, R107, R110). -/

namespace Sys2Proof.Machine

/-! ## Placed words -/

/-- R94: the code of an escape pair is `ESC` and its operand. -/
theorem encode_of_isPair {i : Instr} (h : Claims.IsPair i) : ∃ e, encode i = .wire [Config.esc, e] := by
  rcases h with h | ⟨e, rfl⟩
  · simp only [List.mem_cons, List.not_mem_nil, or_false] at h
    rcases h with rfl | rfl | rfl | rfl | rfl <;> exact ⟨_, rfl⟩
  · exact ⟨e, rfl⟩

theorem isPair_classifyPair (e : Byte) : Claims.IsPair (classifyPair e) := by
  unfold classifyPair
  split_ifs
  case neg => exact .inr ⟨e, rfl⟩
  all_goals exact .inl (by decide)

theorem not_isPair_classifyByte (b : Byte) : ¬ Claims.IsPair (classifyByte b) := by
  intro h
  obtain ⟨e, he⟩ := encode_of_isPair h
  rw [(encode_classifyByte b).1] at he
  cases he

theorem not_isPair_of_decodeCmd {w : CmdWord} {i : Instr} (hd : decodeCmd w = .ok i) : ¬ Claims.IsPair i := by
  intro h
  obtain ⟨e, he⟩ := encode_of_isPair h
  rw [encode_of_decodeCmd hd] at he
  cases he

theorem step_placeCode_cmd (s : State) {w : CmdWord} {i : Instr} (hd : decodeCmd w = .ok i) :
    step (s.placeCode (.cmd w)) = exec i s :=
  step_of_fetch_instr (fetch_of_decodeCmd rfl hd)

theorem step_placeCode_byte (s : State) (b : Byte) : step (s.placeCode (.wire [b])) = exec (classifyByte b) s :=
  step_of_fetch_instr (fetch_of_decodeWire (q := s.inputs) (rest := []) rfl rfl)

theorem step_placeCode_pair (s : State) (e : Byte) :
    step (s.placeCode (.wire [Config.esc, e])) = exec (classifyPair e) { s with rx := { s.rx with state := .frame } } :=
  step_of_fetch_instr (fetch_of_decodeWire (q := s.inputs) (rest := []) rfl rfl)

/-- What a table word decodes to is one byte's instruction, an escape pair, or a command. -/
theorem decodeTableWord_cases {nbits w : Nat} {i : Instr} (h : decodeTableWord nbits w = some i) :
    (∃ b, tableCode nbits w = .wire [b] ∧ i = classifyByte b) ∨
    (∃ e, tableCode nbits w = .wire [Config.esc, e] ∧ i = classifyPair e) ∨
    ∃ c, tableCode nbits w = .cmd c ∧ decodeCmd c = .ok i := by
  have hdec : decode true (tableCode nbits w) = .ok (i, []) := by
    unfold decodeTableWord at h
    split at h
    next hok => rw [hok, Option.some.inj h]
    next => cases h
  unfold tableCode at *
  split_ifs at hdec ⊢
  · exact .inl ⟨_, rfl, congrArg Prod.fst (Except.ok.inj hdec).symm⟩
  · exact .inr (.inl ⟨_, rfl, congrArg Prod.fst (Except.ok.inj hdec).symm⟩)
  · exact .inr (.inr ⟨_, rfl, ((decode_cmd_eq_ok_iff ..).1 hdec).1⟩)

/-- Settles O5: of the three kinds of table word only a pair needs state `FRAME`. -/
theorem placedWordIsWhatTheNextStepRuns : Obligations.PlacedWordIsWhatTheNextStepRuns := by
  intro s nbits w i h
  unfold State.withFetchWord
  rcases decodeTableWord_cases h with ⟨b, hcode, rfl⟩ | ⟨e, hcode, rfl⟩ | ⟨c, hcode, hd⟩ <;> rw [hcode]
  · exact ⟨fun _ => step_placeCode_byte s b, fun hp => absurd hp (not_isPair_classifyByte b)⟩
  · exact ⟨fun hp => absurd (isPair_classifyPair e) hp, fun _ => step_placeCode_pair s e⟩
  · exact ⟨fun _ => step_placeCode_cmd s hd, fun hp => absurd hp (not_isPair_of_decodeCmd hd)⟩

/-! ## Reserved words -/

theorem fetch_of_decodeCmd_error {s : State} {w : CmdWord} {p : Ports} {q : List Input} {e : DecodeError}
    (hq : s.inputs = .cmd w p :: q) (hd : decodeCmd w = .error e) :
    fetch s = .illegal e { s with inputs := q, ports := p } := by
  simp only [fetch, hq, decode, hd, State.setInputs, State.setPorts]

/-- The part of R110 that the decoder leaves to the operations: an operand in `arg` out of range, or a unit that is
not there. -/
def ReservedOperand (p : Config.Params) : Instr → Prop
  | .bcRd n | .bcRds n | .bcWr n => n.toNat = 0 ∨ 32 < n.toNat
  | .bcLoadraw => p.hasRawMode = false
  | .tdDec | .tdEnc _ | .tdRst => p.hasTd = false
  | .atBuild k | .atVerify k | .atRst k => p.nAuth ≤ k.toNat
  | _ => False

theorem instanceLegal_false {p : Config.Params} {k : Byte} (h : p.nAuth ≤ k.toNat) : instanceLegal p k = false := by
  simpa [instanceLegal] using h

/-- Such an operation is refused before it does anything. -/
theorem exec_of_reservedOperand {s : State} {i : Instr} (h : ReservedOperand s.cfg i) : exec i s = s.refuse := by
  cases i
  case bcRd n | bcRds n | bcWr n => simp [exec, execBcRd, execBcRds, execBcWr, (widthLegal_false_iff n).2 h]
  case bcLoadraw => simp [exec, execBcLoadraw, show s.cfg.hasRawMode = false from h]
  case tdDec | tdEnc | tdRst => simp [exec, execTdDec, execTdEnc, execTdRst, show s.cfg.hasTd = false from h]
  case atBuild k | atVerify k | atRst k => simp [exec, execAtBuild, execAtVerify, execAtRst, instanceLegal_false h]
  all_goals exact h.elim

/-- R110 on the two fields of a command word. -/
def ReservedFields (p : Config.Params) (opc arg : Nat) : Prop :=
  opc ∉ [0x10, 0x11, 0x12, 0x13, 0x14, 0x15, 0x16, 0x20, 0x21, 0x22, 0x30, 0x31, 0x32, 0x40, 0x50, 0x51, 0x52, 0x60,
    0x61, 0x62, 0xFF] ∨
  (opc ∈ [0x10, 0x11, 0x14, 0x16, 0x20, 0x22, 0x31, 0x32, 0x40, 0x50, 0x52, 0xFF] ∧ arg ≠ 0) ∨
  (opc ∈ [0x12, 0x13, 0x15] ∧ (arg = 0 ∨ 32 < arg)) ∨
  (opc = 0x51 ∧ 1 < arg) ∨
  (opc ∈ [0x60, 0x61, 0x62] ∧ p.nAuth ≤ arg) ∨
  (opc ∈ [0x50, 0x51, 0x52] ∧ p.hasTd = false) ∨
  (opc = 0x11 ∧ p.hasRawMode = false)

/-- A reserved word that is an instruction's code has a reserved operand. -/
theorem reservedOperand_of_encode {p : Config.Params} {w : CmdWord} {i : Instr} (henc : encode i = .cmd w)
    (h : ReservedFields p (w.toNat / 256) (w.toNat % 256)) : ReservedOperand p i := by
  rw [← cmdOpc_toNat, ← cmdArg_toNat] at h
  cases i <;> cases henc <;> rw [cmdOpc_cmdWord, cmdArg_cmdWord] at h
  case bcRd n | bcRds n | bcWr n =>
    have hfits : n.toNat % 256 = n.toNat := Nat.mod_eq_of_lt (n.isLt.trans (by decide))
    simpa [ReservedFields, ReservedOperand, hfits] using h
  case tdEnc full => cases full <;> simpa [ReservedFields, ReservedOperand] using h
  case atBuild k | atVerify k | atRst k => simpa [ReservedFields, ReservedOperand] using h
  case bcLoadraw | tdDec | tdRst => simpa [ReservedFields, ReservedOperand] using h
  all_goals simp [ReservedFields] at h

/-- Settles O6: a reserved word is no instruction's code, or its operation refuses the operand. -/
theorem reservedWordsAreRefused : Obligations.ReservedWordsAreRefused := by
  intro s w p q hq hres
  cases hd : decodeCmd w with
  | error e => simp only [step, fetch_of_decodeCmd_error hq hd, State.refuse_eq]
  | ok i =>
    have hop : ReservedOperand s.cfg i := reservedOperand_of_encode (encode_of_decodeCmd hd) hres
    rw [step_of_fetch_instr (fetch_of_decodeCmd hq hd),
      exec_of_reservedOperand (s := { s with inputs := q, ports := p }) hop, State.refuse_eq]

end Sys2Proof.Machine
end

section
/-! Signed fields and the checksum operations (30_encoding.md R106, R113; 40_bitcodec.md R134; 41_crc16.md
R162, R163). -/

namespace Sys2Proof.Machine

/-- R134: the top bit of a field is its last bit in the stream, so a signed field is the sign extension of the field. -/
theorem valueAt_signed (buf : List Byte) {width : Nat} (hw : 1 ≤ width) (k : Nat) :
    Claims.valueAt buf width true k = sext width (fieldValue buf k width) := by
  have htop : (fieldValue buf k width).testBit (width - 1) = streamBit buf (k + width - 1) := by
    rw [fieldValue, bitSum_testBit, decide_eq_true (by omega), Bool.true_and, Nat.add_sub_assoc hw]
  simp only [Claims.valueAt, sext, htop, true_and]

/-- Settles O17: the packed read of the field, extended, and the range of a sign extension. -/
theorem signedReadExtendsTheTopBit : Obligations.SignedReadExtendsTheTopBit := by
  intro s n hmode h1 h32
  rw [valueAt_signed s.rc.buf h1]
  exact ⟨exec_bcRds_packed hmode ((widthLegal_iff n).2 ⟨h1, h32⟩), sext_range h1 (bitSum_lt _ _)⟩

/-- R161: one `CRC.UPD` per byte folds the bytes into the accumulator. -/
theorem observe_crcUpd (bytes : List Byte) {s : State} (hports : s.ports = Ports.empty) (hres : s.res = .ok) :
    observe (bytes.map fun b => Op.plain (.crcUpd b)) s =
      (List.replicate bytes.length .ok, { s with crcAcc := bytes.foldl crcStep s.crcAcc }) := by
  induction bytes generalizing s with
  | nil => rfl
  | cons b bs ih =>
    have hissue : s.issue (.plain (.crcUpd b)) = .next { s with crcAcc := crcStep s.crcAcc b } := by
      obtain ⟨rx, crcAcc, rc, wc, win, td, cfg, inputs, ports, res⟩ := s
      cases hports; cases hres; rfl
    rw [List.map_cons, observe_cons hissue, ih (s := { s with crcAcc := crcStep s.crcAcc b }) hports hres]
    simp only [hres, List.length_cons, List.replicate_succ, List.foldl_cons]

/-- Settles O24: between `CRC.INIT` and `CRC.GET` the accumulator takes every byte. -/
theorem crcOperationsComputeTheFunction : Obligations.CrcOperationsComputeTheFunction := by
  refine ⟨fun _ => rfl, fun bytes s => ?_⟩
  have hinit : s.issue (.plain .crcInit) =
      .next { s with crcAcc := Config.crcSeed, ports := Ports.empty, res := .ok } := rfl
  rw [crcOps, observe_append, observe_append, observe_cons hinit, observe_nil, observe_crcUpd bytes rfl rfl,
    List.replicate_succ]
  rfl

end Sys2Proof.Machine
end

section
/-! Escape pairs on the receiving side and frames on the sending side (30_encoding.md R94, R95; 42_frame_rx.md R172,
R178, R182; 43_frame_tx.md R201 to R205). -/

namespace Sys2Proof.Machine

open Sys2Proof.Config (Params)

/-! ## Escape pairs -/

/-- Every pair runs as `ESC` and its operand. -/
theorem exec_of_isPair {i : Instr} (h : Claims.IsPair i) : ∃ e, ∀ s, exec i s = wirePair e s := by
  rcases h with h | ⟨e, rfl⟩
  · simp only [List.mem_cons, List.not_mem_nil, or_false] at h
    rcases h with rfl | rfl | rfl | rfl | rfl <;> exact ⟨_, fun _ => rfl⟩
  · exact ⟨e, fun _ => rfl⟩

theorem exec_classifyPair (e : Byte) (s : State) : exec (classifyPair e) s = wirePair e s := by
  unfold classifyPair
  split_ifs
  case neg => rfl
  all_goals subst_vars; rfl

/-- R178, R182: inside a frame a pair is consumed silently and its decoded operand appended. -/
theorem feedLoop_pair {p : Params} {r : RxUnit} (hs : r.state = .frame) (e : Byte) :
    feedLoop p r [Config.esc, e] 0 [] = (r.append p (escDecode p e), .rxFeed .none 2 [] []) := by
  have hback : ((r.goto .frameEsc).append p (escDecode p e)).goto .frame = r.append p (escDecode p e) := by
    obtain ⟨state, fbuf, ovf⟩ := r
    cases hs
    cases hroom : withinCap p.frameMax (fbuf.length + 1) <;> simp [RxUnit.append, RxUnit.goto, hroom]
  simp only [feedLoop, rxByteStep_esc hs, rxByteStep_operand (r := r.goto .frameEsc) rfl, hback]
  rfl

theorem wirePair_frame {s : State} (hs : s.rx.state = .frame) (e : Byte) :
    wirePair e s =
      .next { s with rx := s.rx.append s.cfg (escDecode s.cfg e), res := .rxFeed .none 2 [] [] } := by
  simp only [wirePair, feedLoop_pair hs, State.answer_eq, State.setRx]

theorem wirePair_room {s : State} (hs : s.rx.state = .frame)
    (hroom : ∀ m, s.cfg.frameMax = some m → s.rx.fbuf.length < m) {e x : Byte} (hx : escDecode s.cfg e = x) :
    wirePair e s =
      .next { s with rx := { s.rx with fbuf := s.rx.fbuf ++ [x] }, res := .rxFeed .none 2 [] [] } := by
  rw [wirePair_frame hs, RxUnit.append_room hroom, hx]

/-- Settles O31: the pair's decoded operand is appended, or lost for want of room. -/
theorem pairsStandForTheirLiteralByte : Obligations.PairsStandForTheirLiteralByte := by
  refine fun s hs => ⟨fun hroom => ⟨fun hesc => ?canonical, fun e => ?other⟩, fun m hm hfull i hi => ?full⟩
  case canonical =>
    have hpair : ∀ v, v < 5 → wirePair (BitVec.ofNat 8 (v + 64)) s =
        .next { s with rx := { s.rx with fbuf := s.rx.fbuf ++ [BitVec.ofNat 8 v] }, res := .rxFeed .none 2 [] [] } :=
      fun v hv => wirePair_room hs hroom (escDecode_canonical hesc hv)
    simp only [List.forall_mem_cons, List.not_mem_nil, false_imp_iff, implies_true, and_true]
    exact ⟨hpair 0 (by decide), hpair 1 (by decide), hpair 2 (by decide), hpair 3 (by decide), hpair 4 (by decide)⟩
  case other => exact ⟨escDecode s.cfg e, fun hdef => escDecode_default hdef e, wirePair_room hs hroom rfl⟩
  case full =>
    obtain ⟨e, he⟩ := exec_of_isPair hi
    rw [he, wirePair_frame hs, RxUnit.append_full hm hfull]

/-! ## A pair against its two bytes -/

/-- `ESC` never ends a frame. -/
theorem rxByteStep_esc_event (p : Params) (r : RxUnit) : (rxByteStep p r Config.esc).2.2 = none := by
  cases hs : r.state <;> simp [rxByteStep, rxTable, hs, wireClass_esc]

/-- R182: a byte without an event is followed by the rest. -/
theorem feedLoop_cons {p : Params} {r : RxUnit} {b : Byte} (h : (rxByteStep p r b).2.2 = none) (bs : List Byte)
    (k : Nat) (pts : List Byte) :
    feedLoop p r (b :: bs) k pts =
      feedLoop p (rxByteStep p r b).1 bs (k + 1) (pts ++ (rxByteStep p r b).2.1.toList) := by
  simp only [feedLoop, h]

/-- The last byte leaves its unit and adds its outputs. -/
theorem feedLoop_singleton (p : Params) (r : RxUnit) (b : Byte) (k : Nat) (pts : List Byte) :
    (feedLoop p r [b] k pts).1 = (rxByteStep p r b).1 ∧
    (feedLoop p r [b] k pts).2.rxOutputs = pts.map .passthrough ++ rxOutputsOf (rxByteStep p r b) := by
  rcases hev : (rxByteStep p r b).2.2 with _ | ⟨_ | _⟩ <;> simp [feedLoop, rxOutputsOf, hev, Result.rxOutputs]

/-- Fed together, the pair leaves the unit and gives the outputs that its bytes do one after the other. -/
theorem feedLoop_pair_spec (p : Params) (r : RxUnit) (e : Byte) :
    (feedLoop p r [Config.esc, e] 0 []).1 = (rxByteStep p (rxByteStep p r Config.esc).1 e).1 ∧
    (feedLoop p r [Config.esc, e] 0 []).2.rxOutputs =
      rxOutputsOf (rxByteStep p r Config.esc) ++ rxOutputsOf (rxByteStep p (rxByteStep p r Config.esc).1 e) := by
  have hesc := rxByteStep_esc_event p r
  have hfirst : rxOutputsOf (rxByteStep p r Config.esc) = (rxByteStep p r Config.esc).2.1.toList.map .passthrough := by
    simp [rxOutputsOf, hesc]
  rw [feedLoop_cons hesc, hfirst]
  exact feedLoop_singleton ..

theorem exec_rxByte (b : Byte) (s : State) :
    exec (.rxByte b) s = .next ((s.setRx (rxByteStep s.cfg s.rx b).1).setRes
      (.rxByte (rxByteStep s.cfg s.rx b).2.1 (rxByteStep s.cfg s.rx b).2.2)) := rfl

/-- Settles O32: in no state does the `ESC` end the feed, so that both bytes are taken. -/
theorem pairIsItsTwoBytes : Obligations.PairIsItsTwoBytes := by
  intro s e
  obtain ⟨hunit, hout⟩ := feedLoop_pair_spec s.cfg s.rx e
  refine ⟨_, _, _, exec_classifyPair e s, exec_rxByte 0x04#8 s, exec_rxByte e _, ?state, hout⟩
  case state => rw [hunit]; rfl

/-! ## `TX.FRAME` -/

/-- R202: `unescape` undoes `escape`, byte by byte. -/
theorem unescape_escape {p : Params} (hp : escDecodeOk p = true) (bytes : List Byte) :
    unescape p (escape bytes) = bytes := by
  induction bytes with
  | nil => rfl
  | cons b bs ih =>
    rw [escape_cons]
    rcases escapeByte_cases b with ⟨hlow, he, -⟩ | ⟨hhigh, he⟩ <;> rw [he]
    · show unescape p (Config.esc :: (b + Config.escOffset) :: escape bs) = _
      rw [unescape_esc, escDecode_escaped hp hlow, ih]
    · have hne : b ≠ Config.esc := by rintro rfl; exact absurd hhigh (by decide)
      rw [List.singleton_append, unescape_plain p hne, ih]

/-- R96: the four checksum bytes hold the 16 bits of the checksum in two storage words. -/
theorem cksOf_getD (content : List Byte) :
    (cksOf content).getD 3 0xFF#8 = 0x00#8 ∧ ((cksOf content).getD 2 0#8).toNat < 2 ∧
    ((cksOf content).getD 1 0#8).toNat < 128 ∧
    ((cksOf content).getD 0 0#8).toNat + 256 * ((cksOf content).getD 1 0#8).toNat +
      32768 * ((cksOf content).getD 2 0#8).toNat = (crc16 content).toNat := by
  have hlt := (crc16 content).isLt
  have hn := cksOf_toNat content
  obtain ⟨a0, a1, b0, hc⟩ : ∃ a0 a1 b0, cksOf content = [a0, a1, b0, 0x00#8] := ⟨_, _, _, rfl⟩
  rw [hc] at hn ⊢
  simp only [List.map_cons, List.map_nil, List.cons.injEq, and_true] at hn
  obtain ⟨h0, h1, h2, -⟩ := hn
  simp only [List.getD_cons_zero, List.getD_cons_succ, h0, h1, h2, true_and]
  omega

/-- Settles O37: the body is the escaped payload with its checksum bytes. -/
theorem frameHasTheWireShape : Obligations.FrameHasTheWireShape := by
  intro s heven hesc
  have hexec : exec .txFrame s = .next { s with res := .bytes (frameBytes s.ports.payload) } := by
    simp [exec, execTxFrame, heven]
  exact ⟨escape (s.ports.payload ++ cksOf s.ports.payload), cksOf s.ports.payload, hexec, escape_no_marker _,
    unescape_escape hesc _, escape_length _, rfl, cksOf_getD _⟩

end Sys2Proof.Machine
end

section
/-! `TD.ENC` as the run of `BC.WR` that R101 describes (44_telemetry_delta.md R223). -/

namespace Sys2Proof.Machine

open Sys2Proof.Config (Params Field)

/-! ## The statements' vocabulary is the model's -/

theorem fieldInRange_iff (f : Field) (x : Int) : fieldInRange f x = true ↔ Claims.InRange f.width f.signed x := by
  cases hs : f.signed <;> simp [fieldInRange, Claims.InRange, hs]

theorem snapshotLegal_iff_isSnapshot (schema : List Field) (x : Snapshot) :
    snapshotLegal schema x = true ↔ Claims.IsSnapshot schema x := by
  simp only [snapshotLegal_iff, Claims.IsSnapshot, fieldInRange_iff]

/-- R101, full: every field in schema order. -/
theorem fullFields_eq (schema : List Field) (x : Snapshot) :
    fullFields schema x = (schema.zip x).map fun fx => (fx.1.width, fx.2) := by
  induction schema generalizing x with
  | nil => rfl
  | cons f fs ih =>
    cases x with
    | nil => rfl
    | cons v x => simp [fullFields, ih]

/-- R101, incremental: a presence bit for every field, and the value of a field that changed. -/
theorem deltaFields_eq (schema : List Field) {x prev : Snapshot} (hlen : x.length = prev.length) :
    deltaFields schema x prev = (schema.zip (x.zip prev)).flatMap fun fxp =>
      if fxp.2.1 = fxp.2.2 then [(1, 0)] else [(1, 1), (fxp.1.width, fxp.2.1)] := by
  induction schema generalizing x prev with
  | nil => rfl
  | cons f fs ih =>
    match x, prev, hlen with
    | [], [], _ => rfl
    | v :: x, v' :: prev, hlen =>
      have hlen' : x.length = prev.length := by simpa using hlen
      simp [deltaFields, ih hlen', ite_not]

/-- Both snapshots have one value for each field, so the statement's payload is the model's. -/
theorem payloadOf_eq {s : State} {x : Snapshot} (full : Bool) (hx : snapshotLegal s.cfg.schema x = true)
    (hprev : snapshotLegal s.cfg.schema s.td.txPrev = true) :
    Claims.payloadOf full s x = payloadFields full s.cfg.schema x s.td.txPrev s.td.txSeq := by
  have hlen : x.length = s.td.txPrev.length :=
    ((snapshotLegal_iff ..).1 hx).1.trans ((snapshotLegal_iff ..).1 hprev).1.symm
  simp only [Claims.payloadOf, payloadFields, fullFields_eq, deltaFields_eq _ hlen]

/-! ## Writing fields by `BC.WR` -/

/-- The width is one that `BC.WR` takes. -/
def WritableWidth (f : Nat × Int) : Prop := 1 ≤ f.1 ∧ f.1 ≤ 32

theorem fullFields_writable {schema : List Field} (hs : schemaOk schema = true) (x : Snapshot) :
    ∀ f ∈ fullFields schema x, WritableWidth f := by
  induction schema generalizing x with
  | nil => simp [fullFields]
  | cons g gs ih =>
    obtain ⟨h1, h32, hgs⟩ := schemaOk_cons hs
    cases x with
    | nil => simp [fullFields]
    | cons v x => exact List.forall_mem_cons.2 ⟨⟨h1, h32⟩, ih hgs x⟩

theorem deltaFields_writable {schema : List Field} (hs : schemaOk schema = true) (x prev : Snapshot) :
    ∀ f ∈ deltaFields schema x prev, WritableWidth f := by
  induction schema generalizing x prev with
  | nil => simp [deltaFields]
  | cons g gs ih =>
    obtain ⟨h1, h32, hgs⟩ := schemaOk_cons hs
    cases x with
    | nil => simp [deltaFields]
    | cons v x =>
      refine List.forall_mem_append.2 ⟨?_, ih hgs x prev.tail⟩
      split <;> simp [WritableWidth, h1, h32]

theorem payloadFields_writable {schema : List Field} (hs : schemaOk schema = true) (full : Bool) (x prev : Snapshot)
    (seq : BitVec 4) : ∀ f ∈ payloadFields full schema x prev seq, WritableWidth f := by
  have hbits : ∀ v : Int, WritableWidth (1, v) ∧ WritableWidth (4, v) := fun _ => by simp [WritableWidth]
  cases full with
  | true => exact List.forall_mem_cons.2 ⟨(hbits 1).1, fullFields_writable hs x⟩
  | false =>
    have hrest := List.forall_mem_cons.2 ⟨(hbits seq.toNat).2, deltaFields_writable hs x prev⟩
    exact List.forall_mem_cons.2 ⟨(hbits 0).1, hrest⟩

/-- `BC.WR` of a field that fits. -/
theorem issue_writeOp {s : State} {f : Nat × Int} (hf : WritableWidth f) (hroom : s.wc.roomFor s.cfg f.1 = true) :
    s.issue (writeOp (BitVec.ofNat 6 f.1) f.2) =
      .next { s with wc := s.wc.write f.1 f.2, ports := { Ports.empty with value := f.2 }, res := .ok } := by
  obtain ⟨h1, h32⟩ := hf
  have hn : (BitVec.ofNat 6 f.1).toNat = f.1 := by
    rw [BitVec.toNat_ofNat]
    exact Nat.mod_eq_of_lt (by omega)
  have hwr := exec_bcWr (s := s.setPorts { Ports.empty with value := f.2 }) (n := BitVec.ofNat 6 f.1)
    ((widthLegal_iff _).2 (by rw [hn]; exact ⟨h1, h32⟩)) (by rw [hn]; exact hroom)
  rw [hn] at hwr
  exact hwr

/-- One `BC.WR` for each field writes them all, if together they fit. -/
theorem observe_writeOps {fields : List (Nat × Int)} (hf : ∀ f ∈ fields, WritableWidth f) {s : State}
    (hclean : s.wc.clean) (hroom : s.wc.roomFor s.cfg (bitsOf fields) = true) :
    (observe (fields.map fun f => writeOp (BitVec.ofNat 6 f.1) f.2) s).2.wc = s.wc.writeAll fields := by
  induction fields generalizing s with
  | nil => rfl
  | cons f fs ih =>
    obtain ⟨hhead, htail⟩ := List.forall_mem_cons.1 hf
    obtain ⟨hclean', hpos, -⟩ := s.wc.write_spec f.1 f.2 hclean
    have hbits : bitsOf (f :: fs) = f.1 + bitsOf fs := rfl
    rw [WriteCursor.roomFor_iff, hbits] at hroom
    have hfirst : s.wc.roomFor s.cfg f.1 = true :=
      (WriteCursor.roomFor_iff ..).2 fun m hm => by have := hroom m hm; omega
    have hrest : (s.wc.write f.1 f.2).roomFor s.cfg (bitsOf fs) = true :=
      (WriteCursor.roomFor_iff ..).2 fun m hm => by have := hroom m hm; omega
    rw [List.map_cons, observe_cons (issue_writeOp hhead hfirst)]
    exact ih htail hclean' hrest

/-! ## `TD.ENC` -/

/-- R223: a legal snapshot whose payload fits is written. -/
theorem exec_tdEnc {s : State} {full : Bool} (htd : s.cfg.hasTd = true)
    (hx : snapshotLegal s.cfg.schema s.ports.snapshot = true) {fields : List (Nat × Int)}
    (hfields : payloadFields full s.cfg.schema s.ports.snapshot s.td.txPrev s.td.txSeq = fields)
    (hroom : s.wc.roomFor s.cfg (bitsOf fields) = true) :
    exec (.tdEnc full) s = .next
      { s with wc := s.wc.writeAll fields
               td := { s.td with txSeq := if full then 0#4 else s.td.txSeq + 1#4, txPrev := s.ports.snapshot }
               res := .ok } := by
  subst hfields
  simp [exec, execTdEnc, htd, hx, hroom, State.setWc, State.setTd]

/-- The number the next incremental payload carries (R223). -/
theorem nextTxSeq_toNat (full : Bool) (seq : BitVec 4) :
    (if full then 0#4 else seq + 1#4).toNat = if full then 0 else (seq.toNat + 1) % 16 := by
  cases full
  · exact BitVec.toNat_add ..
  · rfl

/-- Settles O44: a `TD.ENC` that is not refused writes its fields, and so does `BC.WR` of each, for which there is room
because there is room for all. -/
theorem encodeWritesThePayload : Obligations.EncodeWritesThePayload := by
  intro s full hwf hok
  obtain ⟨hp, -, -, hwc, -, -, hprev, -⟩ := hwf
  have hschema : schemaOk s.cfg.schema = true := (Bool.and_eq_true_iff.1 hp).2
  have hclean : s.wc.clean := ((WriteCursor.wf_iff ..).1 hwc).1
  simp only [Claims.Refused, not_or, Bool.not_eq_false, not_not, ← snapshotLegal_iff_isSnapshot] at hok
  obtain ⟨htd, hx, hfits⟩ := hok
  have hpayload := payloadOf_eq full hx hprev
  have hroom : s.wc.roomFor s.cfg (bitsOf (Claims.payloadOf full s s.ports.snapshot)) = true :=
    (roomFor_iff_not_exceedsWbuf ..).2 hfits
  have hwritable : ∀ f ∈ Claims.payloadOf full s s.ports.snapshot, WritableWidth f := by
    rw [hpayload]
    exact payloadFields_writable hschema full _ _ _
  refine ⟨_, nextTxSeq_toNat full s.td.txSeq, ?_⟩
  rw [exec_tdEnc htd hx hpayload.symm hroom, observe_writeOps hwritable hclean hroom]

end Sys2Proof.Machine
end

section
/-! Timestamps and built packets (30_encoding.md R102, R103; 45_auth_transport.md R241, R242). -/

namespace Sys2Proof.Machine

/-! ## Big-endian numbers -/

/-- R103: byte `k` is the number shifted down by the seven minus `k` bytes after it. -/
theorem be64_getD (x : Nat) {k : Nat} (hk : k < 8) : (be64 x).getD k 0#8 = BitVec.ofNat 8 (x >>> (8 * (7 - k))) := by
  interval_cases k <;> rfl

theorem be64_getD_toNat (x : Nat) {k : Nat} (hk : k < 8) :
    ((be64 x).getD k 0#8).toNat = x / 256 ^ (7 - k) % 256 := by
  rw [be64_getD x hk, BitVec.toNat_ofNat, Nat.shiftRight_eq_div_pow, Nat.pow_mul]

/-- R103: the weighted sum of eight bytes. -/
theorem fromBe64_eq_sum {b : List Byte} (h : b.length = 8) :
    fromBe64 b = ((List.range 8).map fun k => (b.getD k 0#8).toNat * 256 ^ (7 - k)).sum := by
  match b, h with
  | [b0, b1, b2, b3, b4, b5, b6, b7], _ =>
    simp only [fromBe64, List.foldl_cons, List.foldl_nil, List.range_succ, List.range_zero, List.nil_append,
      List.map_append, List.map_cons, List.map_nil, List.sum_append, List.sum_cons, List.sum_nil,
      List.getD_cons_zero, List.getD_cons_succ]
    ring

/-- Settles O48: bytes from numbers, numbers from bytes, and that each undoes the other. -/
theorem bigEndianRoundTrip : Obligations.BigEndianRoundTrip := by
  refine ⟨fun x hx => ⟨be64_length x, fromBe64_be64 hx, fun k hk => be64_getD_toNat x hk⟩, fun b hb => ?_⟩
  exact ⟨be64_fromBe64 b hb, fromBe64_eq_sum hb⟩

/-! ## `AT.BUILD` -/

theorem packetOf_drop_header (key payload : List Byte) (nowMs : Nat) :
    (packetOf key payload nowMs).drop 40 = payload := by
  rw [show (40 : Nat) = 32 + 8 from rfl, ← List.drop_drop, packetOf_drop]
  exact List.drop_left' (be64_length nowMs)

theorem stampNat_packetOf (key payload : List Byte) {nowMs : Nat} (h : nowMs < 2 ^ 64) :
    Claims.stampNat (packetOf key payload nowMs) = nowMs := by
  rw [Claims.stampNat, packetOf_drop, List.take_left' (be64_length nowMs), fromBe64_be64 h]

/-- R242: an operand that is legal in every respect is built into a packet. -/
theorem exec_atBuild {s : State} {i : Byte} (hok : ¬ Claims.Refused (.atBuild i) s) :
    s.ports.nowMs < 2 ^ 64 ∧
    exec (.atBuild i) s =
      .next { s with res := .bytes (packetOf s.ports.key s.ports.payload s.ports.nowMs) } := by
  simp only [Claims.Refused, Claims.ExceedsPkt, not_or, not_le, ← withinCap_false_iff, Bool.not_eq_false] at hok
  obtain ⟨hi, hnow, hcap⟩ := hok
  have hinst := (instanceLegal_iff s.cfg i).2 hi
  have htime : decide (2 ^ 64 ≤ s.ports.nowMs) = false := decide_eq_false (Nat.not_le.2 hnow)
  have hlen : withinCap s.cfg.pktMax (Config.minPacket + s.ports.payload.length) = true := hcap
  refine ⟨hnow, ?_⟩
  simp only [exec, execAtBuild, hinst, htime, hlen, Bool.not_true, Bool.or_self, Bool.false_eq_true, if_false,
    State.answer_eq]

/-- Settles O49: the four facts are about the packet alone. -/
theorem buildMakesASignedPacket : Obligations.BuildMakesASignedPacket := by
  intro s i hok
  obtain ⟨hnow, hexec⟩ := exec_atBuild hok
  exact ⟨_, hexec, packetOf_length .., (signatureOk_iff ..).1 (signatureOk_packetOf ..), stampNat_packetOf _ _ hnow,
    packetOf_drop_header ..⟩

end Sys2Proof.Machine
end

section
/-! Unit BC's two ways to start reading, and reads in mode `RAW` (40_bitcodec.md R131, R132, R135). -/

namespace Sys2Proof.Machine

/-! ## `BC.LOAD` -/

/-- Settles O14: the words of the example are computed from the loaded bytes. -/
theorem loadStartsAFreshRead : Obligations.LoadStartsAFreshRead := by
  refine ⟨rfl, fun _ => rfl, fun s hbytes => ⟨_, rfl, ?_⟩⟩
  show (List.range 3).map (readWord s.ports.bytes) = _
  rw [hbytes]
  decide

/-! ## Reads in mode `RAW` -/

section
variable {s : State} {n : BitVec 6}

theorem exec_bcLoadraw (hraw : s.cfg.hasRawMode = true) :
    exec .bcLoadraw s = .next
      { s with rc := { s.rc with raw := s.ports.list, idx := 0, mode := .raw }, res := .ok } := by
  simp [exec, execBcLoadraw, hraw, State.setRc]

/-- R135: of a legal width the next list element is taken modulo `2^n`. -/
theorem exec_bcRd_raw (hmode : s.rc.mode = .raw) (hn : widthLegal n = true) :
    exec (.bcRd n) s = .next { s with rc := { s.rc with idx := s.rc.idx + 1 }
                                      res := .unsigned (trunc n.toNat (s.rc.raw.getD s.rc.idx 0)) } := by
  simp [exec, execBcRd, hn, ReadCursor.read_raw hmode, State.setRc]

/-- R135: the signed read takes the same pattern in two's complement. -/
theorem exec_bcRds_raw (hmode : s.rc.mode = .raw) (hn : widthLegal n = true) :
    exec (.bcRds n) s = .next
      { s with rc := { s.rc with idx := s.rc.idx + 1 }
               res := .signed (sext n.toNat (trunc n.toNat (s.rc.raw.getD s.rc.idx 0))) } := by
  simp [exec, execBcRds, hn, ReadCursor.readSigned_raw hmode, State.setRc]

end

/-- Settles O15: both reads take the pattern `trunc` of the element; its sign extension looks at the upper half. -/
theorem rawReadsTakeListElements : Obligations.RawReadsTakeListElements := by
  refine ⟨fun _ hraw => exec_bcLoadraw hraw, fun s n hmode h1 h32 => ?_⟩
  have hn : widthLegal n = true := (widthLegal_iff n).2 ⟨h1, h32⟩
  refine ⟨_, trunc_cast .., exec_bcRd_raw hmode hn, ?_⟩
  rw [exec_bcRds_raw hmode hn, sext_eq h1 (trunc_lt ..)]

end Sys2Proof.Machine
end

section
/-! The mirror law (40_bitcodec.md R140): what a run of `BC.WR` lays down is what the run of reads takes from the loaded
image, field by field, and after it come only zeros. -/

namespace Sys2Proof.Machine

/-- A field as `BC.WR` writes it. -/
def writtenField (f : Claims.BitField) : Nat × Int := (f.n.toNat, f.x)

theorem bitsOf_writtenFields (fields : List Claims.BitField) :
    bitsOf (fields.map writtenField) = (fields.map fun f => f.n.toNat).sum := by
  rw [bitsOf, List.map_map]
  rfl

/-! ## The writes -/

/-- The claim's writes are those of the written fields. -/
theorem writeOps_writtenFields (fields : List Claims.BitField) :
    (fields.map fun f => writeOp f.n f.x) =
      (fields.map writtenField).map fun f => writeOp (BitVec.ofNat 6 f.1) f.2 := by
  simp [writtenField]

/-- There is room for the first field, and after it for the others. -/
theorem roomFor_cons {p : Config.Params} {wc : WriteCursor} {f : Nat × Int} {fs : List (Nat × Int)}
    (hclean : wc.clean) (hroom : wc.roomFor p (bitsOf (f :: fs)) = true) :
    wc.roomFor p f.1 = true ∧ (wc.write f.1 f.2).roomFor p (bitsOf fs) = true := by
  obtain ⟨-, hpos, -⟩ := wc.write_spec f.1 f.2 hclean
  have hbits : bitsOf (f :: fs) = f.1 + bitsOf fs := rfl
  simp only [WriteCursor.roomFor_iff, hbits, hpos] at hroom ⊢
  exact ⟨fun m hm => by have := hroom m hm; omega, fun m hm => by have := hroom m hm; omega⟩

/-- R137: each `BC.WR` of fields that together fit ends with `OK`. -/
theorem observe_writeOps_ok {fields : List (Nat × Int)} (hf : ∀ f ∈ fields, WritableWidth f) {s : State}
    (hclean : s.wc.clean) (hroom : s.wc.roomFor s.cfg (bitsOf fields) = true) :
    (observe (fields.map fun f => writeOp (BitVec.ofNat 6 f.1) f.2) s).1 = List.replicate fields.length .ok := by
  induction fields generalizing s with
  | nil => rfl
  | cons f fs ih =>
    obtain ⟨hhead, htail⟩ := List.forall_mem_cons.1 hf
    obtain ⟨hfirst, hrest⟩ := roomFor_cons hclean hroom
    obtain ⟨hclean', -, -⟩ := s.wc.write_spec f.1 f.2 hclean
    rw [List.map_cons, observe_cons (issue_writeOp hhead hfirst), ih htail hclean' hrest]
    rfl

/-- R136 to R138: from an empty buffer the fields are written and their image is taken. -/
theorem observe_writeAll_take {fields : List (Nat × Int)} (hf : ∀ f ∈ fields, WritableWidth f) {s : State}
    (hfits : ∀ m, s.cfg.wbufMax = some m → bitsOf fields ≤ 15 * m) :
    (observe ([Op.plain .bcWinit] ++ fields.map (fun f => writeOp (BitVec.ofNat 6 f.1) f.2) ++
        [Op.plain .bcWtake]) s).1 =
      List.replicate (fields.length + 1) .ok ++ [.bytes (WriteCursor.reset.writeAll fields).image] := by
  have hinit : s.issue (.plain .bcWinit) =
      .next { s with wc := .reset, ports := Ports.empty, res := .ok } := rfl
  have htake (t : State) : t.issue (.plain .bcWtake) =
      .next { t with ports := Ports.empty, res := .bytes t.wc.image } := rfl
  have hroom : WriteCursor.reset.roomFor s.cfg (bitsOf fields) = true := by
    simpa [WriteCursor.roomFor_iff, WriteCursor.bitPos, WriteCursor.reset] using hfits
  rw [observe_append, observe_append, observe_cons hinit, observe_nil, observe_cons (htake _), observe_nil,
    observe_writeOps_ok hf WriteCursor.clean_empty hroom, observe_writeOps hf WriteCursor.clean_empty hroom]
  rfl

/-! ## The reads -/

section
variable {s : State} {n : BitVec 6}

theorem issue_bcRd_packed (hmode : s.rc.mode = .packed) (hn : widthLegal n = true) :
    s.issue (.plain (.bcRd n)) =
      .next { s with rc := s.rc.seek (s.rc.bitPos + n.toNat), ports := Ports.empty
                     res := .unsigned (fieldValue s.rc.buf s.rc.bitPos n.toNat) } :=
  exec_bcRd_packed (s := s.setPorts Ports.empty) hmode hn

theorem issue_bcRds_packed (hmode : s.rc.mode = .packed) (hn : widthLegal n = true) :
    s.issue (.plain (.bcRds n)) =
      .next { s with rc := s.rc.seek (s.rc.bitPos + n.toNat), ports := Ports.empty
                     res := .signed (sext n.toNat (fieldValue s.rc.buf s.rc.bitPos n.toNat)) } :=
  exec_bcRds_packed (s := s.setPorts Ports.empty) hmode hn

end

/-- R131: `BC.LOAD` puts the cursor before the first bit of its bytes. -/
theorem issue_loadOp (p : List Byte) (s : State) :
    ∃ t, s.issue (loadOp p) = .next t ∧ t.res = .ok ∧ t.rc.mode = .packed ∧ t.rc.buf = p ∧ t.rc.bitPos = 0 :=
  ⟨_, rfl, rfl, rfl, rfl, rfl⟩

/-- R133, R134: a read whose bits are the pattern of the field's value returns the value. -/
theorem issue_readOp {s : State} {f : Claims.BitField} (hf : f.Ok) (hmode : s.rc.mode = .packed)
    (hbits : fieldValue s.rc.buf s.rc.bitPos f.n.toNat = trunc f.n.toNat f.x) :
    s.issue f.readOp =
      .next { s with rc := s.rc.seek (s.rc.bitPos + f.n.toNat), ports := Ports.empty, res := f.result } := by
  obtain ⟨h1, h32, hx⟩ := hf
  have hn : widthLegal f.n = true := (widthLegal_iff f.n).2 ⟨h1, h32⟩
  cases hs : f.signed
  case true =>
    obtain ⟨hlo, hhi⟩ : -(2 ^ (f.n.toNat - 1)) ≤ f.x ∧ f.x < 2 ^ (f.n.toNat - 1) := by
      simpa [Claims.InRange, hs] using hx
    have hop : f.readOp = .plain (.bcRds f.n) := by simp [Claims.BitField.readOp, hs]
    have hres : f.result = .signed f.x := by simp [Claims.BitField.result, hs]
    rw [hop, issue_bcRds_packed hmode hn, hbits, sext_trunc h1 hlo hhi, hres]
  case false =>
    obtain ⟨hlo, hhi⟩ : 0 ≤ f.x ∧ f.x < 2 ^ f.n.toNat := by simpa [Claims.InRange, hs] using hx
    have hval : trunc f.n.toNat f.x = f.x.toNat := by rw [trunc, Int.emod_eq_of_lt hlo hhi]
    have hop : f.readOp = .plain (.bcRd f.n) := by simp [Claims.BitField.readOp, hs]
    have hres : f.result = .unsigned f.x.toNat := by simp [Claims.BitField.result, hs]
    rw [hop, issue_bcRd_packed hmode hn, hbits, hval, hres]

/-- Reading fields that stand one after the other in a loaded image: their values, and the cursor past the last one. -/
theorem observe_readOps {wc : WriteCursor} {fields : List Claims.BitField} (hf : ∀ f ∈ fields, f.Ok) {s : State}
    (hmode : s.rc.mode = .packed) (hbuf : s.rc.buf = wc.image)
    (hholds : Holds wc.words s.rc.bitPos (fields.map writtenField)) :
    (observe (fields.map Claims.BitField.readOp) s).1 = fields.map Claims.BitField.result ∧
    (observe (fields.map Claims.BitField.readOp) s).2.rc =
      s.rc.seek (s.rc.bitPos + bitsOf (fields.map writtenField)) := by
  induction fields generalizing s with
  | nil => exact ⟨rfl, s.rc.seek_self.symm⟩
  | cons f fs ih =>
    obtain ⟨hhead, htail⟩ := List.forall_mem_cons.1 hf
    obtain ⟨hfirst, hrest⟩ := hholds
    have hbits : fieldValue s.rc.buf s.rc.bitPos f.n.toNat = trunc f.n.toNat f.x := by
      rw [hbuf, fieldValue_image]
      exact hfirst
    rw [← ReadCursor.seek_bitPos s.rc (s.rc.bitPos + _)] at hrest
    obtain ⟨hres, hrc⟩ := ih htail (s := { s with rc := s.rc.seek _, ports := Ports.empty, res := f.result })
      hmode hbuf hrest
    rw [List.map_cons, observe_cons (issue_readOp hhead hmode hbits)]
    refine ⟨congrArg (f.result :: ·) hres, hrc.trans ?_⟩
    simp [bitsOf, writtenField, Nat.add_assoc]

/-- Past the last written bit the image holds only zeros. -/
theorem fieldValue_image_past {wc : WriteCursor} (hclean : wc.clean) {k : Nat} (hk : wc.bitPos ≤ k) (n : Nat) :
    fieldValue wc.image k n = 0 :=
  bitSum_zero fun j _ => (streamBit_image wc.words (k + j)).trans (hclean.2 _ (by omega))

/-- R140: every read past the last written bit returns 0. -/
theorem observe_reads_past {wc : WriteCursor} (hclean : wc.clean) {more : List (BitVec 6)}
    (hmore : ∀ n ∈ more, 1 ≤ n.toNat ∧ n.toNat ≤ 32) {s : State} (hmode : s.rc.mode = .packed)
    (hbuf : s.rc.buf = wc.image) (hpast : wc.bitPos ≤ s.rc.bitPos) :
    (observe (more.map fun n => Op.plain (.bcRd n)) s).1 = more.map fun _ => Result.unsigned 0 := by
  induction more generalizing s with
  | nil => rfl
  | cons n ns ih =>
    obtain ⟨hhead, htail⟩ := List.forall_mem_cons.1 hmore
    have hissue := issue_bcRd_packed hmode ((widthLegal_iff n).2 hhead)
    rw [hbuf, fieldValue_image_past hclean hpast] at hissue
    have hpast' : wc.bitPos ≤ (s.rc.seek (s.rc.bitPos + n.toNat)).bitPos := by rw [ReadCursor.seek_bitPos]; omega
    rw [List.map_cons, observe_cons hissue]
    exact congrArg (Result.unsigned 0 :: ·) (ih htail hmode hbuf hpast')

/-- R140, the reading side: the image is loaded, its fields are read, and zeros after them. -/
theorem observe_load_reads {wc : WriteCursor} (hclean : wc.clean) {fields : List Claims.BitField}
    (hf : ∀ f ∈ fields, f.Ok) (hholds : Holds wc.words 0 (fields.map writtenField))
    (hpos : wc.bitPos = bitsOf (fields.map writtenField)) {more : List (BitVec 6)}
    (hmore : ∀ n ∈ more, 1 ≤ n.toNat ∧ n.toNat ≤ 32) (s : State) :
    (observe ([loadOp wc.image] ++ fields.map Claims.BitField.readOp ++ more.map (fun n => Op.plain (.bcRd n))) s).1 =
      [.ok] ++ fields.map Claims.BitField.result ++ more.map (fun _ => Result.unsigned 0) := by
  obtain ⟨t, hload, hok, hmode, hbuf, hstart⟩ := issue_loadOp wc.image s
  obtain ⟨hread, hrc⟩ := observe_readOps hf hmode hbuf (hstart ▸ hholds)
  have hpast := observe_reads_past hclean hmore (s := (observe (fields.map Claims.BitField.readOp) t).2)
    (by rw [hrc]; exact hmode) (by rw [hrc]; exact hbuf) (by rw [hrc, ReadCursor.seek_bitPos]; omega)
  rw [observe_append, observe_append, observe_cons hload, observe_nil, hread, hpast, hok]

/-- Settles O21: the written fields stand in the image one after the other from bit 0 on (`WriteCursor.writeAll_spec`),
where the reads find them. -/
theorem fieldsWrittenAreReadBack : Obligations.FieldsWrittenAreReadBack := by
  intro s fields more hok hmore hfits
  have hwritable : ∀ f ∈ fields.map writtenField, WritableWidth f := by
    intro g hg
    obtain ⟨f, hf, rfl⟩ := List.mem_map.1 hg
    obtain ⟨h1, h32, -⟩ := hok f hf
    exact ⟨h1, h32⟩
  obtain ⟨hclean, hpos, -, hholds⟩ :=
    WriteCursor.writeAll_spec (fields.map writtenField) .reset WriteCursor.clean_empty
  refine ⟨(WriteCursor.reset.writeAll (fields.map writtenField)).image, _, Prod.ext ?written rfl, ?read⟩
  case written =>
    rw [writeOps_writtenFields, observe_writeAll_take hwritable (by rwa [bitsOf_writtenFields]), List.length_map]
  case read => exact observe_load_reads hclean hok hholds (hpos.trans (Nat.zero_add _)) hmore _

end Sys2Proof.Machine
end

section
/-! `TD.DEC` in both cursor modes (44_telemetry_delta.md R217 to R220; 40_bitcodec.md R135): one value, the field loop,
and the three ways the operation ends. -/

namespace Sys2Proof.Machine

open Sys2Proof.Config (Field)

/-! ## One value -/

theorem valueAt_unsigned (buf : List Byte) (width k : Nat) :
    Claims.valueAt buf width false k = fieldValue buf k width := by
  simp [Claims.valueAt]

theorem rawAt_unsigned (list : List Int) (width k : Nat) :
    Claims.rawAt list width false k = trunc width (list.getD k 0) := by
  simp [Claims.rawAt, trunc_cast]

/-- R134, R135: of a signed field the list element's pattern is extended. -/
theorem rawAt_signed (list : List Int) {width : Nat} (hw : 1 ≤ width) (k : Nat) :
    Claims.rawAt list width true k = sext width (trunc width (list.getD k 0)) := by
  rw [sext_eq hw (trunc_lt ..)]
  simp only [Claims.rawAt, true_and, ← trunc_cast]
  norm_cast

section
variable {rc : ReadCursor}

theorem readValue_seek (hmode : rc.mode = .packed) {f : Field} (hw : 1 ≤ f.width) (k : Nat) :
    readValue f (rc.seek k) = (Claims.valueAt rc.buf f.width f.signed k, rc.seek (k + f.width)) := by
  rw [readValue_packed (by exact hmode)]
  cases f.signed <;> simp [valueAt_signed, valueAt_unsigned, hw]

theorem readValue_idx (hmode : rc.mode = .raw) {f : Field} (hw : 1 ≤ f.width) (k : Nat) :
    readValue f { rc with idx := k } = (Claims.rawAt rc.raw f.width f.signed k, { rc with idx := k + 1 }) := by
  rw [readValue_raw (by exact hmode)]
  cases f.signed <;> simp [rawAt_signed, rawAt_unsigned, hw]

/-- A presence bit or the flag. -/
theorem read_one_seek (hmode : rc.mode = .packed) (k : Nat) :
    (rc.seek k).read 1 = ((streamBit rc.buf k).toNat, rc.seek (k + 1)) := by
  rw [ReadCursor.read_packed (by exact hmode), fieldValue_one]
  simp

end

/-! ## The field loop -/

/-- R217, full: the next field is read. -/
theorem decodeFields_full_cons {f : Field} {rc rc' : ReadCursor} {v : Int} (hv : readValue f rc = (v, rc'))
    (fs : List Field) (prev : Snapshot) :
    decodeFields true (f :: fs) prev rc =
      (v :: (decodeFields true fs prev.tail rc').1, (decodeFields true fs prev.tail rc').2) := by
  simp [decodeFields_cons, hv]

/-- R217, incremental: a present field is read after its bit. -/
theorem decodeFields_present {f : Field} {rc rc' rc'' : ReadCursor} {v : Int} (hbit : rc.read 1 = (1, rc'))
    (hv : readValue f rc' = (v, rc'')) (fs : List Field) (prev : Snapshot) :
    decodeFields false (f :: fs) prev rc =
      (v :: (decodeFields false fs prev.tail rc'').1, (decodeFields false fs prev.tail rc'').2) := by
  simp [decodeFields_cons, hbit, hv]

/-- R217, incremental: an absent field is carried forward. -/
theorem decodeFields_absent {rc rc' : ReadCursor} {b : Nat} (hbit : rc.read 1 = (b, rc')) (hb : b ≠ 1) (f : Field)
    (fs : List Field) (prev : Snapshot) :
    decodeFields false (f :: fs) prev rc =
      (prev.headD 0 :: (decodeFields false fs prev.tail rc').1, (decodeFields false fs prev.tail rc').2) := by
  simp [decodeFields_cons, hbit, hb]

section
variable {rc : ReadCursor} {schema : List Field}

theorem decodeFields_full_packed (hmode : rc.mode = .packed) (hs : schemaOk schema = true) (prev : Snapshot) (k : Nat) :
    decodeFields true schema prev (rc.seek k) =
      (Claims.fullAt rc.buf schema k, rc.seek (k + (schema.map fun f => f.width).sum)) := by
  induction schema generalizing prev k with
  | nil => rfl
  | cons f fs ih =>
    obtain ⟨hw, -, hfs⟩ := schemaOk_cons hs
    rw [decodeFields_full_cons (readValue_seek hmode hw k), ih hfs, Claims.fullAt, List.map_cons, List.sum_cons,
      Nat.add_assoc]

theorem decodeFields_full_raw (hmode : rc.mode = .raw) (hs : schemaOk schema = true) (prev : Snapshot) (k : Nat) :
    decodeFields true schema prev { rc with idx := k } =
      (Claims.fullRaw rc.raw schema k, { rc with idx := k + schema.length }) := by
  induction schema generalizing prev k with
  | nil => rfl
  | cons f fs ih =>
    obtain ⟨hw, -, hfs⟩ := schemaOk_cons hs
    rw [decodeFields_full_cons (readValue_idx hmode hw k), ih hfs, Claims.fullRaw, List.length_cons, Nat.add_assoc,
      Nat.add_comm 1]

theorem decodeFields_delta_packed (hmode : rc.mode = .packed) (hs : schemaOk schema = true) (prev : Snapshot)
    (k : Nat) :
    decodeFields false schema prev (rc.seek k) =
      ((Claims.deltaAt rc.buf schema prev k).1, rc.seek (Claims.deltaAt rc.buf schema prev k).2) := by
  induction schema generalizing prev k with
  | nil => rfl
  | cons f fs ih =>
    obtain ⟨hw, -, hfs⟩ := schemaOk_cons hs
    have hbit := read_one_seek hmode k
    cases hp : streamBit rc.buf k <;> rw [hp] at hbit
    case true =>
      rw [decodeFields_present hbit (readValue_seek hmode hw _), ih hfs]
      simp only [Claims.deltaAt, hp, if_true]
    case false =>
      rw [decodeFields_absent hbit (by decide), ih hfs]
      simp only [Claims.deltaAt, hp, Bool.false_eq_true, if_false]

theorem decodeFields_delta_raw (hmode : rc.mode = .raw) (hs : schemaOk schema = true) (prev : Snapshot) (k : Nat) :
    decodeFields false schema prev { rc with idx := k } =
      ((Claims.deltaRaw rc.raw schema prev k).1, { rc with idx := (Claims.deltaRaw rc.raw schema prev k).2 }) := by
  induction schema generalizing prev k with
  | nil => rfl
  | cons f fs ih =>
    obtain ⟨hw, -, hfs⟩ := schemaOk_cons hs
    have hbit : ReadCursor.read { rc with idx := k } 1 = _ := ReadCursor.read_raw (by exact hmode) 1
    have hcond : Claims.rawAt rc.raw 1 false k = 1 ↔ trunc 1 (rc.raw.getD k 0) = 1 := by
      rw [rawAt_unsigned]
      exact Nat.cast_eq_one
    by_cases hp : trunc 1 (rc.raw.getD k 0) = 1
    case pos =>
      rw [decodeFields_present (hbit.trans (congrArg (·, _) hp)) (readValue_idx hmode hw _), ih hfs]
      simp only [Claims.deltaRaw, if_pos (hcond.2 hp)]
    case neg =>
      rw [decodeFields_absent hbit hp, ih hfs]
      simp only [Claims.deltaRaw, if_neg (mt hcond.1 hp)]

end

/-! ## How `TD.DEC` ends -/

section
variable {s : State} {rc rc' rc'' : ReadCursor} {new : Snapshot}

/-- R218: with flag 1 every field is read. -/
theorem exec_tdDec_full (htd : s.cfg.hasTd = true) (hflag : s.rc.read 1 = (1, rc))
    (hfields : decodeFields true s.cfg.schema s.td.rxPrev rc = (new, rc')) :
    exec .tdDec s = .next
      { s with rc := rc', td := { s.td with rxSeq := 0#4, rxPrev := new }, res := .snapshot new true } := by
  simp [exec, execTdDec, htd, hflag, hfields, State.setRc, State.setTd]

/-- R219: with flag 0 and the expected number the fields are read against the previous snapshot. -/
theorem exec_tdDec_incremental (htd : s.cfg.hasTd = true) (hflag : s.rc.read 1 = (0, rc))
    (hseq : rc.read 4 = (s.td.rxSeq.toNat, rc'))
    (hfields : decodeFields false s.cfg.schema s.td.rxPrev rc' = (new, rc'')) :
    exec .tdDec s = .next
      { s with rc := rc'', td := { s.td with rxSeq := s.td.rxSeq + 1#4, rxPrev := new }
               res := .snapshot new false } := by
  simp [exec, execTdDec, htd, hflag, hseq, hfields, State.setRc, State.setTd]

/-- R220: with flag 0 and another number nothing but flag and number is read. Four bits make a number below 16, so the
result carries it as it was read. -/
theorem exec_tdDec_desync (htd : s.cfg.hasTd = true) (hflag : s.rc.read 1 = (0, rc)) {got : Nat}
    (hseq : rc.read 4 = (got, rc')) (hgot : got ≠ s.td.rxSeq.toNat) :
    ∃ g : BitVec 4, g.toNat = got ∧
      exec .tdDec s = .next { s with rc := rc', res := .error (.telemetryDesync s.td.rxSeq g) } := by
  have hlt : got < 2 ^ 4 := by simpa only [hseq] using rc.read_lt 4
  refine ⟨BitVec.ofNat 4 got, (BitVec.toNat_ofNat ..).trans (Nat.mod_eq_of_lt hlt), ?_⟩
  simp [exec, execTdDec, htd, hflag, hseq, hgot, State.setRc]

end

/-! ## Flag and sequence number -/

section
variable {rc : ReadCursor}

theorem read_flag_packed (hmode : rc.mode = .packed) {b : Bool} (hflag : streamBit rc.buf rc.bitPos = b) :
    rc.read 1 = (b.toNat, rc.seek (rc.bitPos + 1)) := by
  rw [ReadCursor.read_packed hmode, fieldValue_one, hflag]

theorem read_seq_packed (hmode : rc.mode = .packed) :
    (rc.seek (rc.bitPos + 1)).read 4 = (fieldValue rc.buf (rc.bitPos + 1) 4, rc.seek (rc.bitPos + 5)) := by
  rw [ReadCursor.read_packed (by exact hmode)]
  simp [Nat.add_assoc]

theorem read_flag_raw (hmode : rc.mode = .raw) {b : Nat} (hflag : Claims.rawAt rc.raw 1 false rc.idx = b) :
    rc.read 1 = (b, { rc with idx := rc.idx + 1 }) := by
  rw [rawAt_unsigned, Nat.cast_inj] at hflag
  rw [ReadCursor.read_raw hmode, hflag]

theorem read_seq_raw (hmode : rc.mode = .raw) :
    ReadCursor.read { rc with idx := rc.idx + 1 } 4 =
      (trunc 4 (rc.raw.getD (rc.idx + 1) 0), { rc with idx := rc.idx + 2 }) :=
  ReadCursor.read_raw (by exact hmode) 4

end

/-- Settles O41: the flag, then the field loop of the mode. -/
theorem fullPayloadIsDecoded : Obligations.FullPayloadIsDecoded := by
  intro s htd hschema
  refine ⟨fun hmode hflag => ?packed, fun hmode hflag => ?raw⟩
  case packed =>
    exact exec_tdDec_full htd (read_flag_packed hmode hflag) (decodeFields_full_packed hmode hschema ..)
  case raw => exact exec_tdDec_full htd (read_flag_raw hmode hflag) (decodeFields_full_raw hmode hschema ..)

/-- Settles O42: the flag, the expected number, then the field loop of the mode. -/
theorem incrementalPayloadIsDecoded : Obligations.IncrementalPayloadIsDecoded := by
  intro s htd hschema
  refine ⟨s.td.rxSeq + 1#4, BitVec.toNat_add .., fun hmode hflag hseq => ?packed, fun hmode hflag hseq => ?raw⟩
  case packed =>
    exact exec_tdDec_incremental htd (read_flag_packed hmode hflag) (hseq ▸ read_seq_packed hmode)
      (decodeFields_delta_packed hmode hschema ..)
  case raw =>
    rw [rawAt_unsigned, Nat.cast_inj] at hseq
    exact exec_tdDec_incremental htd (read_flag_raw hmode hflag) (hseq ▸ read_seq_raw hmode)
      (decodeFields_delta_raw hmode hschema ..)

/-- Settles O43: the flag, then another number than the expected one. -/
theorem desyncLeavesTheDecoderUnchanged : Obligations.DesyncLeavesTheDecoderUnchanged := by
  refine fun s htd => ⟨fun hmode hflag hseq => ?packed, fun hmode hflag hseq => ?raw⟩
  case packed => exact exec_tdDec_desync htd (read_flag_packed hmode hflag) (read_seq_packed hmode) hseq
  case raw =>
    simp only [rawAt_unsigned, ne_eq, Nat.cast_inj] at hseq ⊢
    exact exec_tdDec_desync htd (read_flag_raw hmode hflag) (read_seq_raw hmode) hseq

end Sys2Proof.Machine
end

section
/-! The checksum operations against the recurrence, and what the checksum detects (41_crc16.md R160, R161, R165;
42_frame_rx.md R179 to R181). -/

namespace Sys2Proof.Machine

/-! ## The operations -/

/-- Settles O22: the seed is the constant 0xFFFF. -/
theorem crcInitSetsTheSeed : Obligations.CrcInitSetsTheSeed :=
  ⟨decodeCmd_of_encode rfl, fun _ => rfl⟩

theorem exec_crcUpd (b : Byte) (s : State) :
    exec (.crcUpd b) s = .next { s with crcAcc := crcStep s.crcAcc b, res := .ok } := rfl

/-- R108: opcode 0x21 in the high byte, the operand in the low byte. -/
theorem cmdWord_crcUpd (b : Byte) : cmdWord 0x21#8 b = BitVec.ofNat 16 (0x2100 + b.toNat) := by
  apply BitVec.eq_of_toNat_eq
  have hb := b.isLt
  rw [cmdWord_toNat, BitVec.toNat_ofNat (0x2100 + b.toNat), Nat.mod_eq_of_lt (by omega)]
  rfl

/-- Settles O23: the step on numbers is `crcStep_toNat` with its mixed byte named; the rest is evaluation. -/
theorem crcUpdIsTheRecurrence : Obligations.CrcUpdIsTheRecurrence := by
  refine ⟨fun b => ?decodes, fun s b x y hx hy => ?recurrence, fun s hacc => ?examples⟩
  case decodes => exact decodeCmd_of_encode (congrArg Code.cmd (cmdWord_crcUpd b))
  case recurrence =>
    have hmix : (crcMix s.crcAcc b).toNat = y := by rw [crcMix_toNat, hy, hx]
    exact ⟨crcStep s.crcAcc b, hmix ▸ crcStep_toNat s.crcAcc b, exec_crcUpd b s⟩
  case examples =>
    have h00 : crcStep 0xFFFF#16 0x00#8 = 0xE1F0#16 := by decide
    have hFF : crcStep 0xFFFF#16 0xFF#8 = 0xFF00#16 := by decide
    have h31 : crcStep 0xFFFF#16 0x31#8 = 0xC782#16 := by decide
    simp only [exec_crcUpd, hacc, h00, hFF, h31, and_self]

/-! ## What the checksum detects -/

/-- Settles O25: the common bytes before lead to one accumulator, the changed byte to different ones, and the common
bytes after keep them different. -/
theorem oneChangedByteChangesTheChecksum : Obligations.OneChangedByteChangesTheChecksum := by
  intro before after b b' hne heq
  simp only [crc16, List.foldl_append, List.foldl_cons] at heq
  exact hne (crcStep_injective_byte _ (foldl_crcStep_injective after heq))

/-- R180: the transmitted checksum is in the last four bytes, whatever the content before them. -/
theorem transmittedCks_append_congr (content content' : List Byte) {cks : List Byte} (hc : cks.length = 4) :
    transmittedCks (content ++ cks) = transmittedCks (content' ++ cks) := by
  obtain ⟨a0, a1, b0, b1, rfl⟩ : ∃ a0 a1 b0 b1, cks = [a0, a1, b0, b1] := by
    match cks, hc with
    | [a0, a1, b0, b1], _ => exact ⟨a0, a1, b0, b1, rfl⟩
  rw [transmittedCks_eq, transmittedCks_eq]

/-- R180: content is delivered only from a buffer that did not overflow and whose last four bytes hold its checksum. -/
theorem RxUnit.validate_eq_frame_imp {r : RxUnit} {content cks : List Byte} (hf : r.fbuf = content ++ cks)
    (hc : cks.length = 4) (hv : r.validate = .frame content) :
    r.ovf = false ∧ transmittedCks r.fbuf = (crc16 content).toNat := by
  have ho : r.ovf = false := by
    by_contra ho
    rw [RxUnit.validate_short (.inl (Bool.eq_true_of_not_eq_false ho))] at hv
    cases hv
  refine ⟨ho, ?_⟩
  by_contra hcks
  rw [RxUnit.validate_split ho hf hc, if_neg hcks] at hv
  cases hv

/-- R181 (a): behind the same checksum bytes no content with another checksum validates. -/
theorem RxUnit.validate_changed {r : RxUnit} {content content' cks : List Byte} (hf : r.fbuf = content ++ cks)
    (hc : cks.length = 4) (hv : r.validate = .frame content) (hne : crc16 content ≠ crc16 content') :
    RxUnit.validate { r with fbuf := content' ++ cks } = .ckErr (content' ++ cks) := by
  obtain ⟨hovf, hcks⟩ := RxUnit.validate_eq_frame_imp hf hc hv
  have hcks' : transmittedCks (content' ++ cks) = (crc16 content).toNat := by
    rw [transmittedCks_append_congr content' content hc, ← hf, hcks]
  rw [RxUnit.validate_split (r := { r with fbuf := content' ++ cks }) hovf rfl hc, if_neg]
  exact fun h => hne (BitVec.eq_of_toNat_eq (hcks'.symm.trans h))

/-- R178, R179: `ETX` inside a frame ends it with the event of its validation. -/
theorem exec_etx_frame {s : State} (hs : s.rx.state = .frame) :
    exec .etx s = .next { s with rx := { state := .idle, fbuf := [], ovf := false }
                                 res := .rxByte none (some s.rx.validate) } := by
  have htable : rxTable s.cfg s.rx .etx 0x03#8 = (s.rx.clear.goto .idle, none, some s.rx.validate) := by
    simp only [rxTable, hs]
  show wireByte .etx 0x03#8 s = _
  rw [wireByte, htable]
  rfl

theorem res_of_exec_etx {s t : State} (hs : s.rx.state = .frame) (h : exec .etx s = .next t) :
    t.res = .rxByte none (some s.rx.validate) := by
  rw [exec_etx_frame hs] at h
  cases h
  rfl

/-- Settles O30: the changed byte changes the content's checksum, and the checksum bytes stay. -/
theorem oneChangedContentByteIsRejected : Obligations.OneChangedContentByteIsRejected := by
  intro s t t' before after cks b b' hs hf hc hne ht hres ht'
  have hv : s.rx.validate = .frame (before ++ b :: after) := by
    simpa [res_of_exec_etx hs ht] using hres
  have hcrc := oneChangedByteChangesTheChecksum before after b b' hne
  calc t'.res
    _ = .rxByte none (some (RxUnit.validate { s.rx with fbuf := before ++ b' :: after ++ cks })) :=
      res_of_exec_etx (by exact hs) ht'
    _ = .rxByte none (some (.ckErr (before ++ b' :: after ++ cks))) := by
      rw [RxUnit.validate_changed hf hc hv hcrc]

end Sys2Proof.Machine
end

section
/-! One serial byte in each state of RX (42_frame_rx.md R172 to R180): the rows of the transition table, and the
operations that run them. -/

namespace Sys2Proof.Machine

open Sys2Proof.Config (Params)

/-! ## The rows of the table (R172) -/

section
variable {p : Params} {r : RxUnit}

/-- R173: outside a frame `STX` opens one. -/
theorem rxTable_idle_stx (hs : r.state = .idle) (b : Byte) :
    rxTable p r .stx b = ({ state := .frame, fbuf := [], ovf := false }, none, none) := by
  simp only [rxTable, hs, RxUnit.clear, RxUnit.goto]

/-- R175: outside a frame `ETX` passes through or is dropped. -/
theorem rxTable_idle_etx (hs : r.state = .idle) (b : Byte) :
    rxTable p r .etx b = (r, if p.etxInIdle = .drop then none else some b, none) := by
  cases hp : p.etxInIdle <;> simp [rxTable, hs, hp]

/-- R174: outside a frame the other classes pass through. -/
theorem rxTable_idle_passthrough (hs : r.state = .idle) {c : WireClass} (hc : c ≠ .stx ∧ c ≠ .etx) (b : Byte) :
    rxTable p r c b = (r, some b, none) := by
  obtain ⟨hstx, hetx⟩ := hc
  cases c with
  | stx => exact absurd rfl hstx
  | etx => exact absurd rfl hetx
  | esc | ctl | lit => simp only [rxTable, hs]

/-- R178: inside a frame `ESC` waits for its operand. -/
theorem rxTable_frame_esc (hs : r.state = .frame) (b : Byte) :
    rxTable p r .esc b = ({ r with state := .frameEsc }, none, none) := by
  simp only [rxTable, hs, RxUnit.goto]

/-- R176: under `RESTART` a second `STX` begins the frame again. -/
theorem rxTable_frame_stx_restart (hs : r.state = .frame) (hp : p.stxInFrame = .restart) (b : Byte) :
    rxTable p r .stx b = ({ state := .frame, fbuf := [], ovf := false }, none, none) := by
  simp only [rxTable, hs, hp, RxUnit.clear]

/-- The class is content inside a frame (R177), as `STX` is under `LITERAL` (R176). -/
def IsContent (p : Params) (c : WireClass) : Prop := c = .ctl ∨ c = .lit ∨ c = .stx ∧ p.stxInFrame = .literal

/-- R176, R177: content is appended. -/
theorem rxTable_frame_content (hs : r.state = .frame) {c : WireClass} (hc : IsContent p c) (b : Byte) :
    rxTable p r c b = (r.append p b, none, none) := by
  rcases hc with rfl | rfl | ⟨rfl, hp⟩
  · simp only [rxTable, hs]
  · simp only [rxTable, hs]
  · simp only [rxTable, hs, hp]

end

/-! ## The operations of one byte -/

/-- A byte of class `CTL` is one of two. -/
theorem setWidth_of_wireClass_ctl {b : Byte} (h : wireClass b = .ctl) : (b.setWidth 1).setWidth 8 = b := by
  revert b; decide

/-- The instruction that a serial byte is runs the table at the byte's class. -/
theorem exec_classifyByte (b : Byte) (s : State) : exec (classifyByte b) s = wireByte (wireClass b) b s := by
  obtain ⟨hstx, hetx, hesc⟩ := wireClass_marker b
  cases hc : wireClass b <;> simp only [classifyByte, hc]
  case stx => rw [hstx.1 hc]; rfl
  case etx => rw [hetx.1 hc]; rfl
  case esc => rw [hesc.1 hc]; rfl
  case ctl => exact congrArg (wireByte .ctl · s) (setWidth_of_wireClass_ctl hc)
  case lit => rfl

/-- R171: `RX.BYTE b` is the operation of the class of `b`. -/
theorem exec_rxByte_eq_classifyByte (b : Byte) (s : State) : exec (.rxByte b) s = exec (classifyByte b) s :=
  (exec_classifyByte b s).symm

section
variable {s : State} {c : WireClass}

/-- A row of the table, run as an operation. -/
theorem wireByte_of_rxTable {b : Byte} {r : RxUnit} {pt : Option Byte} {ev : Option RxEvent}
    (h : rxTable s.cfg s.rx c b = (r, pt, ev)) : wireByte c b s = .next { s with rx := r, res := .rxByte pt ev } := by
  simp only [wireByte, h, State.answer_eq, State.setRx]

/-- A byte that passes through changes nothing. -/
theorem wireByte_idle_passthrough (hs : s.rx.state = .idle) (hc : c ≠ .stx ∧ c ≠ .etx) (b : Byte) :
    wireByte c b s = .next { s with res := .rxByte (some b) none } :=
  wireByte_of_rxTable (rxTable_idle_passthrough hs hc b)

theorem wireByte_idle_etx (hs : s.rx.state = .idle) (b : Byte) :
    wireByte .etx b s = .next { s with res := .rxByte (if s.cfg.etxInIdle = .drop then none else some b) none } :=
  wireByte_of_rxTable (rxTable_idle_etx hs b)

/-- R177 with room in the buffer. -/
theorem wireByte_content_room (hs : s.rx.state = .frame) (hc : IsContent s.cfg c)
    (hroom : ∀ m, s.cfg.frameMax = some m → s.rx.fbuf.length < m) (b : Byte) :
    wireByte c b s = .next { s with rx := { s.rx with fbuf := s.rx.fbuf ++ [b] }, res := .rxByte none none } :=
  wireByte_of_rxTable (by rw [rxTable_frame_content hs hc, RxUnit.append_room hroom])

/-- R177, R23 with the buffer full. -/
theorem wireByte_content_full (hs : s.rx.state = .frame) (hc : IsContent s.cfg c) {m : Nat}
    (hm : s.cfg.frameMax = some m) (hfull : m ≤ s.rx.fbuf.length) (b : Byte) :
    wireByte c b s = .next { s with rx := { s.rx with ovf := true }, res := .rxByte none none } :=
  wireByte_of_rxTable (by rw [rxTable_frame_content hs hc, RxUnit.append_full hm hfull])

end

/-! ## Outside a frame -/

/-- Settles O26: the row of state `IDLE`, class by class. -/
theorem bytesOutsideAFrame : Obligations.BytesOutsideAFrame := by
  intro s hs
  have hpass (c : WireClass) := wireByte_idle_passthrough (c := c) hs
  refine ⟨⟨wireByte_of_rxTable (rxTable_idle_stx hs _), rfl⟩, ⟨fun hp => ?etxPasses, fun hp => ?etxDropped, rfl⟩,
    hpass .esc (by decide) _, hpass .ctl (by decide) _, hpass .ctl (by decide) _,
    fun b _ => hpass .lit (by decide) b, fun b hstx hetx => ?byte⟩
  case etxPasses => exact (wireByte_idle_etx hs _).trans (by rw [hp]; rfl)
  case etxDropped => exact (wireByte_idle_etx hs _).trans (by rw [hp]; rfl)
  case byte =>
    obtain ⟨hmstx, hmetx, -⟩ := wireClass_marker b
    exact hpass (wireClass b) ⟨fun hc => hstx (hmstx.1 hc), fun hc => hetx (hmetx.1 hc)⟩ b

/-! ## Inside a frame -/

/-- Settles O27: the row of state `FRAME` but for `ETX`; content is appended or lost. -/
theorem bytesInsideAFrame : Obligations.BytesInsideAFrame := by
  intro s hs
  have hctl : IsContent s.cfg .ctl := .inl rfl
  have hlit : IsContent s.cfg .lit := .inr (.inl rfl)
  have hstx (hp : s.cfg.stxInFrame = .literal) : IsContent s.cfg .stx := .inr (.inr ⟨rfl, hp⟩)
  refine ⟨wireByte_of_rxTable (rxTable_frame_esc hs _),
    fun hp => wireByte_of_rxTable (rxTable_frame_stx_restart hs hp _), fun hroom => ?room, fun m hm hfull => ?full,
    fun b => exec_rxByte_eq_classifyByte b s⟩
  case room =>
    exact ⟨fun hp => wireByte_content_room hs (hstx hp) hroom _, wireByte_content_room hs hctl hroom _,
      wireByte_content_room hs hctl hroom _, fun b _ => wireByte_content_room hs hlit hroom b⟩
  case full =>
    exact ⟨fun hp => wireByte_content_full hs (hstx hp) hm hfull _, fun _ => wireByte_content_full hs hctl hm hfull _,
      fun b _ => wireByte_content_full hs hlit hm hfull b⟩

/-- R172, last row: the operand's literal byte is appended, and the frame goes on. -/
theorem exec_rxByte_operand {s : State} (hs : s.rx.state = .frameEsc) (b : Byte) :
    exec (.rxByte b) s =
      .next { s with rx := (s.rx.append s.cfg (escDecode s.cfg b)).goto .frame, res := .rxByte none none } := by
  simp only [exec_rxByte, rxByteStep_operand hs, State.setRx, State.setRes]

/-- Settles O28: the last row of the table does not look at the operand's class. -/
theorem escapeOperandIsNeverAMarker : Obligations.EscapeOperandIsNeverAMarker := by
  refine fun s b hs => ⟨fun hroom => ?room, fun m hm hfull => ?full, (exec_rxByte_eq_classifyByte b s).symm⟩
  case room =>
    refine ⟨escDecode s.cfg b, fun hdef => escDecode_default hdef b, fun hesc v hv hb => ?canonical, ?appended⟩
    case canonical =>
      have hoperand : b = BitVec.ofNat 8 (v + 64) := by rw [← hb, BitVec.ofNat_toNat, BitVec.setWidth_eq]
      rw [hoperand, escDecode_canonical hesc hv, BitVec.toNat_ofNat]
      omega
    case appended => rw [exec_rxByte_operand hs, RxUnit.append_room hroom]; rfl
  case full => rw [exec_rxByte_operand hs, RxUnit.append_full hm hfull]; rfl

/-! ## The closing `ETX` -/

/-- Settles O29: the event is that of `RxUnit.validate`, whose two checksum words are 30 bits of four bytes. -/
theorem closingEtxValidatesTheFrame : Obligations.ClosingEtxValidatesTheFrame := by
  refine fun s hs => ⟨fun hshort => ?short, fun content a0 a1 b0 b1 hovf hfbuf => ?checked⟩
  case short => rw [exec_etx_frame hs, RxUnit.validate_short hshort]
  case checked =>
    have hcks : transmittedCks s.rx.fbuf =
        (a0.toNat + 256 * a1.toNat) % 32768 + 32768 * ((b0.toNat + 256 * b1.toNat) % 32768) := by
      rw [hfbuf, transmittedCks_eq]
    rw [exec_etx_frame hs, RxUnit.validate_split hovf hfbuf rfl, hcks]
    exact ⟨fun heq => by rw [if_pos heq], fun hne => by rw [if_neg hne]⟩

end Sys2Proof.Machine
end

section
/-! Reception of byte sequences (42_frame_rx.md R182 to R187): `RX.FEED`, chunks and single bytes all run the unit byte
by byte, what passes through on the way, and a whole frame. -/

namespace Sys2Proof.Machine

open Sys2Proof.Config (Params)

/-! ## Each way of feeding is the unit's run -/

theorem feedBytes_outputs (bytes : List Byte) (s : State) :
    (Claims.feedBytes bytes s).1 = (rxRun s.cfg bytes s.rx).1 :=
  (observe_rxBytes bytes s).1

/-- Feeding bytes one at a time changes RX, the ports and the result only. -/
theorem feedBytes_state (bytes : List Byte) (s : State) :
    ∃ (ports : Ports) (res : Result), (Claims.feedBytes bytes s).2 =
      { s with rx := (rxRun s.cfg bytes s.rx).2, ports := ports, res := res } :=
  (observe_rxBytes bytes s).2

theorem feedBytes_rx (bytes : List Byte) (s : State) :
    (Claims.feedBytes bytes s).2.rx = (rxRun s.cfg bytes s.rx).2 := by
  obtain ⟨_, _, hleft⟩ := feedBytes_state bytes s
  rw [hleft]

/-- Chunk by chunk, the unit runs the joined bytes. -/
theorem feedChunks_eq (chunks : List (List Byte)) (s : State) :
    (feedChunks chunks s).1 = (rxRun s.cfg chunks.flatten s.rx).1 ∧
    ∃ (ports : Ports) (res : Result), (feedChunks chunks s).2 =
      { s with rx := (rxRun s.cfg chunks.flatten s.rx).2, ports := ports, res := res } := by
  induction chunks generalizing s with
  | nil => exact ⟨rfl, s.ports, s.res, rfl⟩
  | cons c cs ih =>
    obtain ⟨hout, ports, res, hleft⟩ := feedAll_eq c s
    obtain ⟨hrest, ports', res', hrestLeft⟩ := ih (feedAll c s).2
    rw [hleft] at hrest hrestLeft
    rw [List.flatten_cons, rxRun_append]
    refine ⟨?_, ports', res', ?_⟩
    · rw [feedChunks, hout, hleft, hrest]
    · rw [feedChunks, hleft, hrestLeft]

/-- Settles O33: `feedLoop_spec`, with the unit's run read as `RX.BYTE` on each byte. -/
theorem feedIsByteByByte : Obligations.FeedIsByteByByte := by
  intro s
  obtain ⟨ev, n, pts, data, hres, hn, hrun, hnone, hsome⟩ := feedLoop_spec s.cfg s.ports.bytes s.rx 0 []
  rw [Nat.zero_add, List.nil_append] at hres
  refine ⟨ev, n, pts, data, (feedLoop s.cfg s.rx s.ports.bytes 0 []).1, ?exec, hn, ?outputs, ?unit, hnone, ?last⟩
  case exec => rw [← hres]; rfl
  case outputs => rw [feedBytes_outputs, hrun, rxOutputs_rxFeed]
  case unit => rw [feedBytes_rx, hrun]
  case last => rwa [feedBytes_outputs]

/-- Settles O34: chunks and single bytes are the same run of the unit. -/
theorem receptionIsChunkIndependent : Obligations.ReceptionIsChunkIndependent := by
  intro chunks s
  obtain ⟨hchunks, _, _, hleft⟩ := feedChunks_eq chunks s
  obtain ⟨_, _, hleft'⟩ := feedBytes_state chunks.flatten s
  refine ⟨by rw [hchunks, feedBytes_outputs], ?state⟩
  case state => rw [hleft, hleft']; exact ⟨rfl, rfl, rfl, rfl, rfl, rfl, rfl⟩

/-! ## What passes through (R186) -/

theorem passed_append (a b : List RxOutput) : Claims.passed (a ++ b) = Claims.passed a ++ Claims.passed b :=
  List.filterMap_append

/-- Of one byte's outputs only its passthrough byte passes. -/
theorem passed_rxOutputsOf (o : RxUnit × Option Byte × Option RxEvent) :
    Claims.passed (rxOutputsOf o) = o.2.1.toList := by
  obtain ⟨r, pt, ev⟩ := o
  cases pt <;> cases ev <;> rfl

theorem passed_rxRun_cons (p : Params) (b : Byte) (bs : List Byte) (r : RxUnit) :
    Claims.passed (rxRun p (b :: bs) r).1 =
      (rxByteStep p r b).2.1.toList ++ Claims.passed (rxRun p bs (rxByteStep p r b).1).1 := by
  rw [rxRun, passed_append, passed_rxOutputsOf]

/-- R186: each byte passes unmodified or not at all. -/
theorem passed_rxRun_sublist (p : Params) (bs : List Byte) (r : RxUnit) :
    (Claims.passed (rxRun p bs r).1).Sublist bs := by
  induction bs generalizing r with
  | nil => exact .slnil
  | cons b bs ih =>
    rw [passed_rxRun_cons]
    cases hpt : (rxByteStep p r b).2.1 with
    | none => exact (ih _).cons b
    | some x =>
      obtain ⟨rfl, -⟩ := rxByteStep_passthrough hpt
      exact (ih _).cons_cons x

/-- R173, R175: a byte that passes is not `STX`, nor `ETX` where that is dropped. -/
theorem ne_marker_of_mem_passed {p : Params} {bs : List Byte} {r : RxUnit} {x : Byte}
    (hx : x ∈ Claims.passed (rxRun p bs r).1) : x ≠ Config.stx ∧ (p.etxInIdle = .drop → x ≠ Config.etx) := by
  induction bs generalizing r with
  | nil => cases hx
  | cons b bs ih =>
    rw [passed_rxRun_cons, List.mem_append, Option.mem_toList] at hx
    rcases hx with hpt | hx
    · obtain ⟨rfl, -, -, -, hstx, hetx⟩ := rxByteStep_passthrough hpt
      exact ⟨hstx, hetx⟩
    · exact ih hx

/-- Settles O35: all three are facts about the unit's run. -/
theorem passthroughGuarantees : Obligations.PassthroughGuarantees := by
  intro bytes s
  rw [feedBytes_outputs]
  refine ⟨passed_rxRun_sublist _ _ _, fun hmem => ?stx, fun hdrop hmem => ?etx⟩
  case stx => exact (ne_marker_of_mem_passed hmem).1 rfl
  case etx => exact (ne_marker_of_mem_passed hmem).2 hdrop rfl

/-! ## A whole frame (R187) -/

theorem rxRun_singleton (p : Params) (r : RxUnit) (b : Byte) :
    rxRun p [b] r = (rxOutputsOf (rxByteStep p r b), (rxByteStep p r b).1) := by
  simp only [rxRun, List.append_nil]

/-- R22: outside a frame nothing of RX is left to know. -/
theorem RxUnit.eq_reset_of_wf {p : Params} {r : RxUnit} (hwf : r.wf p) (hs : r.state = .idle) : r = .reset := by
  obtain ⟨-, -, hclear⟩ := hwf
  obtain ⟨hfbuf, hovf⟩ := hclear hs
  obtain ⟨state, fbuf, ovf⟩ := r
  subst hs hfbuf hovf
  rfl

section
variable {p : Params} {payload : List Byte}

/-- R201, R203: a frame without its closing `ETX` fills the buffer silently. -/
theorem rxRun_open_frame (hesc : escDecodeOk p = true)
    (hroom : ∀ m, p.frameMax = some m → payload.length + 4 ≤ m) :
    rxRun p ([Config.stx] ++ escape (payload ++ cksOf payload)) .reset =
      ([], { state := .frame, fbuf := payload ++ cksOf payload, ovf := false }) := by
  have hstx : rxRun p [Config.stx] .reset = ([], { state := .frame, fbuf := [], ovf := false }) := rfl
  have hbody : rxRun p (escape (payload ++ cksOf payload)) { state := .frame, fbuf := [], ovf := false } =
      ([], { state := .frame, fbuf := payload ++ cksOf payload, ovf := false }) :=
    rxRun_escape hesc _ rfl fun m hm => by
      rw [List.length_append, cksOf_length, List.length_nil, Nat.zero_add]
      exact hroom m hm
  rw [rxRun_append, hstx, hbody]
  rfl

/-- R96, R180: the checksum bytes of a frame are what its content is checked against. -/
theorem validate_framed (payload : List Byte) :
    RxUnit.validate { state := .frame, fbuf := payload ++ cksOf payload, ovf := false } = .frame payload := by
  rw [RxUnit.validate_split rfl rfl (cksOf_length payload), if_pos (transmittedCks_cksOf payload)]

/-- R187 on the unit: a frame is received as its payload and leaves RX as it was. -/
theorem rxRun_frameBytes (hesc : escDecodeOk p = true)
    (hroom : ∀ m, p.frameMax = some m → payload.length + 4 ≤ m) :
    rxRun p (frameBytes payload) .reset = ([.event (.frame payload)], .reset) := by
  have hetx : rxByteStep p { state := .frame, fbuf := payload ++ cksOf payload, ovf := false } Config.etx =
      (.reset, none, some (.frame payload)) := by
    rw [← validate_framed payload]; rfl
  rw [frameBytes, rxRun_append, rxRun_open_frame hesc hroom, rxRun_singleton, hetx]
  rfl

end

/-- R203: an even payload is framed, and nothing of the block changes. -/
theorem observe_frameOp {payload : List Byte} (heven : payload.length % 2 = 0) (s : State) :
    observe [frameOp payload] s = ([.bytes (frameBytes payload)],
      { s with ports := { Ports.empty with payload := payload }, res := .bytes (frameBytes payload) }) := by
  simp [observe, State.issue, frameOp, exec, execTxFrame, heven, State.setPorts]

theorem escDecodeOk_of_wf {s : State} (hwf : s.wf) : escDecodeOk s.cfg = true := by
  obtain ⟨hp, -⟩ := hwf
  simp only [paramsOk, paramsLegal, Bool.and_eq_true] at hp
  tauto

/-- R187 from an idle state: in any chunks a frame gives its payload, and the block is as it was. -/
theorem feedChunks_frameBytes {s : State} {payload : List Byte} {chunks : List (List Byte)} (hrx : s.rx = .reset)
    (hesc : escDecodeOk s.cfg = true) (hroom : ∀ m, s.cfg.frameMax = some m → payload.length + 4 ≤ m)
    (hchunks : chunks.flatten = frameBytes payload) :
    (feedChunks chunks s).1 = [.event (.frame payload)] ∧ (feedChunks chunks s).2.sameBlock s := by
  obtain ⟨hout, _, _, hleft⟩ := feedChunks_eq chunks s
  rw [hchunks, hrx, rxRun_frameBytes hesc hroom] at hout hleft
  refine ⟨hout, ?_⟩
  rw [hleft]
  exact ⟨hrx.symm, rfl, rfl, rfl, rfl, rfl, rfl⟩

/-- Settles O40: fed in any chunks, the frame is one run of the idle unit. -/
theorem framedPayloadIsReceived : Obligations.FramedPayloadIsReceived := by
  intro s payload chunks wire hwf hs heven hroom hwire hchunks
  have hesc : escDecodeOk s.cfg = true := escDecodeOk_of_wf hwf
  have hrx : s.rx = .reset := by
    obtain ⟨-, hrxwf, -⟩ := hwf
    exact RxUnit.eq_reset_of_wf hrxwf hs
  rw [observe_frameOp heven] at hwire ⊢
  obtain rfl : frameBytes payload = wire := by simpa using hwire
  obtain ⟨hout, hsame⟩ := feedChunks_frameBytes
    (s := { s with ports := { Ports.empty with payload := payload }, res := .bytes (frameBytes payload) })
    hrx hesc hroom hchunks
  refine ⟨hout, hsame, ?silent⟩
  case silent => rw [feedBytes_outputs, hrx, frameBytes, List.dropLast_concat, rxRun_open_frame hesc hroom]

end Sys2Proof.Machine
end

section
/-! The resets of single units (42_frame_rx.md R185, 44_telemetry_delta.md R226, 45_auth_transport.md R253). -/

namespace Sys2Proof.Machine

/-- R107 on numbers. -/
theorem cmdWord_eq_ofNat (opc arg : Byte) : cmdWord opc arg = BitVec.ofNat 16 (256 * opc.toNat + arg.toNat) := by
  rw [← cmdWord_toNat, BitVec.ofNat_toNat, BitVec.setWidth_eq]

theorem zeroSnapshot_eq_replicate (schema : List Config.Field) :
    zeroSnapshot schema = List.replicate schema.length 0 :=
  List.map_const' ..

/-- R226: with TD present both directions go back to sequence 0 and the zero snapshot. -/
theorem exec_tdRst {s : State} (htd : s.cfg.hasTd = true) :
    exec .tdRst s = .next { s with td := .reset s.cfg.schema, res := .ok } := by
  simp [exec, execTdRst, htd, State.setTd, TdUnit.reset]

/-- R253: a window that exists is emptied. -/
theorem exec_atRst {s : State} {i : Byte} (hi : i.toNat < s.cfg.nAuth) :
    exec (.atRst i) s = .next { s with win := s.win.set i.toNat [], res := .ok } := by
  simp [exec, execAtRst, (instanceLegal_iff s.cfg i).2 hi, State.setWin]

/-- Settles O57: each reset where its unit is there; else its operand is reserved and the operation refused. -/
theorem unitResetsResetTheirOwnUnit : Obligations.UnitResetsResetTheirOwnUnit := by
  refine ⟨⟨decodeCmd_of_encode rfl, decodeCmd_of_encode rfl, fun i => ?decodes⟩, fun _ => rfl,
    fun s => ⟨fun htd => ?tdRst, fun htd => exec_of_reservedOperand (i := .tdRst) htd⟩,
    fun s i => ⟨exec_atRst, fun hi => exec_of_reservedOperand (i := .atRst i) hi⟩⟩
  case decodes => exact decodeCmd_of_encode (congrArg Code.cmd (cmdWord_eq_ofNat 0x62#8 i))
  case tdRst => rw [exec_tdRst htd, TdUnit.reset, zeroSnapshot_eq_replicate]

end Sys2Proof.Machine
end

section
/-! The framer's pure functions and its checksum bytes (43_frame_tx.md R201, R202, R204). -/

namespace Sys2Proof.Machine

/-- Settles O38: the round trip, the length and the missing markers, each by induction on the bytes. -/
theorem unescapeUndoesEscape : Obligations.UnescapeUndoesEscape :=
  fun _ bytes hesc => ⟨unescape_escape hesc bytes, escape_length bytes, escape_no_marker bytes⟩

/-- R137: a field written at a fresh buffer has its bits `15 k` to `15 k + 14` in word `k`. -/
theorem write_reset_getD {n : Nat} (c : BitVec n) (k : Nat) :
    (WriteCursor.reset.write n (c.toNat : Int)).words.getD k 0#15 = (c >>> (15 * k)).setWidth 15 := by
  obtain ⟨-, -, hbits⟩ := WriteCursor.reset.write_spec n (c.toNat : Int) WriteCursor.clean_empty
  have hstart : WriteCursor.reset.bitPos = 0 := rfl
  have htrunc : trunc n (c.toNat : Int) = c.toNat := by
    exact_mod_cast trunc_of_range (x := c.toNat) (by omega) (by exact_mod_cast c.isLt)
  apply BitVec.eq_of_getLsbD_eq
  intro i hi
  have hbit := hbits (15 * k + i)
  rw [wordsBit, show (15 * k + i) / 15 = k by omega, show (15 * k + i) % 15 = i by omega, hstart, htrunc,
    if_neg (Nat.not_lt_zero _), Nat.zero_add, Nat.sub_zero] at hbit
  rw [hbit, BitVec.getLsbD_setWidth, BitVec.getLsbD_ushiftRight, decide_eq_true hi, Bool.true_and,
    BitVec.testBit_toNat]
  by_cases hin : 15 * k + i < n
  · rw [decide_eq_true hin, Bool.true_and]
  · rw [decide_eq_false hin, Bool.false_and, BitVec.getLsbD_of_ge c _ (by omega)]

/-- R137 for 16 bits: word 0 takes the low 15, word 1 the last one. -/
theorem write_sixteen_words (c : BitVec 16) :
    (WriteCursor.reset.write 16 (c.toNat : Int)).words = [c.setWidth 15, (c >>> 15).setWidth 15] := by
  obtain ⟨⟨hlen, -⟩, hpos, -⟩ := WriteCursor.reset.write_spec 16 (c.toNat : Int) WriteCursor.clean_empty
  have hlow := write_reset_getD c 0
  have hhigh := write_reset_getD c 1
  rw [hpos] at hlen
  obtain ⟨w0, w1, hwords⟩ := List.length_eq_two.1 hlen
  rw [hwords] at hlow hhigh ⊢
  exact congrArg₂ (fun w0 w1 => [w0, w1]) hlow hhigh

/-- R96, R92: the checksum bytes are the byte image of the checksum's two storage words. -/
theorem cksOf_eq_image (content : List Byte) :
    cksOf content = [(crc16 content).setWidth 15, (crc16 content >>> 15).setWidth 15].flatMap wordBytesOf := by
  have hlt := (crc16 content).isLt
  apply List.map_injective_iff.2 BitVec.toNat_injective
  rw [cksOf_toNat]
  simp only [wordBytesOf, List.flatMap_cons, List.flatMap_nil, List.cons_append, List.nil_append, List.map_cons,
    List.map_nil, BitVec.toNat_setWidth, BitVec.toNat_ushiftRight, Nat.shiftRight_eq_div_pow, List.cons.injEq, and_true]
  omega

/-- Settles O39: the image of the one field is the checksum bytes that the frame carries. -/
theorem checksumBytesAreASixteenBitField : Obligations.ChecksumBytesAreASixteenBitField := by
  intro s payload hroom heven
  have himage : (WriteCursor.reset.write 16 ((crc16 payload).toNat : Int)).image = cksOf payload := by
    rw [WriteCursor.image, write_sixteen_words, cksOf_eq_image]
  refine ⟨cksOf payload, ?field, ?frame⟩
  case field =>
    have hwritable : ∀ f ∈ [(16, ((crc16 payload).toNat : Int))], WritableWidth f := by simp [WritableWidth]
    have hfits : ∀ m, s.cfg.wbufMax = some m → bitsOf [(16, ((crc16 payload).toNat : Int))] ≤ 15 * m := by
      intro m hm
      have htwo := hroom m hm
      simp only [bitsOf, List.map_cons, List.map_nil, List.sum_cons, List.sum_nil]
      omega
    rw [← himage]
    exact observe_writeAll_take hwritable hfits
  case frame => rw [observe_frameOp heven]; rfl

end Sys2Proof.Machine
end

section
/-! Configuring the block (44_telemetry_delta.md R225; 70_reset_and_hazards.md R301). -/

namespace Sys2Proof.Machine

/-- Settles O10: the schema is looked at first, then the other parameters; reset is legal under all legal parameters. -/
theorem configuredBlockStartsLegal : Obligations.ConfiguredBlockStartsLegal := by
  refine fun p => ⟨fun hp => ⟨?starts, resetWith_wf hp⟩, fun hschema => ?rejected⟩
  case starts =>
    obtain ⟨hlegal, hschema⟩ := Bool.and_eq_true_iff.1 hp
    simp [configure, hlegal, hschema]
  case rejected => simp [configure, hschema]

end Sys2Proof.Machine
end

section
/-! One telemetry payload from encoder to decoder (44_telemetry_delta.md R217, R223): what `TD.ENC` leaves in the write
buffer stands at the read cursor after `BC.WTAKE` and `BC.LOAD`, where `TD.DEC` reads it back field by field. -/

namespace Sys2Proof.Machine

/-! ## Legality along operations -/

/-- Every sequence of operations keeps the legal state. -/
theorem observe_wf (ops : List Op) {s : State} (hwf : s.wf) : (observe ops s).2.wf := by
  induction ops generalizing s with
  | nil => exact hwf
  | cons o os ih =>
    obtain ⟨t, ht⟩ := issue_answers o s
    have hports : (s.setPorts o.2).wf := hwf
    rw [observe_cons ht]
    exact ih ((exec_effect ht).wf hports)

theorem State.wf_schemaOk {s : State} (hwf : s.wf) : schemaOk s.cfg.schema = true := by
  obtain ⟨hp, -⟩ := hwf
  exact (Bool.and_eq_true_iff.1 hp).2

theorem State.wf_txPrev {s : State} (hwf : s.wf) : snapshotLegal s.cfg.schema s.td.txPrev = true := by
  obtain ⟨-, -, -, -, -, -, hprev, -⟩ := hwf
  exact hprev

/-! ## Fields at the read cursor -/

/-- A packed read cursor over the byte image of `words`, with these fields next. -/
structure ReadCursor.Faces (rc : ReadCursor) (words : List Word15) (fields : List (Nat × Int)) : Prop where
  mode  : rc.mode = .packed
  buf   : rc.buf = words.flatMap wordBytesOf
  holds : Holds words rc.bitPos fields

/-- R133: reading the first field gives its bit pattern and puts the cursor before the others. -/
theorem ReadCursor.Faces.read {rc : ReadCursor} {words : List Word15} {n : Nat} {x : Int} {fs : List (Nat × Int)}
    (h : rc.Faces words ((n, x) :: fs)) :
    rc.read n = (trunc n x, rc.seek (rc.bitPos + n)) ∧ (rc.seek (rc.bitPos + n)).Faces words fs := by
  obtain ⟨hmode, hbuf, hfirst, hrest⟩ := h
  have hvalue : fieldValue rc.buf rc.bitPos n = trunc n x := by
    rw [hbuf, ← hfirst]
    exact bitSum_congr fun _ _ => streamBit_image _ _
  refine ⟨by rw [ReadCursor.read_packed hmode, hvalue], hmode, hbuf, ?_⟩
  rwa [ReadCursor.seek_bitPos]

/-! ## `TD.DEC` on an encoded payload -/

section
variable {s : State} {words : List Word15} {x prev : Snapshot} {seq : BitVec 4}

/-- A sequence number read back. -/
theorem trunc_seq (seq : BitVec 4) : trunc 4 (seq.toNat : Int) = seq.toNat :=
  Int.ofNat.inj (trunc_of_range (by omega) (by exact_mod_cast seq.isLt))

/-- R218: a full payload decodes to its snapshot, whatever the decoder held. -/
theorem exec_tdDec_encoded_full (hschema : schemaOk s.cfg.schema = true) (htd : s.cfg.hasTd = true)
    (hx : snapshotLegal s.cfg.schema x = true)
    (hrc : s.rc.Faces words (payloadFields true s.cfg.schema x prev seq)) :
    ∃ rc, exec .tdDec s = .next
      { s with rc := rc, td := { s.td with rxSeq := 0#4, rxPrev := x }, res := .snapshot x true } := by
  obtain ⟨hflag, hmode, hbuf, hfields⟩ := hrc.read
  exact ⟨_, exec_tdDec_full htd hflag
    (decodeFields_full _ x s.td.rxPrev _ hschema hx hmode hbuf hfields)⟩

/-- R219: an incremental payload with the expected number is accepted; if it was encoded against the decoder's own
snapshot it decodes to what was encoded. -/
theorem exec_tdDec_encoded_incremental (hschema : schemaOk s.cfg.schema = true) (htd : s.cfg.hasTd = true)
    (hx : snapshotLegal s.cfg.schema x = true)
    (hrc : s.rc.Faces words (payloadFields false s.cfg.schema x prev s.td.rxSeq)) :
    ∃ rc new, (s.td.rxPrev = prev → new = x) ∧ exec .tdDec s = .next
      { s with rc := rc, td := { s.td with rxSeq := s.td.rxSeq + 1#4, rxPrev := new }
               res := .snapshot new false } := by
  obtain ⟨hflag, hafterFlag⟩ := hrc.read
  obtain ⟨hseq, hmode, hbuf, hfields⟩ := hafterFlag.read
  rw [trunc_seq] at hseq
  refine ⟨_, _, fun hprev => ?_, exec_tdDec_incremental htd hflag hseq rfl⟩
  rw [hprev, decodeFields_delta _ x prev _ hschema hx hmode hbuf hfields]

/-- R220: an incremental payload with another number is a `TelemetryDesync`. -/
theorem exec_tdDec_encoded_desync (htd : s.cfg.hasTd = true) (hne : seq ≠ s.td.rxSeq)
    (hrc : s.rc.Faces words (payloadFields false s.cfg.schema x prev seq)) :
    ∃ g t, exec .tdDec s = .next t ∧ t.res = .error (.telemetryDesync s.td.rxSeq g) := by
  obtain ⟨hflag, hafterFlag⟩ := hrc.read
  obtain ⟨hseq, -⟩ := hafterFlag.read
  rw [trunc_seq] at hseq
  obtain ⟨g, -, hdec⟩ := exec_tdDec_desync htd hflag hseq fun h => hne (BitVec.eq_of_toNat_eq h)
  exact ⟨g, _, hdec, rfl⟩

end

/-! ## What can be sent -/

/-- The length of a payload is a question of the parameters and of what the encoder remembers. -/
theorem payloadBits_congr {s t : State} (hcfg : t.cfg = s.cfg) (hprev : t.td.txPrev = s.td.txPrev) (full : Bool)
    (x : Snapshot) : Claims.payloadBits full t x = Claims.payloadBits full s x := by
  cases full <;> simp [Claims.payloadBits, Claims.payloadOf, hcfg, hprev]

/-- Whether payloads fit, encoded from a given snapshot on, is a question of the parameters only. -/
theorem allFit_congr {s t : State} (hcfg : t.cfg = s.cfg) {prev : Snapshot} {ys : List (Bool × Snapshot)}
    (h : Claims.AllFit s prev ys) : Claims.AllFit t prev ys := by
  induction ys generalizing prev with
  | nil => trivial
  | cons y ys ih =>
    obtain ⟨hfirst, hrest⟩ := h
    exact ⟨fun m hm => (payloadBits_congr (by exact hcfg) (by rfl) ..).trans_le (hfirst m (hcfg ▸ hm)), ih hrest⟩

/-- A legal block with TD that has room for these payloads, one after the other. -/
structure CanSend (s : State) (ys : List (Bool × Snapshot)) : Prop where
  wf    : s.wf
  hasTd : s.cfg.hasTd = true
  legal : ∀ y ∈ ys, Claims.IsSnapshot s.cfg.schema y.2
  fits  : Claims.AllFit s s.td.txPrev ys

/-- Once the encoder remembers the first snapshot, the others can be sent. -/
theorem CanSend.tail {s t : State} {y : Bool × Snapshot} {ys : List (Bool × Snapshot)} (h : CanSend s (y :: ys))
    (hwf : t.wf) (hcfg : t.cfg = s.cfg) (hprev : t.td.txPrev = y.2) : CanSend t ys := by
  obtain ⟨-, htd, hlegal, -, hrest⟩ := h
  exact ⟨hwf, hcfg ▸ htd, fun z hz => hcfg ▸ hlegal z (List.mem_cons_of_mem _ hz), hprev ▸ allFit_congr hcfg hrest⟩

/-! ## The encoder's side -/

/-- The number the encoder holds after a payload (R223). -/
def nextTxSeq (full : Bool) (seq : BitVec 4) : BitVec 4 := if full then 0#4 else seq + 1#4

/-- The write cursor after a payload alone. -/
def encodedPayload (s : State) (full : Bool) (x : Snapshot) : WriteCursor :=
  WriteCursor.reset.writeAll (payloadFields full s.cfg.schema x s.td.txPrev s.td.txSeq)

/-- The state after `BC.WINIT; TD.ENC full x`. -/
def State.encoded (s : State) (full : Bool) (x : Snapshot) : State :=
  { s with wc := encodedPayload s full x
           td := { s.td with txSeq := nextTxSeq full s.td.txSeq, txPrev := x }
           ports := { Ports.empty with snapshot := x }, res := .ok }

section
variable {s : State} {full : Bool} {x : Snapshot} {ys : List (Bool × Snapshot)}

theorem CanSend.schema_ok (h : CanSend s ys) : schemaOk s.cfg.schema = true := State.wf_schemaOk h.wf

theorem CanSend.head_legal (h : CanSend s ((full, x) :: ys)) : snapshotLegal s.cfg.schema x = true :=
  (snapshotLegal_iff_isSnapshot ..).2 (h.legal _ List.mem_cons_self)

/-- R136, R223: the payload is written into the emptied buffer. -/
theorem CanSend.observe_encode (h : CanSend s ((full, x) :: ys)) :
    observe [.plain .bcWinit, Claims.encOp full x] s = ([.ok, .ok], s.encoded full x) := by
  have hpayload := payloadOf_eq full h.head_legal (State.wf_txPrev h.wf)
  have hroom : WriteCursor.reset.roomFor s.cfg (bitsOf (Claims.payloadOf full s x)) = true := by
    obtain ⟨hfirst, -⟩ := h.fits
    rw [WriteCursor.roomFor_iff]
    exact fun m hm => (Nat.zero_add _).trans_le (hfirst m hm)
  rw [hpayload] at hroom
  have hinit : s.issue (.plain .bcWinit) = .next { s with wc := .reset, ports := Ports.empty, res := .ok } := rfl
  have henc : ({ s with wc := .reset, ports := Ports.empty, res := .ok } : State).issue (Claims.encOp full x) =
      .next (s.encoded full x) :=
    exec_tdEnc (s := { s with wc := .reset, ports := { Ports.empty with snapshot := x }, res := .ok })
      h.hasTd h.head_legal rfl hroom
  rw [observe_cons hinit, observe_cons henc]
  rfl

theorem CanSend.encoded (h : CanSend s ((full, x) :: ys)) : CanSend (s.encoded full x) ys := by
  have hwf : (s.encoded full x).wf := by
    have := observe_wf [.plain .bcWinit, Claims.encOp full x] h.wf
    rwa [h.observe_encode] at this
  exact h.tail hwf rfl rfl

/-! ## One exchange -/

/-- The state after `BC.WTAKE`. -/
def State.taken (s : State) : State := { s with ports := Ports.empty, res := .bytes s.wc.image }

/-- The state in which `TD.DEC` runs after `BC.WTAKE -> p; BC.LOAD p`: the image loaded, the ports empty again. -/
def State.delivered (s : State) : State :=
  { s with rc := { s.rc with buf := s.wc.image, mode := .packed, w := 0, o := 0 }, ports := Ports.empty, res := .ok }

/-- R140: the delivered payload's fields stand at the read cursor. -/
theorem delivered_faces (s : State) (full : Bool) (x : Snapshot) :
    (s.encoded full x).delivered.rc.Faces (encodedPayload s full x).words
      (payloadFields full s.cfg.schema x s.td.txPrev s.td.txSeq) := by
  obtain ⟨-, -, -, hholds⟩ := WriteCursor.writeAll_spec
    (payloadFields full s.cfg.schema x s.td.txPrev s.td.txSeq) .reset WriteCursor.clean_empty
  exact ⟨rfl, rfl, hholds⟩

/-- The sending half of an exchange. -/
theorem CanSend.observe_send (h : CanSend s ((full, x) :: ys)) :
    observe [.plain .bcWinit, Claims.encOp full x, .plain .bcWtake] s =
      ([.ok, .ok, .bytes (s.encoded full x).wc.image], (s.encoded full x).taken) := by
  have htake : (s.encoded full x).issue (.plain .bcWtake) = .next (s.encoded full x).taken := rfl
  have hsplit := observe_append [.plain .bcWinit, Claims.encOp full x] [.plain .bcWtake] s
  rwa [h.observe_encode, observe_cons htake] at hsplit

/-- The receiving half of an exchange. -/
theorem observe_receive {t : State} (hdec : exec .tdDec s.delivered = .next t) :
    observe [loadOp s.wc.image, .plain .tdDec] s.taken = ([.ok, t.res], t) := by
  have hload : s.taken.issue (loadOp s.wc.image) =
      .next { s.delivered with ports := { Ports.empty with bytes := s.wc.image } } := rfl
  have hissue : ({ s.delivered with ports := { Ports.empty with bytes := s.wc.image } } : State).issue
      (.plain .tdDec) = .next t := hdec
  rw [observe_cons hload, observe_cons hissue]
  rfl

/-- An exchange ends as `TD.DEC` does on the delivered payload. -/
theorem CanSend.exchange_eq (h : CanSend s ((full, x) :: ys)) {t : State}
    (hdec : exec .tdDec (s.encoded full x).delivered = .next t) : Claims.exchange full x s = (t.res, t) := by
  have hbytes : ([.ok, .ok, .bytes (s.encoded full x).wc.image].map Result.bytesOf).flatten =
      (s.encoded full x).wc.image := List.append_nil _
  simp only [Claims.exchange, h.observe_send, hbytes, observe_receive hdec]
  rfl

theorem exchange_wf (full : Bool) (x : Snapshot) (hwf : s.wf) : (Claims.exchange full x s).2.wf :=
  observe_wf _ (observe_wf _ hwf)

theorem exchange_cfg (full : Bool) (x : Snapshot) (s : State) : (Claims.exchange full x s).2.cfg = s.cfg :=
  (observe_cfg ..).trans (observe_cfg ..)

/-- `TD.DEC` on a delivered payload that is full, or was sent in lock step. -/
theorem CanSend.exec_tdDec_received (h : CanSend s ((full, x) :: ys)) (hsync : full = false → Claims.LockStep s) :
    ∃ t, exec .tdDec (s.encoded full x).delivered = .next t ∧ t.res = .snapshot x full ∧
      t.wc = encodedPayload s full x ∧ t.td =
        { rxPrev := x, rxSeq := nextTxSeq full s.td.txSeq, txPrev := x, txSeq := nextTxSeq full s.td.txSeq } := by
  have hfaces := delivered_faces s full x
  cases full with
  | true =>
    obtain ⟨rc, hdec⟩ := exec_tdDec_encoded_full (s := (s.encoded true x).delivered) h.schema_ok h.hasTd
      h.head_legal hfaces
    exact ⟨_, hdec, rfl, rfl, rfl⟩
  | false =>
    obtain ⟨hseq, hprev⟩ := hsync rfl
    rw [← hseq] at hfaces
    obtain ⟨rc, new, hnew, hdec⟩ := exec_tdDec_encoded_incremental (s := (s.encoded false x).delivered) h.schema_ok
      h.hasTd h.head_legal hfaces
    rw [hnew hprev] at hdec
    refine ⟨_, hdec, rfl, rfl, ?_⟩
    simp [nextTxSeq, State.encoded, State.delivered, hseq]

/-- R218, R219: a payload that is full, or sent in lock step, is received as it was sent, and decoder and encoder then
hold its snapshot and the number after it. -/
theorem CanSend.exchange_received (h : CanSend s ((full, x) :: ys)) (hsync : full = false → Claims.LockStep s) :
    ∃ t, Claims.exchange full x s = (.snapshot x full, t) ∧ t.cfg = s.cfg ∧ t.wc = encodedPayload s full x ∧
      t.td = { rxPrev := x, rxSeq := nextTxSeq full s.td.txSeq, txPrev := x, txSeq := nextTxSeq full s.td.txSeq } ∧
      CanSend t ys := by
  obtain ⟨t, hdec, hres, hwc, htd⟩ := h.exec_tdDec_received hsync
  have hexch := h.exchange_eq hdec
  have hwf := exchange_wf full x h.wf
  have hcfg := exchange_cfg full x s
  rw [hexch] at hwf hcfg
  exact ⟨t, hres ▸ hexch, hcfg, hwc, htd, h.tail hwf hcfg (by rw [htd])⟩

/-- R220: an incremental payload is rejected exactly if its number is not the expected one. -/
theorem CanSend.exchange_desync_iff (h : CanSend s ((false, x) :: ys)) :
    (∃ a b, (Claims.exchange false x s).1 = .error (.telemetryDesync a b)) ↔ s.td.txSeq ≠ s.td.rxSeq := by
  have hfaces := delivered_faces s false x
  by_cases hseq : s.td.txSeq = s.td.rxSeq
  case pos =>
    rw [hseq] at hfaces
    obtain ⟨rc, new, -, hdec⟩ :=
      exec_tdDec_encoded_incremental (s := (s.encoded false x).delivered) h.schema_ok h.hasTd h.head_legal hfaces
    simp [h.exchange_eq hdec, hseq]
  case neg =>
    obtain ⟨g, t, hdec, hres⟩ :=
      exec_tdDec_encoded_desync (s := (s.encoded false x).delivered) h.hasTd hseq hfaces
    simp [h.exchange_eq hdec, hres, hseq]

end

end Sys2Proof.Machine
end

section
/-! The three laws of the telemetry link (44_telemetry_delta.md R227, R229): a snapshot sent again, a link without loss,
and a link with a gap. -/

namespace Sys2Proof.Machine

open Sys2Proof.Config (Field)

/-! ## A snapshot sent again -/

/-- R227: against itself a snapshot has no changed field. -/
theorem deltaFields_self {schema : List Field} {x : Snapshot} (hlen : x.length = schema.length) :
    deltaFields schema x x = List.replicate schema.length (1, 0) := by
  induction schema generalizing x with
  | nil => rfl
  | cons f fs ih =>
    match x, hlen with
    | v :: x, hlen =>
      have hlen' : x.length = fs.length := by simpa using hlen
      simp [deltaFields, ih hlen', List.replicate_succ]

/-- Writing zeros sets no bit. -/
theorem wordsBit_writeAll_zeros {fields : List (Nat × Int)} (hzero : ∀ f ∈ fields, f.2 = 0) {wc : WriteCursor}
    (hclean : wc.clean) (hwc : ∀ k, wordsBit wc.words k = false) (k : Nat) :
    wordsBit (wc.writeAll fields).words k = false := by
  induction fields generalizing wc with
  | nil => exact hwc k
  | cons f fs ih =>
    obtain ⟨hhead, htail⟩ := List.forall_mem_cons.1 hzero
    obtain ⟨hclean', -, hbits⟩ := wc.write_spec f.1 f.2 hclean
    refine ih htail hclean' fun j => ?_
    rw [hbits, hhead]
    simp [hwc, trunc]

/-- R227: an incremental payload of the snapshot last sent full is flag 0, number 0 and a presence bit 0 for each
field. -/
theorem encodedPayload_resent {s : State} {x : Snapshot} (hlen : x.length = s.cfg.schema.length)
    (hprev : s.td.txPrev = x) (hseq : s.td.txSeq = 0#4) :
    (encodedPayload s false x).bitPos = 5 + s.cfg.schema.length ∧
    ∀ k, wordsBit (encodedPayload s false x).words k = false := by
  have hpayload : payloadFields false s.cfg.schema x s.td.txPrev s.td.txSeq =
      (1, 0) :: (4, 0) :: List.replicate s.cfg.schema.length (1, 0) := by
    simp [payloadFields, hprev, hseq, deltaFields_self hlen]
  rw [encodedPayload, hpayload]
  refine ⟨?length, fun k => wordsBit_writeAll_zeros ?zero WriteCursor.clean_empty ?empty k⟩
  case length =>
    obtain ⟨-, hpos, -⟩ := WriteCursor.writeAll_spec
      ((1, 0) :: (4, 0) :: List.replicate s.cfg.schema.length (1, 0)) .reset WriteCursor.clean_empty
    rw [hpos]
    simp [WriteCursor.bitPos, WriteCursor.reset, ← Nat.add_assoc]
  case zero =>
    exact List.forall_mem_cons.2 ⟨rfl, List.forall_mem_cons.2
      ⟨rfl, fun f hf => by rw [List.eq_of_mem_replicate hf]⟩⟩
  case empty => simp [wordsBit]

/-- Settles O45: the full payload resets both numbers and leaves the block in lock step, so the incremental one is
received too. -/
theorem resentSnapshotChangesNoField : Obligations.ResentSnapshotChangesNoField := by
  intro s x hwf htd hx hfits
  have hsend : CanSend s [(true, x), (false, x)] := ⟨hwf, htd, by simp [hx], hfits⟩
  obtain ⟨s1, hexch1, hcfg1, -, htd1, hsend1⟩ := hsend.exchange_received (by simp)
  obtain ⟨s2, hexch2, -, hwc2, htd2, -⟩ := hsend1.exchange_received fun _ => by simp [Claims.LockStep, htd1]
  obtain ⟨hlen, -⟩ := hsend1.legal _ List.mem_cons_self
  obtain ⟨hbits, hzero⟩ := encodedPayload_resent hlen (by rw [htd1]) (by rw [htd1]; rfl)
  rw [← hwc2] at hbits hzero
  rw [hcfg1] at hbits
  refine ⟨s1, s2, hexch1, hexch2, ?_, ?_, ?_, ?_, hbits, hzero⟩ <;> simp [htd2, htd1, nextTxSeq]

/-! ## A link without loss -/

/-- R229: from a full payload on, or in lock step, everything is received as sent, and the block is in lock step after
it. -/
theorem CanSend.exchanges_received {s : State} {y : Bool × Snapshot} {ys : List (Bool × Snapshot)}
    (h : CanSend s (y :: ys)) (hsync : y.1 = false → Claims.LockStep s) :
    (Claims.exchanges (y :: ys) s).1 = (y :: ys).map (fun z => .snapshot z.2 z.1) ∧
    Claims.LockStep (Claims.exchanges (y :: ys) s).2 := by
  induction ys generalizing s y with
  | nil =>
    obtain ⟨t, hexch, -, -, htd, -⟩ := h.exchange_received hsync
    simp [Claims.exchanges, hexch, Claims.LockStep, htd]
  | cons z zs ih =>
    obtain ⟨t, hexch, -, -, htd, hsend⟩ := h.exchange_received hsync
    have hlock : Claims.LockStep t := by simp [Claims.LockStep, htd]
    obtain ⟨hres, hend⟩ := ih hsend fun _ => hlock
    rw [Claims.exchanges, hexch]
    exact ⟨congrArg (_ :: ·) hres, hend⟩

/-- Settles O46: the sequence starts with a full payload. -/
theorem losslessLinkStaysInLockStep : Obligations.LosslessLinkStaysInLockStep := by
  intro s x xs hwf htd hx hxs hfits
  have hsend : CanSend s ((true, x) :: xs) := ⟨hwf, htd, List.forall_mem_cons.2 ⟨hx, hxs⟩, hfits⟩
  exact hsend.exchanges_received (by simp)

/-! ## A link with a gap -/

/-- R223: payloads that are encoded and lost advance the encoder's number and leave the decoder alone. -/
theorem CanSend.observe_lost {s : State} {lost : List Snapshot} {x : Snapshot}
    (h : CanSend s ((lost ++ [x]).map fun y => (false, y))) :
    ∃ t, (observe (lost.flatMap fun y => [.plain .bcWinit, Claims.encOp false y]) s).2 = t ∧
      CanSend t [(false, x)] ∧ t.td.rxSeq = s.td.rxSeq ∧ t.td.txSeq = s.td.txSeq + BitVec.ofNat 4 lost.length := by
  induction lost generalizing s with
  | nil => exact ⟨s, rfl, h, rfl, by simp⟩
  | cons y lost ih =>
    obtain ⟨t, ht, hsend, hrx, htx⟩ := ih h.encoded
    refine ⟨t, ?_, hsend, hrx, ?_⟩
    · rw [List.flatMap_cons, observe_append, h.observe_encode]
      exact ht
    · have hcount : BitVec.ofNat 4 (y :: lost).length = 1#4 + BitVec.ofNat 4 lost.length := by
        rw [List.length_cons, Nat.add_comm, BitVec.ofNat_add]
      rw [htx, hcount, ← BitVec.add_assoc]
      rfl

/-- Settles O47: the encoder's four-bit number is `k` ahead of the decoder's. -/
theorem gapIsSeenUnlessAMultipleOfSixteen : Obligations.GapIsSeenUnlessAMultipleOfSixteen := by
  rintro s lost x hwf htd ⟨hseq, -⟩ hlost hx hfits
  have hlegal : ∀ y ∈ (lost ++ [x]).map fun y => (false, y), Claims.IsSnapshot s.cfg.schema y.2 := by
    simpa [or_imp, forall_and] using ⟨hlost, hx⟩
  have hsend : CanSend s ((lost ++ [x]).map fun y => (false, y)) := ⟨hwf, htd, hlegal, hfits⟩
  obtain ⟨t, ht, hsend', hrx, htx⟩ := hsend.observe_lost
  rw [ht, hsend'.exchange_desync_iff, hrx, htx, hseq]
  bv_omega

end Sys2Proof.Machine
end

section
/-! `AT.VERIFY` (45_auth_transport.md R243 to R254): its checks in their order, in the statements' words, the two
ways it can end, and the packets that `AT.BUILD` has made. -/

namespace Sys2Proof.Machine

/-! ## The checks in their order -/

section
variable {s : State} {i : Byte} {ts : Stamp}

theorem exceedsPkt_iff (s : State) (n : Nat) : Claims.ExceedsPkt s n ↔ withinCap s.cfg.pktMax n = false :=
  (withinCap_false_iff ..).symm

/-- R110: the instance does not exist, or the packet is longer than `PKT_MAX`. -/
theorem refused_atVerify_iff :
    Claims.Refused (.atVerify i) s ↔
      (!instanceLegal s.cfg i || !withinCap s.cfg.pktMax s.ports.packet.length) = true := by
  simp [Claims.Refused, exceedsPkt_iff, instanceLegal]

theorem not_signatureOk_iff {key packet : List Byte} :
    (!signatureOk key packet) = true ↔ ¬ Claims.SignedBy key packet := by
  rw [Bool.not_eq_true', ← Bool.not_eq_true, signatureOk_iff]
  rfl

/-- R102: the packet's timestamp is the number that its bytes 32 to 39 stand for. -/
theorem stampOf_eq {packet : List Byte} (hlen : 40 ≤ packet.length) (hts : ts.toNat = Claims.stampNat packet) :
    stampOf packet = ts :=
  BitVec.eq_of_toNat_eq ((stampOf_toNat hlen).trans hts.symm)

theorem exec_atVerify_refused (h : Claims.Refused (.atVerify i) s) :
    exec (.atVerify i) s = .next { s with res := .error .illegalOperand } :=
  if_pos (refused_atVerify_iff.1 h)

/-- R243 step 1. -/
theorem exec_atVerify_short (hok : ¬ Claims.Refused (.atVerify i) s) (hlen : s.ports.packet.length < 40) :
    exec (.atVerify i) s = .next { s with res := .error .tooShort } :=
  (if_neg (refused_atVerify_iff.not.1 hok)).trans (if_pos hlen)

/-- R243 step 2. -/
theorem exec_atVerify_unsigned (hok : ¬ Claims.Refused (.atVerify i) s) (hlen : 40 ≤ s.ports.packet.length)
    (hsig : ¬ Claims.SignedBy s.ports.key s.ports.packet) :
    exec (.atVerify i) s = .next { s with res := .error .badSignature } :=
  (if_neg (refused_atVerify_iff.not.1 hok)).trans
    ((if_neg (Nat.not_lt.2 hlen)).trans (if_pos (not_signatureOk_iff.2 hsig)))

end

/-- What `AT.VERIFY` on instance `k` leaves when it accepts the timestamp `ts` (R243, R249). -/
def State.accept (s : State) (k : Nat) (ts : Stamp) : State :=
  { s with win := s.win.set k (insertSorted ts (pruneBelow (Claims.earliest s.ports) (s.winOf k)))
           res := .verified ts (s.ports.packet.drop 40) }

section
variable {s : State} {i : Byte} {ts : Stamp}

/-- R243 from step 3 on: what is left for a signed packet. -/
theorem exec_atVerify_signed (hok : ¬ Claims.Refused (.atVerify i) s) (hlen : 40 ≤ s.ports.packet.length)
    (hsig : Claims.SignedBy s.ports.key s.ports.packet) (hts : ts.toNat = Claims.stampNat s.ports.packet) :
    exec (.atVerify i) s =
      if (ts.toNat : Int) < Claims.earliest s.ports then .next { s with res := .error (.tooOld ts) }
      else if Claims.latest s.ports < (ts.toNat : Int) then .next { s with res := .error (.tooNew ts) }
      else if ts ∈ s.winOf i.toNat then .next { s with res := .error (.replayed ts) }
      else if !withinCap s.cfg.rwCap ((pruneBelow (Claims.earliest s.ports) (s.winOf i.toNat)).length + 1) then
        .next { s with res := .error .windowFull }
      else .next (s.accept i.toNat ts) := by
  have hgood : ¬ (!signatureOk s.ports.key s.ports.packet) = true := fun hbad => not_signatureOk_iff.1 hbad hsig
  rw [← stampOf_eq hlen hts]
  exact (if_neg (refused_atVerify_iff.not.1 hok)).trans ((if_neg (Nat.not_lt.2 hlen)).trans (if_neg hgood))

/-- The packet carries the timestamp `ts` and passes every check before its timestamp is looked up in the window: the
operands are legal, it is long enough, signed and fresh. -/
structure ReachesWindow (s : State) (i : Byte) (ts : Stamp) : Prop where
  legal  : ¬ Claims.Refused (.atVerify i) s
  long   : 40 ≤ s.ports.packet.length
  signed : Claims.SignedBy s.ports.key s.ports.packet
  stamp  : Claims.stampNat s.ports.packet = ts.toNat
  notOld : Claims.earliest s.ports ≤ ts.toNat
  notNew : (ts.toNat : Int) ≤ Claims.latest s.ports

/-- R243 from step 5 on: what is left for a fresh packet. -/
theorem ReachesWindow.exec_eq (h : ReachesWindow s i ts) :
    exec (.atVerify i) s =
      if ts ∈ s.winOf i.toNat then .next { s with res := .error (.replayed ts) }
      else if !withinCap s.cfg.rwCap ((pruneBelow (Claims.earliest s.ports) (s.winOf i.toNat)).length + 1) then
        .next { s with res := .error .windowFull }
      else .next (s.accept i.toNat ts) := by
  rw [exec_atVerify_signed h.legal h.long h.signed h.stamp.symm, if_neg (Int.not_lt.2 h.notOld),
    if_neg (Int.not_lt.2 h.notNew)]

/-- R247. -/
theorem ReachesWindow.replayed (h : ReachesWindow s i ts) (hseen : ts ∈ s.winOf i.toNat) :
    exec (.atVerify i) s = .next { s with res := .error (.replayed ts) } :=
  h.exec_eq.trans (if_pos hseen)

/-- The two ways `AT.VERIFY` can end: an error and nothing else (R250), or an accepted timestamp. -/
theorem atVerify_cases {t : State} (h : exec (.atVerify i) s = .next t) :
    (∃ e, t = { s with res := .error e }) ∨ ∃ ts, ReachesWindow s i ts ∧ t = s.accept i.toNat ts := by
  have herror (e : LcbError) (he : exec (.atVerify i) s = .next { s with res := .error e }) :
      ∃ e, t = { s with res := .error e } := ⟨e, Host.Outcome.next.inj (h.symm.trans he)⟩
  by_cases hok : Claims.Refused (.atVerify i) s
  case pos => exact .inl (herror _ (exec_atVerify_refused hok))
  by_cases hlen : 40 ≤ s.ports.packet.length
  case neg => exact .inl (herror _ (exec_atVerify_short hok (Nat.lt_of_not_le hlen)))
  by_cases hsig : Claims.SignedBy s.ports.key s.ports.packet
  case neg => exact .inl (herror _ (exec_atVerify_unsigned hok hlen hsig))
  have hts : (stampOf s.ports.packet).toNat = Claims.stampNat s.ports.packet := stampOf_toNat hlen
  rw [exec_atVerify_signed hok hlen hsig hts] at h
  split_ifs at h with hold hnew hseen hfull
  case neg =>
    exact .inr ⟨_, ⟨hok, hlen, hsig, hts.symm, Int.not_lt.1 hold, Int.not_lt.1 hnew⟩, (Host.Outcome.next.inj h).symm⟩
  all_goals exact .inl ⟨_, (Host.Outcome.next.inj h).symm⟩

/-- What ends with a verified packet has accepted its timestamp. -/
theorem accept_of_verified {t : State} {payload : List Byte} (h : exec (.atVerify i) s = .next t)
    (hres : t.res = .verified ts payload) : ReachesWindow s i ts ∧ t = s.accept i.toNat ts := by
  rcases atVerify_cases h with ⟨e, rfl⟩ | ⟨ts', hreach, rfl⟩
  · cases hres
  · cases hres
    exact ⟨hreach, rfl⟩

/-! ## The window -/

theorem State.wf_winOf_ascending (hwf : s.wf) (k : Nat) : ascending (s.winOf k) = true := by
  obtain ⟨-, -, -, -, hwin, -⟩ := hwf
  exact (winOf_legal hwin k).1

/-- R248: the window has room exactly when fewer than `RW_CAP` of its entries stay. -/
theorem room_after_pruning_iff (hwf : s.wf) (bound : Int) (k : Nat) :
    withinCap s.cfg.rwCap ((pruneBelow bound (s.winOf k)).length + 1) = true ↔
      ∀ m, s.cfg.rwCap = some m → ((s.winOf k).filter fun e => decide (bound ≤ (e.toNat : Int))).length < m := by
  rw [withinCap_iff, pruneBelow_eq_filter bound _ (State.wf_winOf_ascending hwf k)]
  rfl

/-- R249: an accepted timestamp is in the window. -/
theorem mem_winOf_accept (hwf : s.wf) (hi : i.toNat < s.cfg.nAuth) : ts ∈ (s.accept i.toNat ts).winOf i.toNat := by
  have hlen : i.toNat < s.win.length := by rwa [State.wf_win_length hwf]
  rw [show (s.accept i.toNat ts).winOf i.toNat = _ from s.setWin_winOf_self _ hlen, mem_insertSorted]
  exact .inl rfl

end

/-- Settles O50: the last branch of the checks; the new window is the pruned one with the timestamp inserted. -/
theorem freshSignedPacketIsAccepted : Obligations.FreshSignedPacketIsAccepted := by
  intro s i ts hwf hok hlen hsig hts hold hnew hunseen hroom
  have hasc := State.wf_winOf_ascending hwf i.toNat
  have hcap := (room_after_pruning_iff hwf (Claims.earliest s.ports) i.toNat).2 hroom
  have hreach : ReachesWindow s i ts := ⟨hok, hlen, hsig, hts.symm, hold, hnew⟩
  have hruns := hreach.exec_eq.trans ((if_neg hunseen).trans (if_neg (by simp [hcap])))
  refine ⟨_, hruns, ?ascends, fun e => ?members⟩
  case ascends => exact (ascending_iff _).1 (insert_pruned_legal hasc hunseen hcap).1
  case members => rw [mem_insertSorted, mem_pruneBelow _ _ hasc]

/-- Settles O51: each error is one branch of the checks. -/
theorem firstFailingCheckDecidesTheError : Obligations.FirstFailingCheckDecidesTheError := by
  intro s i ts hwf hok
  refine ⟨exec_atVerify_short hok, fun hlen => ⟨exec_atVerify_unsigned hok hlen, fun hsig hts => ?_⟩⟩
  have hsigned := exec_atVerify_signed hok hlen hsig hts
  refine ⟨fun hold => hsigned.trans (if_pos hold), fun hold hnew => ?tooNew, fun hold hnew => ?seen⟩
  case tooNew => exact hsigned.trans ((if_neg (Int.not_lt.2 hold)).trans (if_pos hnew))
  case seen =>
    have hreach : ReachesWindow s i ts := ⟨hok, hlen, hsig, hts.symm, hold, hnew⟩
    refine ⟨hreach.replayed, fun hunseen m hm hfull => ?windowFull⟩
    have hno : ¬ withinCap s.cfg.rwCap ((pruneBelow (Claims.earliest s.ports) (s.winOf i.toNat)).length + 1) = true :=
      fun hcap => Nat.not_lt.2 hfull ((room_after_pruning_iff hwf _ _).1 hcap m hm)
    exact hreach.exec_eq.trans ((if_neg hunseen).trans (if_pos (by simpa using hno)))

/-- Settles O52: of the two ways to end, one is an error, the other a verified packet. -/
theorem failedVerifyLeavesNoTrace : Obligations.FailedVerifyLeavesNoTrace := by
  intro s t i h hfail
  rcases atVerify_cases h with ⟨e, rfl⟩ | ⟨ts, -, rfl⟩
  · rfl
  · exact absurd rfl (hfail ts _)

/-- Settles O54: the accepted timestamp is in the window, and every fresh packet that carries it gets as far as the
look-up there. The identical call is such a packet. -/
theorem sameTimestampIsReplayed : Obligations.SameTimestampIsReplayed := by
  intro s t i ts payload hwf h hres
  obtain ⟨hreach, rfl⟩ := accept_of_verified h hres
  have hi : i.toNat < s.cfg.nAuth := Nat.not_le.1 fun hno => hreach.legal (.inl hno)
  have hseen := mem_winOf_accept (ts := ts) hwf hi
  refine ⟨ReachesWindow.replayed ?same hseen,
    fun p hok hlen hsig hts hold hnew => ReachesWindow.replayed ?other hseen⟩
  case same =>
    obtain ⟨hlegal, hlong, hsigned, hstamp, hnotOld, hnotNew⟩ := hreach
    exact ⟨hlegal, hlong, hsigned, hstamp, hnotOld, hnotNew⟩
  case other => exact ⟨hok, hlen, hsig, hts, hold, hnew⟩

/-! ## Built packets -/

theorem exec_atBuild_refused {s : State} {i : Byte} (h : Claims.Refused (.atBuild i) s) :
    exec (.atBuild i) s = .next { s with res := .error .illegalOperand } := by
  refine if_pos ?_
  simpa [Claims.Refused, exceedsPkt_iff, instanceLegal, Config.minPacket, or_assoc] using h

/-- R242: what `AT.BUILD` answered with bytes was not refused, and the bytes are digest, timestamp and payload. -/
theorem built_of_bytes {s t : State} {i : Byte} {packet : List Byte} (h : exec (.atBuild i) s = .next t)
    (hres : t.res = .bytes packet) :
    ¬ Claims.Refused (.atBuild i) s ∧ t = { s with res := .bytes packet } ∧
      packet.length = 40 + s.ports.payload.length ∧ Claims.SignedBy s.ports.key packet ∧
      Claims.stampNat packet = s.ports.nowMs ∧ packet.drop 40 = s.ports.payload := by
  have hok : ¬ Claims.Refused (.atBuild i) s := by
    intro hrefused
    obtain rfl := Host.Outcome.next.inj ((exec_atBuild_refused hrefused).symm.trans h)
    cases hres
  obtain ⟨_, hexec, hpacket⟩ := buildMakesASignedPacket s i hok
  obtain rfl := Host.Outcome.next.inj (hexec.symm.trans h)
  cases hres
  exact ⟨hok, rfl, hpacket⟩

/-- A packet as long as the one `AT.BUILD` makes is within `PKT_MAX` where that one was. -/
theorem not_refused_atVerify_of_built {s t : State} {i : Byte} (hok : ¬ Claims.Refused (.atBuild i) s)
    (hcfg : t.cfg = s.cfg) (hlen : t.ports.packet.length = 40 + s.ports.payload.length) :
    ¬ Claims.Refused (.atVerify i) t := by
  simp only [Claims.Refused, Claims.ExceedsPkt, not_or, hcfg, hlen] at hok ⊢
  obtain ⟨hi, -, hcap⟩ := hok
  exact ⟨hi, hcap⟩

/-- Settles O53: the built packet is long enough, signed and, at its own time, fresh. -/
theorem builtPacketVerifies : Obligations.BuiltPacketVerifies := by
  intro s t i packet ts windowMs hwf hbuild hres hts hcap hunseen
  obtain ⟨hok, rfl, hlen, hsig, hstamp, hpayload⟩ := built_of_bytes hbuild hres
  obtain ⟨win, hexec, -, hmem⟩ := freshSignedPacketIsAccepted
    { s with ports := { s.ports with packet := packet, windowMs := windowMs }, res := .bytes packet } i ts hwf
    (not_refused_atVerify_of_built hok rfl hlen) (hlen ▸ Nat.le_add_right 40 _) hsig (hts.trans hstamp.symm)
    (by simp [Claims.earliest, hts]) (by simp [Claims.latest, hts]) hunseen (by simp [hcap])
  refine ⟨win, (hmem ts).2 (.inl rfl), ?_⟩
  rw [← hpayload]
  exact hexec

/-- R241, R245: two packets signed with one key that agree after their digests are equal. -/
theorem signedBy_unique {key packet forged : List Byte} (hsig : Claims.SignedBy key packet)
    (hforged : Claims.SignedBy key forged) (hdrop : forged.drop 32 = packet.drop 32) : forged = packet := by
  have htake : forged.take 32 = packet.take 32 := by
    calc forged.take 32 = (Config.hmac key (forged.drop 32)).toList := hforged.symm
      _ = (Config.hmac key (packet.drop 32)).toList := by rw [hdrop]
      _ = packet.take 32 := hsig
  rw [← List.take_append_drop 32 forged, htake, hdrop, List.take_append_drop]

/-- Settles O56: of the packets with the built one's timestamp and payload only the built one is signed. -/
theorem changedDigestIsBadSignature : Obligations.ChangedDigestIsBadSignature := by
  intro s t i packet forged windowMs nowMs hbuild hres hlength hne hdrop
  obtain ⟨hok, rfl, hlen, hsig, -⟩ := built_of_bytes hbuild hres
  have hlen' := hlength.trans hlen
  exact exec_atVerify_unsigned (not_refused_atVerify_of_built hok rfl hlen') (hlen' ▸ Nat.le_add_right 40 _)
    fun hforged => hne (signedBy_unique hsig hforged hdrop)

end Sys2Proof.Machine
end

section
/-! Errors and refusals (60_exceptions.md R272, R277 to R279): every step answers; in which error an operation can end,
and that it is refused exactly in the listed cases. -/

namespace Sys2Proof.Machine

open Sys2Proof.Claims (Refused Receives)

/-- Settles O7: a step does nothing, refuses a word, or runs an instruction, and every instruction answers. -/
theorem everyStepAnswers : Obligations.EveryStepAnswers := by
  intro s
  rcases step_cases s with hs | hs | ⟨i, hs⟩
  case inl => exact ⟨_, hs⟩
  case inr.inl => exact ⟨_, hs⟩
  case inr.inr =>
    obtain ⟨t, ht⟩ := exec_answers i (fetch s).state
    exact ⟨t, hs.trans ht⟩

/-! ## The listed cases are refused -/

theorem roomFor_eq_false {s : State} {bits : Nat} (h : Claims.ExceedsWbuf s bits) :
    s.wc.roomFor s.cfg bits = false :=
  Bool.eq_false_iff.2 fun hroom => (roomFor_iff_not_exceedsWbuf ..).1 hroom h

/-- R137: bits that do not fit are refused, as is an illegal width before them. -/
theorem exec_bcWr_refused {s : State} {n : BitVec 6} (h : Refused (.bcWr n) s) : exec (.bcWr n) s = s.refuse := by
  obtain hn | hn | hfull := h
  · exact exec_of_reservedOperand (i := .bcWr n) (.inl hn)
  · exact exec_of_reservedOperand (i := .bcWr n) (.inr hn)
  · simp [exec, execBcWr, roomFor_eq_false hfull]

/-- R223: without TD, with a snapshot that is none of the schema, or with a payload that does not fit. Only of a legal
snapshot is the statement's payload the model's; another one is refused before it. -/
theorem exec_tdEnc_refused {s : State} {full : Bool} (hprev : snapshotLegal s.cfg.schema s.td.txPrev = true)
    (h : Refused (.tdEnc full) s) : exec (.tdEnc full) s = s.refuse := by
  by_cases hx : snapshotLegal s.cfg.schema s.ports.snapshot = true
  case neg => simp [exec, execTdEnc, hx]
  obtain htd | hnone | hfull := h
  · exact exec_of_reservedOperand (i := .tdEnc full) htd
  · exact absurd ((snapshotLegal_iff_isSnapshot ..).1 hx) hnone
  · have hroom : s.wc.roomFor s.cfg (bitsOf (Claims.payloadOf full s s.ports.snapshot)) = false :=
      roomFor_eq_false hfull
    rw [payloadOf_eq full hx hprev] at hroom
    simp [exec, execTdEnc, hroom]

/-- R277, last column. -/
theorem exec_refused {i : Instr} {s : State} (hwf : s.wf) (h : Refused i s) : exec i s = s.refuse := by
  cases i
  case bcLoadraw | bcRd | bcRds | tdDec | tdRst | atRst => exact exec_of_reservedOperand h
  case bcWr => exact exec_bcWr_refused h
  case txFrame => exact if_pos h
  case tdEnc => exact exec_tdEnc_refused (State.wf_txPrev hwf) h
  case atBuild => exact exec_atBuild_refused h
  case atVerify => exact exec_atVerify_refused h
  all_goals exact h.elim

/-! ## The errors of an operation that is not refused -/

/-- R277 but for its last column: the errors in which the operation can end by its own rules. -/
def ListedError (i : Instr) : LcbError → Prop
  | .frameChecksum _ => Receives i
  | .telemetryDesync _ _ => i = .tdDec
  | .tooShort | .badSignature | .tooOld _ | .tooNew _ | .replayed _ | .windowFull => ∃ k, i = .atVerify k
  | .schemaViolation | .illegalOperand => False

/-- If the result reports an error, it is one of the operation's own. -/
def ListedResult (i : Instr) (r : Result) : Prop := ∀ e, r.error? = some e → ListedError i e

/-- Whatever the operation leaves, its result is a listed one. -/
def ListedAnswer (i : Instr) (a : Answer) : Prop := ∀ t, a = .next t → ListedResult i t.res

section
variable {i : Instr} {s : State}

theorem listedResult_of_noError {r : Result} (hr : r.error? = none) : ListedResult i r :=
  fun _ he => nomatch hr.symm.trans he

theorem listedAnswer_next {t : State} (h : ListedResult i t.res) : ListedAnswer i (.next t) :=
  fun _ ht => Host.Outcome.next.inj ht ▸ h

theorem listedAnswer_noError {t : State} (h : t.res.error? = none) : ListedAnswer i (.next t) :=
  listedAnswer_next (listedResult_of_noError h)

theorem listedAnswer_error {e : LcbError} (he : ListedError i e) :
    ListedAnswer i (.next { s with res := .error e }) :=
  listedAnswer_next fun _ he' => Option.some.inj he' ▸ he

/-! ### Receiving operations -/

/-- R171: of the two frame events one is an error. -/
theorem listedResult_rxByte (hi : Receives i) {pt : Option Byte} {ev : Option RxEvent} :
    ListedResult i (.rxByte pt ev) :=
  match ev with
  | none | some (.frame _) => listedResult_of_noError rfl
  | some (.ckErr _) => fun _ he => Option.some.inj he ▸ hi

/-- R182: the same for the event that ends `RX.FEED`. -/
theorem listedResult_feedLoop (hi : Receives i) {p : Config.Params} {r : RxUnit} {bs : List Byte} :
    ListedResult i (feedLoop p r bs 0 []).2 := by
  obtain ⟨ev, n, pts, data, hres, -⟩ := feedLoop_spec p bs r 0 []
  rw [hres]
  cases ev
  case none | frame => exact listedResult_of_noError rfl
  case ckErr => exact fun _ he => Option.some.inj he ▸ hi

theorem listedAnswer_wireByte (hi : Receives i) {c : WireClass} {b : Byte} : ListedAnswer i (wireByte c b s) :=
  listedAnswer_next (listedResult_rxByte hi)

theorem listedAnswer_wirePair (hi : Receives i) {e : Byte} : ListedAnswer i (wirePair e s) :=
  listedAnswer_next (listedResult_feedLoop hi)

/-! ### Operations with operands that can be refused -/

theorem widthLegal_of_legal {n : BitVec 6} (h : ¬ (n.toNat = 0 ∨ 32 < n.toNat)) : widthLegal n = true :=
  (widthLegal_iff n).2 (by omega)

theorem listedAnswer_bcRd {n : BitVec 6} (hok : ¬ Refused (.bcRd n) s) :
    ListedAnswer (.bcRd n) (exec (.bcRd n) s) := by
  simp only [exec, execBcRd, widthLegal_of_legal hok, Bool.not_true]
  exact listedAnswer_noError rfl

theorem listedAnswer_bcRds {n : BitVec 6} (hok : ¬ Refused (.bcRds n) s) :
    ListedAnswer (.bcRds n) (exec (.bcRds n) s) := by
  simp only [exec, execBcRds, widthLegal_of_legal hok, Bool.not_true]
  exact listedAnswer_noError rfl

theorem listedAnswer_bcWr {n : BitVec 6} (hok : ¬ Refused (.bcWr n) s) :
    ListedAnswer (.bcWr n) (exec (.bcWr n) s) := by
  obtain ⟨hn, hfits⟩ := not_or.1 (or_assoc.not.2 hok)
  rw [exec_bcWr (widthLegal_of_legal hn) ((roomFor_iff_not_exceedsWbuf ..).2 hfits)]
  exact listedAnswer_noError rfl

/-- R218 to R220: with TD present, `TD.DEC` ends with a snapshot or with a desync. -/
theorem listedAnswer_tdDec (hok : ¬ Refused .tdDec s) : ListedAnswer .tdDec (exec .tdDec s) := by
  have htd : s.cfg.hasTd = true := eq_true_of_ne_false hok
  simp only [exec, execTdDec, htd, Bool.not_true, Bool.false_eq_true, if_false]
  split_ifs
  case pos => exact listedAnswer_error rfl
  all_goals exact listedAnswer_noError rfl

theorem listedAnswer_tdEnc {full : Bool} (hprev : snapshotLegal s.cfg.schema s.td.txPrev = true)
    (hok : ¬ Refused (.tdEnc full) s) : ListedAnswer (.tdEnc full) (exec (.tdEnc full) s) := by
  simp only [Refused, not_or, Bool.not_eq_false, not_not, ← snapshotLegal_iff_isSnapshot] at hok
  obtain ⟨htd, hx, hfits⟩ := hok
  rw [exec_tdEnc htd hx (payloadOf_eq full hx hprev).symm ((roomFor_iff_not_exceedsWbuf ..).2 hfits)]
  exact listedAnswer_noError rfl

/-- R243: each check of `AT.VERIFY` has its own error. -/
theorem listedAnswer_atVerify {k : Byte} (hok : ¬ Refused (.atVerify k) s) :
    ListedAnswer (.atVerify k) (exec (.atVerify k) s) := by
  by_cases hlen : 40 ≤ s.ports.packet.length
  case neg =>
    rw [exec_atVerify_short hok (Nat.lt_of_not_le hlen)]
    exact listedAnswer_error ⟨k, rfl⟩
  by_cases hsig : Claims.SignedBy s.ports.key s.ports.packet
  case neg =>
    rw [exec_atVerify_unsigned hok hlen hsig]
    exact listedAnswer_error ⟨k, rfl⟩
  rw [exec_atVerify_signed hok hlen hsig (stampOf_toNat hlen)]
  split_ifs
  case neg => exact listedAnswer_noError rfl
  all_goals exact listedAnswer_error ⟨k, rfl⟩

/-- R277 but for its last column, row by row. -/
theorem listedAnswer_of_not_refused (hwf : s.wf) (hok : ¬ Refused i s) : ListedAnswer i (exec i s) := by
  cases i with
  | stx | etx | esc | ctl | lit | rxByte => exact listedAnswer_wireByte (by trivial)
  | ep0 | ep1 | ep2 | ep3 | ep4 | epx => exact listedAnswer_wirePair (by trivial)
  | rxFeed => exact listedAnswer_next (listedResult_feedLoop (by trivial))
  | bcLoad | bcWinit | bcWtake | crcInit | crcUpd | crcGet | rxRst | sysRst => exact listedAnswer_noError rfl
  | bcLoadraw => rw [exec_bcLoadraw (eq_true_of_ne_false hok)]; exact listedAnswer_noError rfl
  | bcRd n => exact listedAnswer_bcRd hok
  | bcRds n => exact listedAnswer_bcRds hok
  | bcWr n => exact listedAnswer_bcWr hok
  | txFrame => rw [show exec .txFrame s = _ from if_neg hok]; exact listedAnswer_noError rfl
  | tdDec => exact listedAnswer_tdDec hok
  | tdEnc full => exact listedAnswer_tdEnc (State.wf_txPrev hwf) hok
  | tdRst => rw [exec_tdRst (eq_true_of_ne_false hok)]; exact listedAnswer_noError rfl
  | atBuild k => rw [(exec_atBuild hok).2]; exact listedAnswer_noError rfl
  | atVerify k => exact listedAnswer_atVerify hok
  | atRst k => rw [exec_atRst (Nat.lt_of_not_le hok)]; exact listedAnswer_noError rfl

end

/-! ## The codes -/

/-- R277 by the codes of R271: what status code `c` says of the operation that ended with it. -/
def CodeListed (i : Instr) (s : State) (c : Nat) : Prop :=
  (c = 10 → Refused i s) ∧ (c = 1 → Receives i) ∧ (c = 2 → i = .tdDec) ∧
    (c ∈ [3, 4, 5, 6, 7, 9] → ∃ k, i = .atVerify k) ∧ c ≠ 8 ∧ c ≤ 10

theorem codeListed_of_listedError {i : Instr} {e : LcbError} (s : State) (h : ListedError i e) :
    CodeListed i s e.code := by
  cases e with
  | schemaViolation | illegalOperand => exact h.elim
  | _ => simpa [CodeListed, LcbError.code, ListedError] using h

theorem codeListed_of_listedResult {i : Instr} {r : Result} (s : State) (h : ListedResult i r) :
    CodeListed i s r.code := by
  cases he : r.error? with
  | none => simp [CodeListed, Result.code, he]
  | some e =>
    rw [show r.code = e.code by simp only [Result.code, he]]
    exact codeListed_of_listedError s (h e he)

theorem codeListed_of_refused {i : Instr} {s : State} (h : Refused i s) : CodeListed i s 10 := by
  simpa [CodeListed] using h

/-- Settles O13: a listed operand is refused; without one the operation ends in none but its own errors, of which
`IllegalOperand` is none. -/
theorem errorsAndRefusalsByOperation : Obligations.ErrorsAndRefusalsByOperation := by
  intro i s hwf
  refine ⟨exec_refused hwf, fun t ht => ?_⟩
  by_cases hrefused : Refused i s
  case pos =>
    obtain rfl := Host.Outcome.next.inj ((exec_refused hwf hrefused).symm.trans ht)
    exact codeListed_of_refused hrefused
  case neg => exact codeListed_of_listedResult s (listedAnswer_of_not_refused hwf hrefused t ht)

end Sys2Proof.Machine
end

section
/-! Reset (70_reset_and_hazards.md R300 to R303): what `SYS.RST` leaves, the unit resets that together leave the same
block, and what the first operations after it return. -/

namespace Sys2Proof.Machine

open Sys2Proof.Config (Params Field)

/-! ## `SYS.RST` -/

/-- R300, R301; the host's side stays (assumption log 17). -/
theorem exec_sysRst (s : State) :
    exec .sysRst s = .next { State.resetWith s.cfg with inputs := s.inputs, ports := s.ports } := rfl

/-- R301: every window is empty at reset; one that is not there reads as empty too. -/
theorem resetWith_winOf (p : Params) (k : Nat) : (State.resetWith p).winOf k = [] :=
  List.getElem?_getD_replicate_default_eq _ p.nAuth k

/-- Settles O58: the reset state is R301's, element by element. -/
theorem sysResetSetsEveryElement : Obligations.SysResetSetsEveryElement := by
  refine ⟨decodeCmd_of_encode rfl, fun s => ⟨_, exec_sysRst s, rfl, ?elements⟩⟩
  have hzero := zeroSnapshot_eq_replicate s.cfg.schema
  have hcount : (State.resetWith s.cfg).win.length = s.cfg.nAuth := List.length_replicate
  exact ⟨rfl, rfl, rfl, rfl, rfl, rfl, rfl, rfl, rfl, rfl, rfl, rfl, rfl, hcount, resetWith_winOf _, rfl, rfl,
    hzero, hzero, rfl, rfl, rfl⟩

/-! ## The unit resets issued together (R302) -/

/-- With the first `n` windows empty, emptying window `n` leaves the first `n + 1` empty. -/
theorem set_replicate_append_drop {win : List (List Stamp)} {n : Nat} (hn : n < win.length) :
    (List.replicate n [] ++ win.drop n).set n [] = List.replicate (n + 1) [] ++ win.drop (n + 1) := by
  rw [List.set_append_right _ _ (by simp), List.length_replicate, Nat.sub_self, List.drop_eq_getElem_cons hn,
    List.set_cons_zero, List.replicate_succ', List.append_assoc, List.singleton_append]

/-- `AT.RST` of the first `n` instances empties their windows and does nothing else. An index is a byte, so it reaches
no window from 256 on (assumption log 18). -/
theorem observe_atRsts {s : State} (hports : s.ports = Ports.empty) (hres : s.res = .ok)
    (hwin : s.win.length = s.cfg.nAuth) {n : Nat} (hn : n ≤ s.cfg.nAuth) (hbyte : n ≤ 256) :
    (observe ((List.range n).map fun k => Op.plain (.atRst (BitVec.ofNat 8 k))) s).2 =
      { s with win := List.replicate n [] ++ s.win.drop n } := by
  induction n with
  | zero => simp
  | succ n ih =>
    have hindex : (BitVec.ofNat 8 n).toNat = n := (BitVec.toNat_ofNat ..).trans (Nat.mod_eq_of_lt hbyte)
    have hlast : State.issue { s with win := List.replicate n [] ++ s.win.drop n }
        (.plain (.atRst (BitVec.ofNat 8 n))) =
        .next { s with win := List.replicate (n + 1) [] ++ s.win.drop (n + 1) } := by
      rw [State.issue, Op.plain, exec_atRst (by rw [hindex]; exact hn), hindex]
      simp only [State.setPorts, set_replicate_append_drop (hwin.symm ▸ hn), ← hports, ← hres]
    rw [List.range_succ, List.map_append, observe_append, ih (Nat.le_of_succ_le hn) (Nat.le_of_succ_le hbyte)]
    exact congrArg Prod.snd (observe_cons hlast [])

/-- Every window once: all are empty. -/
theorem observe_atRst_all {s : State} (hports : s.ports = Ports.empty) (hres : s.res = .ok)
    (hwin : s.win.length = s.cfg.nAuth) {n : Nat} (hn : n = s.cfg.nAuth) (hbyte : n ≤ 256) :
    (observe ((List.range n).map fun k => Op.plain (.atRst (BitVec.ofNat 8 k))) s).2 =
      { s with win := List.replicate n [] } := by
  rw [observe_atRsts hports hres hwin hn.le hbyte, List.drop_of_length_le (hwin.trans hn.symm).le, List.append_nil]

/-- R226, issued by the host. -/
theorem issue_tdRst {s : State} (htd : s.cfg.hasTd = true) :
    s.issue (.plain .tdRst) = .next { s with td := .reset s.cfg.schema, ports := Ports.empty, res := .ok } :=
  exec_tdRst (s := s.setPorts Ports.empty) htd

/-- R132, issued by the host without a list. -/
theorem issue_bcLoadraw {s : State} (hraw : s.cfg.hasRawMode = true) :
    s.issue (.plain .bcLoadraw) =
      .next { s with rc := { s.rc with raw := [], idx := 0, mode := .raw }, ports := Ports.empty, res := .ok } :=
  exec_bcLoadraw (s := s.setPorts Ports.empty) hraw

/-- R185, R226: RX and TD, if it is there, are at reset. -/
theorem observe_rxRst_tdRst {s : State} (htd : s.cfg.hasTd = true) :
    (observe [.plain .rxRst, .plain .tdRst] s).2 =
      { s with rx := .reset, td := .reset s.cfg.schema, ports := Ports.empty, res := .ok } := by
  have hrx : s.issue (.plain .rxRst) = .next { s with rx := .reset, ports := Ports.empty, res := .ok } := rfl
  rw [observe_cons hrx, observe_cons (issue_tdRst (by exact htd))]
  rfl

/-- R160, R131, R132, R136: CRC and BC are at reset. `BC.LOADRAW` empties the raw list, and `BC.LOAD` after it goes back
to mode `PACKED`. -/
theorem observe_crc_bc_resets {s : State} (hraw : s.cfg.hasRawMode = true) :
    (observe [.plain .crcInit, .plain .bcLoadraw, .plain .bcLoad, .plain .bcWinit] s).2 =
      { s with crcAcc := Config.crcSeed, rc := .reset, wc := .reset, ports := Ports.empty, res := .ok } := by
  have hcrc : s.issue (.plain .crcInit) =
      .next { s with crcAcc := Config.crcSeed, ports := Ports.empty, res := .ok } := rfl
  rw [observe_cons hcrc, observe_cons (issue_bcLoadraw (by exact hraw))]
  rfl

/-- Settles O59: each group of operations puts its own units at reset and leaves the others alone. -/
theorem unitResetsTogetherAreSysReset : Obligations.UnitResetsTogetherAreSysReset := by
  intro s t hwf htd hraw hbyte hrst
  obtain ⟨-, -, -, -, ⟨hwin, -⟩, -⟩ := hwf
  obtain rfl := Host.Outcome.next.inj ((exec_sysRst s).symm.trans hrst)
  rw [observe_append, observe_append, observe_rxRst_tdRst htd,
    observe_atRst_all (by rfl) (by rfl) (by exact hwin) (by rfl) hbyte, observe_crc_bc_resets (by exact hraw)]
  exact ⟨rfl, rfl, rfl, rfl, rfl, rfl, rfl⟩

/-! ## The first operations after reset (R303) -/

/-- R66: the empty buffer is all zeros. -/
theorem streamBit_nil (k : Nat) : streamBit [] k = false := streamBit_past (Nat.zero_le k)

theorem fieldValue_nil (k n : Nat) : fieldValue [] k n = 0 := fieldValue_past (Nat.zero_le k) n

/-- R219 on the empty buffer: no field is present, so each is carried forward. -/
theorem deltaAt_nil {schema : List Field} {prev : Snapshot} (hlen : prev.length = schema.length) (k : Nat) :
    (Claims.deltaAt [] schema prev k).1 = prev := by
  induction schema generalizing prev k with
  | nil => exact (List.eq_nil_of_length_eq_zero hlen).symm
  | cons f fs ih =>
    obtain ⟨x, xs, rfl⟩ := List.exists_cons_of_length_eq_add_one hlen
    have hxs : xs.length = fs.length := Nat.succ.inj hlen
    simp [Claims.deltaAt, streamBit_nil, ih hxs]

/-- The ports are empty at reset, so an operation without port operands finds the reset state. -/
theorem issue_plain_resetWith (i : Instr) (p : Params) :
    (State.resetWith p).issue (.plain i) = exec i (State.resetWith p) := rfl

/-- R303: with nothing loaded the flag is 0 and the sequence number is the one expected after reset. -/
theorem observe_tdDec_resetWith {p : Params} (hp : paramsOk p = true) (htd : p.hasTd = true) :
    (observe [.plain .tdDec] (State.resetWith p)).1 = [.snapshot (List.replicate p.schema.length 0) false] := by
  have hschema : schemaOk p.schema = true := (Bool.and_eq_true_iff.1 hp).2
  obtain ⟨_, -, hpacked, -⟩ := incrementalPayloadIsDecoded (State.resetWith p) htd hschema
  have hdec := hpacked rfl (streamBit_nil _) (fieldValue_nil ..)
  have hzero : (Claims.deltaAt [] p.schema (zeroSnapshot p.schema) 5).1 = List.replicate p.schema.length 0 := by
    rw [deltaAt_nil (by simp [zeroSnapshot]), zeroSnapshot_eq_replicate]
  rw [observe_cons ((issue_plain_resetWith ..).trans hdec), ← hzero]
  rfl

/-- Settles O60: the read buffer is empty and reads as zeros, the write buffer is empty, the accumulator is the seed. -/
theorem firstOperationsAfterReset : Obligations.FirstOperationsAfterReset := by
  intro p n hp h1 h32
  have hread := issue_bcRd_packed (s := State.resetWith p) rfl ((widthLegal_iff n).2 ⟨h1, h32⟩)
  refine ⟨?value, ?cursor, rfl, observe_tdDec_resetWith hp⟩
  case value =>
    rw [observe_cons hread]
    exact congrArg (fun v => [Result.unsigned v]) (fieldValue_nil ..)
  case cursor =>
    rw [observe_cons hread]
    exact (ReadCursor.seek_bitPos ..).trans (Nat.zero_add _)

end Sys2Proof.Machine
end
